-- ==== Sys2Proof/Word.lean ====
section
/-! DEFINITION. The two machine words of SGE-FEC, the register word and the byte, and the two widths
they are made of (spec 00_scope R4, R6; 20_memory R61). `delta%` puts the value of a named width into the
type, so that arithmetic tactics see a numeral there. -/

namespace Sys2Proof

/-- `XLEN`: width in bits of every register, address and length (00_scope R4). -/
abbrev Config.xlen : Nat := 32

/-- `SYMBITS`: bits per symbol; the field is GF(2^SYMBITS) (00_scope R4). -/
abbrev Config.symbits : Nat := 8

/-- A *word*, `0 .. 2^32-1`: the width of every register, address and length (00_scope R6). -/
abbrev Word := BitVec (delta% Config.xlen)

/-- A *byte*, `0 .. 255`: the unit of `Mem`, of the escaper, of the digest input, and a symbol of
the Reed-Solomon code (20_memory R61, 40_arith_gf256 R122). -/
abbrev Byte := BitVec (delta% Config.symbits)

/-- A value for `PRIM_POLY`: bit `k` is the coefficient of `x^k`, up to degree `SYMBITS`
(00_scope R4). -/
abbrev PrimPoly := BitVec ((delta% Config.symbits) + 1)

/-- A product of two symbols before its reduction, "up to 15 bits" (40_arith_gf256 R124). -/
abbrev SymbolProduct := BitVec (2 * (delta% Config.symbits) - 1)

end Sys2Proof
end

