-- ==== Sys2Proof/Syntax.lean ====
section
/-! DEFINITION. The nine commands of SGE-FEC, one constructor per row of spec/opcode_table.json
(30_encoding R92). A command has no operand fields: its operands are registers (R94). -/

namespace Sys2Proof

/-- A command of SGE-FEC (30_encoding R92). -/
inductive Instr where
  /-- HASH: the digest of the source region (41_hash R154). -/
  | hash
  /-- CBOUND: the compression size bound (42_cbound R162). -/
  | cbound
  /-- FSIZE: the coded size (43_fec R175). -/
  | fsize
  /-- FENC: split and Reed-Solomon encode (43_fec R176). -/
  | fenc
  /-- FSYN: the syndromes of every codeword (43_fec R178). -/
  | fsyn
  /-- FDEC: correct every codeword (43_fec R184). -/
  | fdec
  /-- ECNT: count the reserved bytes (44_escape R205). -/
  | ecnt
  /-- ESC: the escaped stream (44_escape R206). -/
  | esc
  /-- UNESC: invert escaping (44_escape R207). -/
  | unesc
deriving DecidableEq, Repr

end Sys2Proof
end

