-- ==== Sys2Proof/Decode.lean ====
section
/-! DEFINITION. Decoding and encoding of the command word (30_encoding R90 to R93): total on all
`2^32` words, rejecting an illegal word by name. -/

namespace Sys2Proof

/-- Why a command word is illegal (30_encoding R93). -/
inductive DecodeError where
  /-- Bits 31:8 are not zero. -/
  | zeroFieldSet
  /-- Bits 31:8 are zero and the OPCODE is no row of the table. -/
  | unassignedOpcode (opcode : Byte)
deriving DecidableEq, Repr

/-- Field OPCODE, bits 7:0 (30_encoding R90). -/
def opcodeField (w : Word) : Byte := w.extractLsb' 0 8

/-- Field ZERO, bits 31:8 (30_encoding R90). -/
def zeroField (w : Word) : BitVec 24 := w.extractLsb' 8 24

/-- The OPCODE column of 30_encoding R92. -/
def decodeOpcode (op : Byte) : Except DecodeError Instr :=
  if op = 0x01 then .ok .hash
  else if op = 0x02 then .ok .cbound
  else if op = 0x10 then .ok .fsize
  else if op = 0x11 then .ok .fenc
  else if op = 0x12 then .ok .fsyn
  else if op = 0x13 then .ok .fdec
  else if op = 0x20 then .ok .ecnt
  else if op = 0x21 then .ok .esc
  else if op = 0x22 then .ok .unesc
  else .error (.unassignedOpcode op)

/-- Decoding of the latched command word (30_encoding R91). -/
def decode (w : Word) : Except DecodeError Instr :=
  if zeroField w ≠ 0 then .error .zeroFieldSet else decodeOpcode (opcodeField w)

/-- The `match` column of 30_encoding R92: the one word that is command `i`. -/
def encode : Instr → Word
  | .hash => 0x00000001
  | .cbound => 0x00000002
  | .fsize => 0x00000010
  | .fenc => 0x00000011
  | .fsyn => 0x00000012
  | .fdec => 0x00000013
  | .ecnt => 0x00000020
  | .esc => 0x00000021
  | .unesc => 0x00000022

/-- The `mask` column of 30_encoding R92: every row's mask is all ones. -/
def encodingMask : Instr → Word
  | .hash => 0xFFFFFFFF
  | .cbound => 0xFFFFFFFF
  | .fsize => 0xFFFFFFFF
  | .fenc => 0xFFFFFFFF
  | .fsyn => 0xFFFFFFFF
  | .fdec => 0xFFFFFFFF
  | .ecnt => 0xFFFFFFFF
  | .esc => 0xFFFFFFFF
  | .unesc => 0xFFFFFFFF

/-- The command word made of the low `nbits` bits of `w`, higher bits zero (a command is always one
32-bit word, 30_encoding R95). -/
def commandWord (nbits w : Nat) : Word := BitVec.ofNat _ (w % 2 ^ nbits)

/-- The instruction the decoder reads from an instruction whose bits are `w`. -/
def decodeTableWord (nbits w : Nat) : Option Instr := (decode (commandWord nbits w)).toOption

end Sys2Proof
end

