-- ==== Sys2Proof/Config.lean ====
section
/-! DEFINITION. The constants and parameters of 00_scope R4, and the free values the spec leaves
open. Fixed literals are named here once and used by name everywhere else. -/

namespace Sys2Proof

/-! ### Fixed constants (00_scope R4) -/

/-- `N`: bytes in a codeword. -/
def Config.rsN : Nat := 255
/-- `K`: message bytes in a codeword. -/
def Config.rsK : Nat := 223
/-- `NROOTS`: parity bytes in a codeword, roots of the generator. -/
def Config.nroots : Nat := 32
/-- `T`: symbol errors per codeword that are always corrected. -/
def Config.rsT : Nat := 16
/-- `FCR`: first consecutive root of the generator polynomial, in index form (92 D18). -/
def Config.fcr : Nat := 1
/-- `GAP`: root gap of the generator polynomial, in index form (92 D18). -/
def Config.gap : Nat := 1
/-- `ALPHA`: the primitive element, the polynomial `x` (92 D18). -/
def Config.alpha : Byte := 0x02
/-- `SYNC`: frame marker of the transport. -/
def Config.sync : Byte := 0xAB
/-- `ESCAPE`: introduces an escape sequence. -/
def Config.escape : Byte := 0x54
/-- `ESCAPE_SYNC`: second byte of the sequence that stands for a literal `SYNC`. -/
def Config.escapeSync : Byte := 0x9F
/-- `DIGEST_BYTES`: bytes in a digest. -/
def Config.digestBytes : Nat := 16
/-- `SYN_BYTES`: bytes of syndrome per codeword. -/
def Config.synBytes : Nat := 32
/-- `UNCORR_MARK`: the report byte of an uncorrectable codeword (92 D21). -/
def Config.uncorrMark : Byte := 0xFF
/-- The largest word, `2^32 - 1`: what a register can report (40_arith_gf256 R120). -/
def Config.maxWord : Nat := 2 ^ Config.xlen - 1

/-! ### The parameters a model takes as arguments (00_scope R4 OPEN, 93 U7) -/

/-- A function from lengths to lengths, given as an expression in the length `n`. State may hold no
function, so this is how one is written down as data; every function on words is such an expression
(`BoundExpr.exists_eval`). -/
inductive BoundExpr where
  /-- The length `n`. -/
  | n
  | lit (k : Nat)
  | add (a b : BoundExpr)
  | mul (a b : BoundExpr)
  /-- `floor(a / b)`; `n >> s` is `div n (lit (2^s))`. -/
  | div (a b : BoundExpr)
  /-- `c` where `a ≤ b`, else `d`. -/
  | ifLe (a b c d : BoundExpr)
deriving DecidableEq, Repr

/-- The value of the expression at length `x`, on unbounded integers. -/
def BoundExpr.eval (x : Nat) : BoundExpr → Nat
  | .n => x
  | .lit k => k
  | .add a b => a.eval x + b.eval x
  | .mul a b => a.eval x * b.eval x
  | .div a b => a.eval x / b.eval x
  | .ifLe a b c d => if a.eval x ≤ b.eval x then c.eval x else d.eval x

/-- The `CBOUND_FN` an instance was built with: the default of 42_cbound R161, a function given as an
expression, or one of which nothing is known (its values are free, `Config.otherCbound`). -/
inductive CboundFn where
  | deflate
  | given (e : BoundExpr)
  | other (k : Nat)
deriving DecidableEq, Repr

/-- The `DIGEST_FN` an instance was built with: the default of 41_hash R150 to R153, a function given
by its digests of the listed messages, or one of which nothing is known. Where nothing is given the
values are free (`Config.otherDigest`). -/
inductive DigestFn where
  | md5
  | given (digests : List (List Byte × Vector Byte Config.digestBytes)) (k : Nat)
  | other (k : Nat)
deriving DecidableEq, Repr

/-- The parameters of one instance (00_scope R4): fixed when the block is built, never changed. -/
structure Config where
  /-- `MEM_SIZE`, any integer `1 .. 2^32` (92 D11). -/
  memSize : Nat
  /-- `PRIM_POLY`, `SYMBITS + 1` bits (92 D17). -/
  primPoly : PrimPoly
  /-- `CBOUND_FN` (92 D16). -/
  cbound : CboundFn
  /-- `DIGEST_FN` (92 D14). -/
  digest : DigestFn
deriving DecidableEq, Repr

/-- The default instance: the defaults of 00_scope R4, with the `MEM_SIZE = 0x10000` of
95_test_vectors. DESIGN CHOICE for `memSize` (log 4): the spec gives it no default. -/
def Config.default : Config :=
  { memSize := 0x10000, primPoly := 0x11D, cbound := .deflate, digest := .md5 }

/-! ### Free values: opaque, so that no proof can see what they are -/

/-- The bound of an instance of whose `CBOUND_FN` nothing is known (93 U7; log 5). -/
opaque Config.otherCbound : Nat → Nat → Nat

/-- The digest of an instance of whose `DIGEST_FN` nothing is known (93 U7; log 5). -/
opaque Config.otherDigest : Nat → List Byte → Vector Byte Config.digestBytes

/-- `gfinv(0)`, which no rule evaluates (93 U8; log 9). -/
opaque Config.freeInverseOfZero : Byte

/-- `LOG[0]`, which no rule evaluates (93 U8; log 9). -/
opaque Config.freeLogOfZero : Nat

/-- The `n`-th unspecified byte (93 U2; log 12). -/
opaque Config.freeByte : Nat → Byte

/-- The `n`-th unspecified register word (93 U2; log 12). -/
opaque Config.freeWord : Nat → Word

/-- The `n`-th unspecified way a command ended: 0 without fault, `1 .. 9` with that fault code
(93 U2 within the limits of 10_state R30; log 7, log 12). -/
opaque Config.freeEnding : Nat → Fin 10

end Sys2Proof
end

