-- ==== Sys2Proof/Machine/State.lean ====
section
/-! DEFINITION. The state of one SGE-FEC instance (10_state R20), what can stop the model, and the
state right after reset. -/

namespace Sys2Proof.Machine

/-- Buffer memory: the bytes that differ from `Memory.unlisted`, addresses strictly rising. The
canonical form is `Memory.wf`; reads and writes are in Machine/Ops.lean. -/
abbrev Memory := List Host.Cell

/-- A region of buffer memory `[base, base+len)`, the sum unbounded (10_state R37). -/
structure Region where
  base : Word
  len : Word
deriving DecidableEq, Repr

/-- One of the six transactions of 30_encoding R97. A register transaction is always 32 bits wide;
its offset may be one the block has no meaning for (10_state R25). -/
inductive Transaction where
  /-- `HostWrite(off, v)`. -/
  | hostWrite (off : Nat) (v : Word)
  /-- `HostRead(off)`. -/
  | hostRead (off : Nat)
  /-- Host memory write of one byte. -/
  | memWrite (addr : Nat) (b : Byte)
  /-- Host memory read of one byte. -/
  | memRead (addr : Nat)
  /-- The reset transaction. -/
  | reset
  /-- The engine's turn: its completion step if a command is in progress (10_state R32). -/
  | completion
deriving DecidableEq, Repr

/-- What a host read returned. -/
inductive ReadResult where
  /-- `HostRead(off)` returned `v`. -/
  | register (off : Nat) (v : Word)
  /-- The host read byte `b` at `addr`. -/
  | byte (addr : Nat) (b : Byte)
deriving DecidableEq, Repr

/-- The regions of a command whose DONE the host has not read yet (70_reset_and_hazards R264). -/
structure Window where
  /-- The source region, if the command uses it. -/
  source : List Region
  /-- The destination and report regions the command uses. -/
  outputs : List Region
deriving DecidableEq, Repr

/-- The state of one SGE-FEC instance. CMD, the eleventh register, stores nothing (10_state R27)
and has no field. -/
structure State where
  /-- STATUS, offset 0x04 (10_state R30). -/
  status : Word
  /-- SRC, offset 0x08. -/
  src : Word
  /-- SRC_LEN, offset 0x0C. -/
  srcLen : Word
  /-- DST, offset 0x10. -/
  dst : Word
  /-- DST_CAP, offset 0x14. -/
  dstCap : Word
  /-- AUX, offset 0x18. -/
  aux : Word
  /-- AUX_CAP, offset 0x1C. -/
  auxCap : Word
  /-- RES_LEN, offset 0x20 (10_state R28). -/
  resLen : Word
  /-- RES_AUX, offset 0x24 (10_state R28). -/
  resAux : Word
  /-- ERR_INFO, offset 0x28 (10_state R29). -/
  errInfo : Word
  /-- PENDING, the latched command word, meaningful only while BUSY = 1 (10_state R31). -/
  pending : Word
  /-- `Mem` (10_state R36). -/
  mem : Memory
  /-- The constants of the instance (00_scope R4); no step changes them (log 4). -/
  cfg : Config
  /-- MODEL: the transactions still to come, in the order they take place (log 1). -/
  script : List Transaction
  /-- MODEL: what the host's last read returned (log 13). -/
  lastRead : Option ReadResult
  /-- MODEL: the busy windows the host has not closed, newest command first (log 7). -/
  windows : List Window
  /-- MODEL: the host has written a region of the running command (R264; log 7). -/
  broken : Bool
  /-- MODEL: how many free values have been drawn (log 12). -/
  freeCount : Nat
deriving DecidableEq, Repr

/-- What stops the model with a fault. No command does: a fault of the spec is a next state
(60_exceptions R220). -/
inductive Fault where
  /-- Raised by a host memory transaction at an address outside `0 .. MEM_SIZE-1`, where 10_state
  R36 says there is no byte (log 10). Safe: the model stops where hardware may go on. -/
  | noSuchAddress (addr : Nat)
deriving DecidableEq, Repr

/-- What the model refuses. -/
inductive Refusal where
  /-- Raised by `exec` for an instruction that has no meaning yet. Safe: the model stops. -/
  | notModelled (mnemonic : String)
  /-- Raised by a register transaction whose offset is not a multiple of 4 or lies outside
  `0x000 .. 0xFFF`: "the model refuses it" (10_state R25, 93 U3; log 11). Safe: the model stops. -/
  | badRegisterOffset (off : Nat)
deriving DecidableEq, Repr

/-- An instance with parameters `cfg` and memory contents `mem` right after reset: every register 0
(10_state R41, 70_reset_and_hazards R260). PENDING is meaningless then; 0 is a DESIGN CHOICE
(log 6). The model's own fields are empty. -/
def State.resetWith (cfg : Config) (mem : Memory) : State :=
  { status := 0, src := 0, srcLen := 0, dst := 0, dstCap := 0, aux := 0, auxCap := 0,
    resLen := 0, resAux := 0, errInfo := 0, pending := 0, mem := mem, cfg := cfg,
    script := [], lastRead := none, windows := [], broken := false, freeCount := 0 }

/-- The machine right after reset: the default parameters, nothing listed in memory (10_state R41). -/
def State.reset : State := State.resetWith Config.default []

end Sys2Proof.Machine
end

