-- ==== Sys2Proof/Machine/Flags.lean ====
section
/-! DEFINITION. The fields of STATUS (10_state R30, R34) and the fault codes (60_exceptions R221).
SGE-FEC has no other flags: no carry, no overflow, no condition codes. -/

namespace Sys2Proof.Machine

/-- The nine faults of 60_exceptions R221. -/
inductive FaultKind where
  | illegalCommand
  | addrRange
  | overlap
  | dstOverflow
  | sizeOverflow
  | badLength
  | uncorrectableChunk
  | malformedEscapeSequence
  | auxOverflow
deriving DecidableEq, Repr

/-- `code(F)` (60_exceptions R221). -/
def FaultKind.code : FaultKind → Byte
  | .illegalCommand => 1
  | .addrRange => 2
  | .overlap => 3
  | .dstOverflow => 4
  | .sizeOverflow => 5
  | .badLength => 6
  | .uncorrectableChunk => 7
  | .malformedEscapeSequence => 8
  | .auxOverflow => 9

/-- STATUS with the given fields, every bit not listed 0 (10_state R30). -/
def statusWord (busy done err : Bool) (errcode : Byte) : Word :=
  (0#16 ++ errcode) ++ (0#5 ++ (BitVec.ofBool err ++ BitVec.ofBool done ++ BitVec.ofBool busy))

/-- STATUS.BUSY, bit 0. -/
def State.busy (s : State) : Bool := s.status.getLsbD 0

/-- STATUS.DONE, bit 1. -/
def State.done (s : State) : Bool := s.status.getLsbD 1

/-- STATUS.ERR, bit 2. -/
def State.err (s : State) : Bool := s.status.getLsbD 2

/-- STATUS.ERRCODE, bits 15:8. -/
def State.errcode (s : State) : Byte := s.status.extractLsb' 8 8

/-- STATUS of a running command (10_state R31). -/
def statusBusy : Word := statusWord true false false 0

/-- STATUS after a command's end without fault (10_state R33). -/
def statusDone : Word := statusWord false true false 0

/-- STATUS after a command's end with fault code `code` (60_exceptions R222). -/
def statusFault (code : Byte) : Word := statusWord false true true code

/-- The values STATUS ever takes (10_state R30). -/
def statusLegal (w : Word) : Bool :=
  w = 0 || w = statusBusy || w = statusDone ||
    (List.range 9).any fun k => w = statusFault (BitVec.ofNat 8 (k + 1))

end Sys2Proof.Machine
end

