-- ==== Sys2Proof/Machine/Operands.lean ====
section
/-! DEFINITION. Operand passing: the regions named by the operand registers (10_state R37), which of
them each command uses (30_encoding R94), the range and overlap tests (20_memory R68, R69), and the
register map (10_state R22). -/

namespace Sys2Proof.Machine

/-! ### Regions -/

/-- The source region (10_state R37). -/
def State.source (s : State) : Region := { base := s.src, len := s.srcLen }

/-- The destination region, at its full capacity (10_state R37). -/
def State.destination (s : State) : Region := { base := s.dst, len := s.dstCap }

/-- The report region, at its full capacity (10_state R37). -/
def State.report (s : State) : Region := { base := s.aux, len := s.auxCap }

/-- Address `a` lies in the region; the sum is unbounded (10_state R37). -/
def Region.has (r : Region) (a : Nat) : Bool :=
  decide (r.base.toNat ≤ a) && decide (a < r.base.toNat + r.len.toNat)

/-- The region is in range: empty, or ending within memory, without wrap-around (20_memory R68). -/
def Region.inRange (memSize : Nat) (r : Region) : Bool :=
  decide (r.len.toNat = 0) || decide (r.base.toNat + r.len.toNat ≤ memSize)

/-- Two regions overlap; an empty region overlaps nothing (20_memory R69). -/
def Region.overlaps (r1 r2 : Region) : Bool :=
  decide (r1.len.toNat > 0) && decide (r2.len.toNat > 0) &&
    decide (r1.base.toNat < r2.base.toNat + r2.len.toNat) &&
    decide (r2.base.toNat < r1.base.toNat + r1.len.toNat)

/-- The addresses of the region that exist in memory. -/
def Region.addresses (memSize : Nat) (r : Region) : List Nat :=
  (List.range (min (r.base.toNat + r.len.toNat) memSize - r.base.toNat)).map (r.base.toNat + ·)

/-- The index of the first region that is not in range (60_exceptions R226: source 0, destination 1,
report 2). -/
def firstOutOfRange (memSize : Nat) : List Region → Nat → Option Nat
  | [], _ => none
  | r :: rs, k => if r.inRange memSize then firstOutOfRange memSize rs (k + 1) else some k

/-- Some two of the regions overlap (60_exceptions R227). -/
def anyOverlap : List Region → Bool
  | [] => false
  | r :: rs => rs.any r.overlaps || anyOverlap rs

/-- The checks on the regions a command uses, given in the order source, destination, report:
AddrRange before Overlap (60_exceptions R226, R227, R232). -/
def regionFault (memSize : Nat) (rs : List Region) : Option (FaultKind × Nat) :=
  match firstOutOfRange memSize rs 0 with
  | some k => some (.addrRange, k)
  | none => if anyOverlap rs then some (.overlap, 0) else none

/-! ### What each command uses (30_encoding R94) -/

/-- The command reads the source region ("R" in 30_encoding R94). -/
def usesSource : Instr → Bool
  | .hash => true
  | .cbound => false
  | .fsize => false
  | .fenc => true
  | .fsyn => true
  | .fdec => true
  | .ecnt => true
  | .esc => true
  | .unesc => true

/-- The command writes the destination region ("W" in 30_encoding R94). -/
def usesDestination : Instr → Bool
  | .hash => true
  | .cbound => false
  | .fsize => false
  | .fenc => true
  | .fsyn => true
  | .fdec => true
  | .ecnt => false
  | .esc => true
  | .unesc => true

/-- The command writes the report region: FDEC only (30_encoding R94). -/
def usesReport : Instr → Bool
  | .hash => false
  | .cbound => false
  | .fsize => false
  | .fenc => false
  | .fsyn => false
  | .fdec => true
  | .ecnt => false
  | .esc => false
  | .unesc => false

/-- The regions of command `i`: its source region, if it uses it. -/
def State.sourceRegions (s : State) (i : Instr) : List Region :=
  if usesSource i then [s.source] else []

/-- The regions of command `i` that it writes: destination, then report. -/
def State.outputRegions (s : State) (i : Instr) : List Region :=
  (if usesDestination i then [s.destination] else []) ++
    (if usesReport i then [s.report] else [])

/-- The regions owned by the command whose word is `w`; an illegal word names none, since no operand
register is looked at (60_exceptions R223; log 20). -/
def State.windowOf (s : State) (w : Word) : Window :=
  match decode w with
  | .ok i => { source := s.sourceRegions i, outputs := s.outputRegions i }
  | .error _ => { source := [], outputs := [] }

/-! ### The register map (10_state R22) -/

/-- The offset has the shape of a register access: a multiple of 4 in `0x000 .. 0xFFF`
(10_state R23, R25). -/
def registerOffset (off : Nat) : Bool := decide (off % 4 = 0) && decide (off < 0x1000)

/-- The word a host read of `off` returns (10_state R22, R23): CMD and reserved offsets return 0. -/
def State.readRegister (s : State) (off : Nat) : Word :=
  if off = 0x04 then s.status
  else if off = 0x08 then s.src
  else if off = 0x0C then s.srcLen
  else if off = 0x10 then s.dst
  else if off = 0x14 then s.dstCap
  else if off = 0x18 then s.aux
  else if off = 0x1C then s.auxCap
  else if off = 0x20 then s.resLen
  else if off = 0x24 then s.resAux
  else if off = 0x28 then s.errInfo
  else 0

/-- The effect of a host write on the operand registers (10_state R24); every other offset is
ignored here (CMD is handled by `State.hostWrite`). -/
def State.writeOperand (s : State) (off : Nat) (v : Word) : State :=
  if off = 0x08 then { s with src := v }
  else if off = 0x0C then { s with srcLen := v }
  else if off = 0x10 then { s with dst := v }
  else if off = 0x14 then { s with dstCap := v }
  else if off = 0x18 then { s with aux := v }
  else if off = 0x1C then { s with auxCap := v }
  else s

end Sys2Proof.Machine
end

