-- ==== Sys2Proof/Machine/Ops.lean ====
section
/-! DEFINITION. The named operations over memory and registers: reading and writing `Mem`
(00_scope R7, 20_memory R62), the end of a command without and with fault (10_state R33,
60_exceptions R222), the command start that clears a recorded fault (10_state R31), and the
unspecified values of 93 U2. -/

namespace Sys2Proof.Machine

/-! ### Memory -/

/-- What an address that is not listed reads as. DESIGN CHOICE (log 3): the contents of `Mem` at
power-up are unspecified (93 U1). -/
def Memory.unlisted : Byte := 0x00

/-- Addresses strictly rising from above `lo`, and no byte equal to what an unlisted one reads as. -/
def Memory.wfAbove : Option Nat → Memory → Bool
  | _, [] => true
  | lo, (a, b) :: m =>
    (match lo with
      | none => true
      | some l => decide (l < a)) && decide (b ≠ Memory.unlisted) && Memory.wfAbove (some a) m

/-- The canonical form of a memory. -/
def Memory.wf (m : Memory) : Bool := Memory.wfAbove none m

/-- Every listed address exists: it lies in `0 .. memSize-1` (10_state R36). -/
def Memory.inside (memSize : Nat) (m : Memory) : Bool := m.all fun c => decide (c.1 < memSize)

/-- The byte at address `a`. -/
def Memory.read : Memory → Nat → Byte
  | [], _ => Memory.unlisted
  | (a', b) :: m, a => if a' = a then b else Memory.read m a

/-- Lists byte `b` at `a`, keeping the addresses rising. -/
def Memory.insert : Memory → Nat → Byte → Memory
  | [], a, b => [(a, b)]
  | (a', b') :: m, a, b =>
    if a < a' then (a, b) :: (a', b') :: m
    else if a = a' then (a, b) :: m
    else (a', b') :: Memory.insert m a b

/-- Unlists address `a`. -/
def Memory.erase (m : Memory) (a : Nat) : Memory := m.filter fun c => decide (c.1 ≠ a)

/-- `Mem[a] <- b`, in canonical form. -/
def Memory.write (m : Memory) (a : Nat) (b : Byte) : Memory :=
  if b = Memory.unlisted then Memory.erase m a else Memory.insert m a b

/-- `MemRead(addr, n)` (00_scope R7). -/
def Memory.readBytes (m : Memory) (addr : Nat) : Nat → List Byte
  | 0 => []
  | n + 1 => m.read addr :: Memory.readBytes m (addr + 1) n

/-- `MemWrite(addr, |v|, v)` (00_scope R7). -/
def Memory.writeBytes : Memory → Nat → List Byte → Memory
  | m, _, [] => m
  | m, addr, b :: bs => Memory.writeBytes (m.write addr b) (addr + 1) bs

/-- `MemWrite(base, |v|, v)` by the engine; a base register is never modified (20_memory R71). -/
def State.store (s : State) (base : Word) (v : List Byte) : State :=
  { s with mem := s.mem.writeBytes base.toNat v }

/-- `src = MemRead(SRC, SRC_LEN)` (20_memory R71). -/
def State.sourceBytes (s : State) : List Byte := s.mem.readBytes s.src.toNat s.srcLen.toNat

/-! ### The end of a command -/

/-- A number as a register word. Every use is of a number the rules have shown to fit
(40_arith_gf256 R120). -/
def toWord (n : Nat) : Word := BitVec.ofNat _ n

/-- `finish(len, aux)`: the end of a command without fault (10_state R33). -/
def State.finish (s : State) (len aux : Nat) : State :=
  { s with status := statusDone, resLen := toWord len, resAux := toWord aux, errInfo := 0 }

/-- `raise F(info) keeping RES_LEN = len, RES_AUX = aux` (60_exceptions R222): the end of a command
with a fault. This is all that taking a fault is: there is no program counter to save, no vector and
no mode (R220, R236). -/
def State.raiseKeeping (s : State) (f : FaultKind) (info len aux : Nat) : State :=
  { s with status := statusFault f.code, errInfo := toWord info,
           resLen := toWord len, resAux := toWord aux }

/-- `raise F(info)`: the results are zeroed (60_exceptions R222). -/
def State.raise (s : State) (f : FaultKind) (info : Nat) : State := s.raiseKeeping f info 0 0

/-- Command start (10_state R31). It is also what clears a recorded fault: there is no return
instruction (60_exceptions R237). The regions become the engine's (70_reset_and_hazards R264). -/
def State.startCommand (s : State) (w : Word) : State :=
  { s with pending := w, status := statusBusy, resLen := 0, resAux := 0, errInfo := 0,
           windows := s.windowOf w :: s.windows, broken := false }

/-! ### Unspecified values (93 U2) -/

/-- Every byte of the listed addresses takes a free value. -/
def State.freeBytes (s : State) : List Nat → State
  | [] => s
  | a :: as =>
    State.freeBytes { s with mem := s.mem.write a (Config.freeByte s.freeCount),
                             freeCount := s.freeCount + 1 } as

/-- Every byte of the regions, as far as memory reaches, takes a free value. -/
def State.freeRegions (s : State) (rs : List Region) : State :=
  s.freeBytes (rs.flatMap (Region.addresses s.cfg.memSize))

/-- STATUS of a command that ended in an unspecified way: DONE, and one of the endings 10_state R30
lists (70_reset_and_hazards R264: "it still ends with BUSY = 0 and DONE = 1"). -/
def statusEnded (k : Fin 10) : Word :=
  if k.val = 0 then statusDone else statusFault (BitVec.ofNat 8 k.val)

/-- RES_LEN, RES_AUX, ERR_INFO, ERR and ERRCODE take free values (70_reset_and_hazards R264). -/
def State.freeResults (s : State) : State :=
  { s with resLen := Config.freeWord s.freeCount,
           resAux := Config.freeWord (s.freeCount + 1),
           errInfo := Config.freeWord (s.freeCount + 2),
           status := statusEnded (Config.freeEnding (s.freeCount + 3)),
           freeCount := s.freeCount + 4 }

end Sys2Proof.Machine
end

