-- ==== Sys2Proof/Machine/Bound.lean ====
section
/-! DEFINITION. The CBOUND unit (42_cbound R160 to R162). -/

namespace Sys2Proof.Machine

/-- The default `CBOUND_FN` (42_cbound R161). -/
def cboundDeflate (n : Nat) : Nat := n + (n >>> 12) + (n >>> 14) + (n >>> 25) + 13

/-- `CBOUND_FN` of an instance (00_scope R4; log 5). Nothing is assumed of it: `CBoundSound` of 42_cbound
R160 is a premise where a claim needs it. -/
def cboundFn : CboundFn → Nat → Nat
  | .deflate, n => cboundDeflate n
  | .given e, n => e.eval n
  | .other k, n => Config.otherCbound k n

/-- CBOUND, for a bound function `Nat -> Nat` (42_cbound R161, R162). -/
def cboundWith (bound : Nat → Nat) (s : State) : Host.Outcome State Fault Refusal :=
  let b := bound s.srcLen.toNat
  if b > Config.maxWord then .next (s.raise .sizeOverflow 0) else .next (s.finish b 0)

/-- CBOUND (42_cbound R162). -/
def execCbound (s : State) : Host.Outcome State Fault Refusal := cboundWith (cboundFn s.cfg.cbound) s

end Sys2Proof.Machine
end

