-- ==== Sys2Proof/Machine/Escape.lean ====
section
/-! DEFINITION. The ESC unit: the byte-escape codec and its commands ECNT, ESC, UNESC
(44_escape R200 to R207). -/

namespace Sys2Proof.Machine

/-- A byte is reserved iff it equals `SYNC` or `ESCAPE` (44_escape R200). -/
def reserved (b : Byte) : Bool := decide (b = Config.sync) || decide (b = Config.escape)

/-- `EscCount` (44_escape R201). -/
def escCount (bytes : List Byte) : Nat := bytes.countP reserved

/-- `E`: what one byte becomes (44_escape R202). -/
def escapeByte (b : Byte) : List Byte :=
  if b = Config.sync then [Config.escape, Config.escapeSync]
  else if b = Config.escape then [Config.escape, Config.escape]
  else [b]

/-- `Escape` (44_escape R202). -/
def escapeBytes (bytes : List Byte) : List Byte := bytes.flatMap escapeByte

/-- What `Unescape` returns (44_escape R203). -/
inductive UnescapeResult where
  | ok (out : List Byte) (seqs : Nat)
  | malformed (i : Nat)
deriving DecidableEq, Repr

/-- The result with byte `b` in front and `k` more sequences counted. -/
def UnescapeResult.prepend (b : Byte) (k : Nat) : UnescapeResult → UnescapeResult
  | .ok out seqs => .ok (b :: out) (seqs + k)
  | .malformed i => .malformed i

/-- The scan of `Unescape` from source index `i` on (44_escape R203). -/
def unescapeFrom (i : Nat) : List Byte → UnescapeResult
  | [] => .ok [] 0
  | [b] => if b = Config.escape then .malformed i else .ok [b] 0
  | b :: b' :: rest =>
    if b = Config.escape then
      if b' = Config.escapeSync then (unescapeFrom (i + 2) rest).prepend Config.sync 1
      else if b' = Config.escape then (unescapeFrom (i + 2) rest).prepend Config.escape 1
      else .malformed i
    else (unescapeFrom (i + 1) (b' :: rest)).prepend b 0

/-- `Unescape` (44_escape R203). -/
def unescapeBytes (bytes : List Byte) : UnescapeResult := unescapeFrom 0 bytes

/-- ECNT (44_escape R205). -/
def execEcnt (s : State) : Host.Outcome State Fault Refusal :=
  match regionFault s.cfg.memSize [s.source] with
  | some f => .next (s.raise f.1 f.2)
  | none => .next (s.finish (escCount s.sourceBytes) 0)

/-- ESC (44_escape R206). -/
def execEsc (s : State) : Host.Outcome State Fault Refusal :=
  match regionFault s.cfg.memSize [s.source, s.destination] with
  | some f => .next (s.raise f.1 f.2)
  | none =>
    let cnt := escCount s.sourceBytes
    let need := s.srcLen.toNat + cnt
    if need > Config.maxWord then .next (s.raise .sizeOverflow 0)
    else if s.dstCap.toNat < need then .next (s.raise .dstOverflow need)
    else .next ((s.store s.dst (escapeBytes s.sourceBytes)).finish need cnt)

/-- UNESC (44_escape R207). -/
def execUnesc (s : State) : Host.Outcome State Fault Refusal :=
  match regionFault s.cfg.memSize [s.source, s.destination] with
  | some f => .next (s.raise f.1 f.2)
  | none =>
    match unescapeBytes s.sourceBytes with
    | .malformed i => .next (s.raise .malformedEscapeSequence i)
    | .ok out seqs =>
      if s.dstCap.toNat < out.length then .next (s.raise .dstOverflow out.length)
      else .next ((s.store s.dst out).finish out.length seqs)

end Sys2Proof.Machine
end

