-- ==== Sys2Proof/Machine/Gf.lean ====
section
/-! DEFINITION. GF(2^8) and the generator polynomial (40_arith_gf256 R122 to R130), for any
`PRIM_POLY`. -/

namespace Sys2Proof.Machine

/-- `gfadd` (40_arith_gf256 R123). -/
def gfadd (a b : Byte) : Byte := a ^^^ b

/-- The first loop of `gfmul`: the product of two polynomials over GF(2) (40_arith_gf256 R124). -/
def gfproduct (a b : Byte) : SymbolProduct :=
  (List.range Config.symbits).foldl
    (fun p i => if b.getLsbD i then p ^^^ (a.setWidth _ <<< i) else p) 0

/-- The second loop of `gfmul`: reduction modulo `PRIM_POLY`, from bit 14 down to bit 8; `i` counts
from bit `SYMBITS` on (40_arith_gf256 R124). -/
def gfreduce (poly : PrimPoly) (p : SymbolProduct) : SymbolProduct :=
  (List.range (Config.symbits - 1)).reverse.foldl
    (fun p i =>
      if p.getLsbD (i + Config.symbits) then p ^^^ (poly.setWidth _ <<< i)
      else p) p

/-- `gfmul` (40_arith_gf256 R124). -/
def gfmul (poly : PrimPoly) (a b : Byte) : Byte := (gfreduce poly (gfproduct a b)).setWidth _

/-- `n` successive values `x, x*ALPHA, x*ALPHA^2, ..` (40_arith_gf256 R125). -/
def gfpowers (poly : PrimPoly) : Nat → Byte → List Byte
  | 0, _ => []
  | n + 1, x => x :: gfpowers poly n (gfmul poly x Config.alpha)

/-- The table `EXP[0..254]` (40_arith_gf256 R125). -/
def gfexpTable (poly : PrimPoly) : List Byte := gfpowers poly Config.rsN 1

/-- `ALPHA^e = EXP[e mod 255]` (40_arith_gf256 R127). -/
def gfalphaPow (poly : PrimPoly) (e : Nat) : Byte := (gfexpTable poly).getD (e % Config.rsN) 0

/-- `LOG` (40_arith_gf256 R125); `LOG[0]` is a free value no rule uses (93 U8). -/
def gflog (poly : PrimPoly) (a : Byte) : Nat :=
  if a = 0 then Config.freeLogOfZero else (gfexpTable poly).idxOf a

/-- `gfinv` (40_arith_gf256 R126); `gfinv(0)` is a free value no rule uses (93 U8). -/
def gfinv (poly : PrimPoly) (a : Byte) : Byte :=
  if a = 0 then Config.freeInverseOfZero
  else gfalphaPow poly ((Config.rsN - gflog poly a) % Config.rsN)

/-- `gfpow` (40_arith_gf256 R127). -/
def gfpow (poly : PrimPoly) (a : Byte) (e : Nat) : Byte :=
  if e = 0 then 1 else if a = 0 then 0 else gfalphaPow poly ((gflog poly a * e) % Config.rsN)

/-- `PRIM_POLY` is primitive of degree 8: bits 8 and 0 set, and `ALPHA` has multiplicative order 255
under it (00_scope R4, 40_arith_gf256 R125). -/
def gfprimitive (poly : PrimPoly) : Bool :=
  poly.getLsbD Config.symbits && poly.getLsbD 0 && (gfexpTable poly).tail.all (fun x => decide (x ≠ 1)) &&
    decide (gfmul poly (gfalphaPow poly (Config.rsN - 1)) Config.alpha = 1)

/-- Horner evaluation of the polynomial whose coefficients are listed highest degree first
(40_arith_gf256 R128). -/
def polyEvalHigh (poly : PrimPoly) (coeffs : List Byte) (v : Byte) : Byte :=
  coeffs.foldl (fun acc c => gfadd (gfmul poly acc v) c) 0

/-- Evaluation of the polynomial whose coefficients are listed lowest degree first
(40_arith_gf256 R128). -/
def polyEval (poly : PrimPoly) (coeffs : List Byte) (v : Byte) : Byte :=
  polyEvalHigh poly coeffs.reverse v

/-- `(x + r) * p(x)`, coefficients lowest degree first. -/
def polyMulRoot (poly : PrimPoly) (r : Byte) (p : List Byte) : List Byte :=
  List.zipWith gfadd (0 :: p) (p.map (gfmul poly r) ++ [0])

/-- The exponents of the generator's roots, `GAP * (FCR + i)`, `i = 0 .. NROOTS-1`
(40_arith_gf256 R129; 43_fec R177). -/
def rootExponents : List Nat := (List.range Config.nroots).map fun i => Config.gap * (Config.fcr + i)

/-- The generator polynomial `g(x)`, coefficient list `G[0..32]`, lowest degree first
(40_arith_gf256 R129, R130). -/
def generator (poly : PrimPoly) : List Byte :=
  rootExponents.foldl (fun p e => polyMulRoot poly (gfalphaPow poly e) p) [1]

end Sys2Proof.Machine
end

