-- ==== Sys2Proof/Machine/Rs.lean ====
section
/-! DEFINITION. The Reed-Solomon code of the FEC unit: splitter, encoder, syndrome, decoder
(43_fec R170 to R183). -/

namespace Sys2Proof.Machine

/-- `ceil(n / 223)` (40_arith_gf256 R121). -/
def chunkCount (n : Nat) : Nat := (n + (Config.rsK - 1)) / Config.rsK

/-- `codedOutputSize(n)` (43_fec R171). -/
def codedSize (n : Nat) : Nat := chunkCount n * Config.rsN

/-- The first `K` bytes, zero-padded up to `K` (43_fec R170). -/
def padChunk (bytes : List Byte) : List Byte :=
  bytes.take Config.rsK ++ List.replicate (Config.rsK - (bytes.take Config.rsK).length) 0x00

/-- `k` chunks of the input, in order (43_fec R170). -/
def splitChunks : Nat → List Byte → List (List Byte)
  | 0, _ => []
  | k + 1, bytes => padChunk bytes :: splitChunks k (bytes.drop Config.rsK)

/-- `k` codewords of the input, in order (20_memory R65). -/
def splitCodewords : Nat → List Byte → List (List Byte)
  | 0, _ => []
  | k + 1, bytes => bytes.take Config.rsN :: splitCodewords k (bytes.drop Config.rsN)

/-- One step of the parity shift register: `gs` is `G[31], .., G[0]` (43_fec R174). -/
def parityStep (poly : PrimPoly) (gs par : List Byte) (d : Byte) : List Byte :=
  let fb := gfadd d (par.headD 0)
  List.zipWith (fun p g => gfadd p (gfmul poly fb g)) (par.tail ++ [0]) gs

/-- `G[31], G[30], .., G[0]`: the generator without its leading term, highest degree first. -/
def generatorTaps (poly : PrimPoly) : List Byte := ((generator poly).take Config.nroots).reverse

/-- The 32 parity bytes of a message, given the taps (43_fec R174). -/
def parityOf (poly : PrimPoly) (gs d : List Byte) : List Byte :=
  d.foldl (parityStep poly gs) (List.replicate Config.nroots 0)

/-- `RSEncode` (43_fec R173, as the shift register of R174). -/
def rsEncode (poly : PrimPoly) (d : List Byte) : List Byte :=
  d ++ parityOf poly (generatorTaps poly) d

/-- The FEC output for `n` input bytes (43_fec R170, R176). -/
def fecEncode (poly : PrimPoly) (src : List Byte) : List Byte :=
  ((splitChunks (chunkCount src.length) src).map (rsEncode poly)).flatten

/-- The syndrome `S_0 .. S_31` of a word (43_fec R177). -/
def syndrome (poly : PrimPoly) (r : List Byte) : List Byte :=
  rootExponents.map fun e => polyEvalHigh poly r (gfalphaPow poly e)

/-- Every byte is zero. -/
def allZero (bytes : List Byte) : Bool := bytes.all fun b => decide (b = 0)

/-! ### The decoder (43_fec R183) -/

/-- What `DecodeCW` returns (43_fec R180). -/
inductive DecodeResult where
  | corrected (cw : List Byte) (e : Nat)
  | uncorrectable
deriving DecidableEq, Repr

/-- The variables of the Berlekamp-Massey loop (43_fec R183 step 1). -/
structure BmState where
  cp : List Byte
  bp : List Byte
  len : Nat
  m : Nat
  b : Byte
deriving DecidableEq, Repr

/-- `Cp[0..32]`, `Bp[0..32]` at the start: the constant polynomial 1. -/
def bmOne : List Byte := 1 :: List.replicate Config.nroots 0

/-- The loop's starting values. -/
def bmInit : BmState := { cp := bmOne, bp := bmOne, len := 0, m := 1, b := 1 }

/-- The discrepancy `d` of iteration `n` (43_fec R183 step 1). -/
def bmDiscrepancy (poly : PrimPoly) (syn : List Byte) (st : BmState) (n : Nat) : Byte :=
  (List.range st.len).foldl
    (fun d j => gfadd d (gfmul poly (st.cp.getD (j + 1) 0) (syn.getD (n - (j + 1)) 0)))
    (syn.getD n 0)

/-- `Cp[i + m] = Cp[i + m] ^ gfmul(coef, Bp[i])` for `i = 0 .. 32 - m`. -/
def bmUpdate (poly : PrimPoly) (coef : Byte) (m : Nat) (cp bp : List Byte) : List Byte :=
  List.zipWith gfadd cp (List.replicate m 0 ++ bp.map (gfmul poly coef))

/-- Iteration `n` of the Berlekamp-Massey loop (43_fec R183 step 1). -/
def bmStep (poly : PrimPoly) (syn : List Byte) (st : BmState) (n : Nat) : BmState :=
  let d := bmDiscrepancy poly syn st n
  if d = 0 then { st with m := st.m + 1 }
  else
    let coef := gfmul poly d (gfinv poly st.b)
    let cp' := bmUpdate poly coef st.m st.cp st.bp
    if 2 * st.len ≤ n then
      { cp := cp', bp := st.cp, len := n + 1 - st.len, m := 1, b := d }
    else { st with cp := cp', m := st.m + 1 }

/-- The Berlekamp-Massey loop, `n = 0 .. 31`. -/
def bmRun (poly : PrimPoly) (syn : List Byte) : BmState :=
  (List.range Config.nroots).foldl (bmStep poly syn) bmInit

/-- `gfinv(X_i) = gfinv(ALPHA^(254 - i))`, the inverse locator of byte index `i` (43_fec R183). -/
def inverseLocator (poly : PrimPoly) (i : Nat) : Byte :=
  gfinv poly (gfalphaPow poly (Config.rsN - 1 - i))

/-- The error positions by Chien search (43_fec R183 step 2). -/
def chienPositions (poly : PrimPoly) (lam : List Byte) : List Nat :=
  (List.range Config.rsN).filter fun i => decide (polyEval poly lam (inverseLocator poly i) = 0)

/-- `Om[t]` for `t = 0 .. 31` (43_fec R183 step 3). -/
def errorEvaluator (poly : PrimPoly) (syn lam : List Byte) : List Byte :=
  (List.range Config.nroots).map fun t =>
    (List.range (min t (lam.length - 1) + 1)).foldl
      (fun acc j => gfadd acc (gfmul poly (syn.getD (t - j) 0) (lam.getD j 0))) 0

/-- The formal derivative `Lam'`: the sum over odd `k` of `Lam[k] x^(k-1)` (43_fec R183 step 3). -/
def derivative (lam : List Byte) : List Byte :=
  (List.range (lam.length - 1)).map fun k => if k % 2 = 0 then lam.getD (k + 1) 0 else 0

/-- The corrections of Forney's formula, position by position; `none` where the procedure returns
`Uncorrectable` (43_fec R183 step 3). -/
def forneyCorrect (poly : PrimPoly) (om lam' : List Byte) :
    List Nat → List Byte → Option (List Byte)
  | [], out => some out
  | i :: pos, out =>
    let xinv := inverseLocator poly i
    let num := polyEval poly om xinv
    let den := polyEval poly lam' xinv
    if den = 0 then none
    else
      let v := gfmul poly num (gfinv poly den)
      if v = 0 then none
      else forneyCorrect poly om lam' pos (out.set i (gfadd (out.getD i 0) v))

/-- The reference procedure for `DecodeCW` (43_fec R183). The normative statement of what it returns
is R180 (log 15). -/
def decodeCW (poly : PrimPoly) (r : List Byte) : DecodeResult :=
  let syn := syndrome poly r
  if allZero syn then .corrected r 0
  else
    let bm := bmRun poly syn
    if bm.len > Config.rsT ∨ bm.cp.getD bm.len 0 = 0 then .uncorrectable
    else
      let lam := bm.cp.take (bm.len + 1)
      let pos := chienPositions poly lam
      if pos.length ≠ bm.len then .uncorrectable
      else
        match forneyCorrect poly (errorEvaluator poly syn lam) (derivative lam) pos r with
        | none => .uncorrectable
        | some out =>
          if allZero (syndrome poly out) then .corrected out bm.len else .uncorrectable

/-! ### A whole source region -/

/-- The variables of the loop of FDEC (43_fec R184). -/
structure FdecRun where
  out : List Byte
  report : List Byte
  total : Nat
  firstBad : Option Nat
deriving DecidableEq, Repr

/-- One codeword of the loop of FDEC; `c` is its index (43_fec R184, R185). -/
def fdecStep (poly : PrimPoly) (run : FdecRun) (c : Nat) (r : List Byte) : FdecRun :=
  match decodeCW poly r with
  | .corrected cw e =>
    { run with out := run.out ++ cw.take Config.rsK,
               report := run.report ++ [BitVec.ofNat _ e], total := run.total + e }
  | .uncorrectable =>
    { run with out := run.out ++ r.take Config.rsK, report := run.report ++ [Config.uncorrMark],
               firstBad := match run.firstBad with
                 | none => some c
                 | some b => some b }

/-- The loop of FDEC over the codewords from index `c` on (43_fec R184). -/
def fdecLoop (poly : PrimPoly) : FdecRun → Nat → List (List Byte) → FdecRun
  | run, _, [] => run
  | run, c, r :: rs => fdecLoop poly (fdecStep poly run c r) (c + 1) rs

/-- FDEC's loop over a source region of `k` codewords (43_fec R184). -/
def fdecAll (poly : PrimPoly) (k : Nat) (src : List Byte) : FdecRun :=
  fdecLoop poly { out := [], report := [], total := 0, firstBad := none } 0 (splitCodewords k src)

/-- The syndrome blocks of a source region of `k` codewords (43_fec R178). -/
def fsynAll (poly : PrimPoly) (k : Nat) (src : List Byte) : List (List Byte) :=
  (splitCodewords k src).map (syndrome poly)

end Sys2Proof.Machine
end

