-- ==== Sys2Proof/Machine/Fec.lean ====
section
/-! DEFINITION. The commands of the FEC unit: FSIZE, FENC, FSYN, FDEC (43_fec R175, R176, R178,
R184). -/

namespace Sys2Proof.Machine

/-- FSIZE (43_fec R175). -/
def execFsize (s : State) : Host.Outcome State Fault Refusal :=
  let k := chunkCount s.srcLen.toNat
  if Config.rsN * k > Config.maxWord then .next (s.raise .sizeOverflow 0)
  else .next (s.finish (Config.rsN * k) k)

/-- FENC (43_fec R176). -/
def execFenc (s : State) : Host.Outcome State Fault Refusal :=
  let k := chunkCount s.srcLen.toNat
  match regionFault s.cfg.memSize [s.source, s.destination] with
  | some f => .next (s.raise f.1 f.2)
  | none =>
    if Config.rsN * k > Config.maxWord then .next (s.raise .sizeOverflow 0)
    else if s.dstCap.toNat < Config.rsN * k then .next (s.raise .dstOverflow (Config.rsN * k))
    else
      .next ((s.store s.dst (fecEncode s.cfg.primPoly s.sourceBytes)).finish (Config.rsN * k) k)

/-- FSYN (43_fec R178). -/
def execFsyn (s : State) : Host.Outcome State Fault Refusal :=
  let k := s.srcLen.toNat / Config.rsN
  if s.srcLen.toNat % Config.rsN ≠ 0 then
    .next (s.raise .badLength (s.srcLen.toNat % Config.rsN))
  else
    match regionFault s.cfg.memSize [s.source, s.destination] with
    | some f => .next (s.raise f.1 f.2)
    | none =>
      if s.dstCap.toNat < Config.synBytes * k then
        .next (s.raise .dstOverflow (Config.synBytes * k))
      else
        let blocks := fsynAll s.cfg.primPoly k s.sourceBytes
        .next ((s.store s.dst blocks.flatten).finish (Config.synBytes * k)
          (blocks.countP fun b => !allZero b))

/-- FDEC (43_fec R184). -/
def execFdec (s : State) : Host.Outcome State Fault Refusal :=
  let k := s.srcLen.toNat / Config.rsN
  if s.srcLen.toNat % Config.rsN ≠ 0 then
    .next (s.raise .badLength (s.srcLen.toNat % Config.rsN))
  else
    match regionFault s.cfg.memSize [s.source, s.destination, s.report] with
    | some f => .next (s.raise f.1 f.2)
    | none =>
      if s.dstCap.toNat < Config.rsK * k then .next (s.raise .dstOverflow (Config.rsK * k))
      else if s.auxCap.toNat < k then .next (s.raise .auxOverflow k)
      else
        let run := fdecAll s.cfg.primPoly k s.sourceBytes
        let stored := (s.store s.dst run.out).store s.aux run.report
        match run.firstBad with
        | none => .next (stored.finish (Config.rsK * k) run.total)
        | some c => .next (stored.raiseKeeping .uncorrectableChunk c (Config.rsK * k) run.total)

end Sys2Proof.Machine
end

