-- ==== Sys2Proof/Machine/Digest.lean ====
section
/-! DEFINITION. `DIGEST_FN` (41_hash R150 to R153): MD5 by default, on 32-bit words
(40_arith_gf256 R131). -/

namespace Sys2Proof.Machine

/-- The number of zero bytes that make `|m| + 1 + |z|` congruent to 56 mod 64 (41_hash R150). -/
def md5ZeroCount (len : Nat) : Nat := (119 - len % 64) % 64

/-- The `n` low bytes of `v`, least significant first. -/
def leBytes : Nat → Nat → List Byte
  | 0, _ => []
  | n + 1, v => BitVec.ofNat _ v :: leBytes n (v / 2 ^ Config.symbits)

/-- The padded message (41_hash R150). -/
def md5Pad (m : List Byte) : List Byte :=
  m ++ [0x80] ++ List.replicate (md5ZeroCount m.length) 0x00 ++
    leBytes 8 ((8 * m.length) % 2 ^ 64)

/-- The chaining words, and the working words `(a, b, c, d)` of a block. -/
structure Md5State where
  a : Word
  b : Word
  c : Word
  d : Word
deriving DecidableEq, Repr

/-- `A0, B0, C0, D0` (41_hash R151). -/
def md5Init : Md5State :=
  { a := 0x67452301, b := 0xEFCDAB89, c := 0x98BADCFE, d := 0x10325476 }

/-- The four rotation amounts of each group of 16 steps (41_hash R151). -/
def md5Shifts : List (List Nat) :=
  [[7, 12, 17, 22], [5, 9, 14, 20], [4, 11, 16, 23], [6, 10, 15, 21]]

/-- `SH[i]`: depends on `floor(i/16)` and `i mod 4` (41_hash R151). -/
def md5Shift (i : Nat) : Nat := (md5Shifts.getD (i / 16) []).getD (i % 4) 0

/-- `KT[0..63]` (41_hash R151: the table is normative). -/
def md5Table : List Word :=
  [0xD76AA478, 0xE8C7B756, 0x242070DB, 0xC1BDCEEE,
   0xF57C0FAF, 0x4787C62A, 0xA8304613, 0xFD469501,
   0x698098D8, 0x8B44F7AF, 0xFFFF5BB1, 0x895CD7BE,
   0x6B901122, 0xFD987193, 0xA679438E, 0x49B40821] ++
  [0xF61E2562, 0xC040B340, 0x265E5A51, 0xE9B6C7AA,
   0xD62F105D, 0x02441453, 0xD8A1E681, 0xE7D3FBC8,
   0x21E1CDE6, 0xC33707D6, 0xF4D50D87, 0x455A14ED,
   0xA9E3E905, 0xFCEFA3F8, 0x676F02D9, 0x8D2A4C8A] ++
  [0xFFFA3942, 0x8771F681, 0x6D9D6122, 0xFDE5380C,
   0xA4BEEA44, 0x4BDECFA9, 0xF6BB4B60, 0xBEBFBC70,
   0x289B7EC6, 0xEAA127FA, 0xD4EF3085, 0x04881D05,
   0xD9D4D039, 0xE6DB99E5, 0x1FA27CF8, 0xC4AC5665] ++
  [0xF4292244, 0x432AFF97, 0xAB9423A7, 0xFC93A039,
   0x655B59C3, 0x8F0CCC92, 0xFFEFF47D, 0x85845DD1,
   0x6FA87E4F, 0xFE2CE6E0, 0xA3014314, 0x4E0811A1,
   0xF7537E82, 0xBD3AF235, 0x2AD7D2BB, 0xEB86D391]

/-- `rotl32` (00_scope R6). -/
def rotl32 (w : Word) (s : Nat) : Word := (w <<< s) ||| (w >>> (Config.xlen - s))

/-- The function `f` of step `i` (41_hash R152). -/
def md5F (i : Nat) (b c d : Word) : Word :=
  if i < 16 then (b &&& c) ||| (~~~b &&& d)
  else if i < 32 then (d &&& b) ||| (~~~d &&& c)
  else if i < 48 then b ^^^ c ^^^ d
  else c ^^^ (b ||| ~~~d)

/-- The message-word index `gi` of step `i` (41_hash R152). -/
def md5G (i : Nat) : Nat :=
  if i < 16 then i
  else if i < 32 then (5 * i + 1) % 16
  else if i < 48 then (3 * i + 5) % 16
  else (7 * i) % 16

/-- Step `i` of a block with message words `ms` (41_hash R152). -/
def md5Step (ms : List Word) (st : Md5State) (i : Nat) : Md5State :=
  { a := st.d,
    b := st.b + rotl32 (st.a + md5F i st.b st.c st.d + md5Table.getD i 0 + ms.getD (md5G i) 0)
           (md5Shift i),
    c := st.b,
    d := st.c }

/-- The word made of four bytes, least significant first (41_hash R152). -/
def leWord (b0 b1 b2 b3 : Byte) : Word := b3 ++ b2 ++ b1 ++ b0

/-- The words `M[j]` of a block (41_hash R152). -/
def md5Words : List Byte → List Word
  | b0 :: b1 :: b2 :: b3 :: rest => leWord b0 b1 b2 b3 :: md5Words rest
  | _ => []

/-- One 64-byte block (41_hash R152). -/
def md5Block (st : Md5State) (block : List Byte) : Md5State :=
  let r := (List.range 64).foldl (md5Step (md5Words block)) st
  { a := st.a + r.a, b := st.b + r.b, c := st.c + r.c, d := st.d + r.d }

/-- `n` blocks, in order. -/
def md5Blocks : Nat → Md5State → List Byte → Md5State
  | 0, st, _ => st
  | n + 1, st, p => md5Blocks n (md5Block st (p.take 64)) (p.drop 64)

/-- MD5 (41_hash R150 to R153). -/
def md5 (m : List Byte) : List Byte :=
  let p := md5Pad m
  let st := md5Blocks (p.length / 64) md5Init p
  leBytes 4 st.a.toNat ++ leBytes 4 st.b.toNat ++ leBytes 4 st.c.toNat ++ leBytes 4 st.d.toNat

/-- `DIGEST_FN` of an instance (00_scope R4; log 5). -/
def digestFn : DigestFn → List Byte → List Byte
  | .md5, m => md5 m
  | .given digests k, m => ((digests.lookup m).getD (Config.otherDigest k m)).toList
  | .other k, m => (Config.otherDigest k m).toList

end Sys2Proof.Machine
end

