-- ==== Sys2Proof/Machine/Hash.lean ====
section
/-! DEFINITION. The HASH unit (41_hash R154). -/

namespace Sys2Proof.Machine

/-- HASH, for a digest function (41_hash R154). -/
def hashWith (digest : List Byte → List Byte) (s : State) : Host.Outcome State Fault Refusal :=
  match regionFault s.cfg.memSize [s.source, s.destination] with
  | some f => .next (s.raise f.1 f.2)
  | none =>
    if s.dstCap.toNat < Config.digestBytes then .next (s.raise .dstOverflow Config.digestBytes)
    else .next ((s.store s.dst (digest s.sourceBytes)).finish Config.digestBytes 0)

/-- HASH (41_hash R154). -/
def execHash (s : State) : Host.Outcome State Fault Refusal := hashWith (digestFn s.cfg.digest) s

end Sys2Proof.Machine
end

