-- ==== Sys2Proof/Machine/Dispatch.lean ====
section
/-! DEFINITION. The meaning of each command: what its completion step does (10_state R32). -/

namespace Sys2Proof.Machine

def exec (i : Instr) (s : State) : Host.Outcome State Fault Refusal :=
  match i with
  | .hash => Sys2Proof.Machine.execHash s
  | .cbound => Sys2Proof.Machine.execCbound s
  | .fsize => Sys2Proof.Machine.execFsize s
  | .fenc => Sys2Proof.Machine.execFenc s
  | .fsyn => Sys2Proof.Machine.execFsyn s
  | .fdec => Sys2Proof.Machine.execFdec s
  | .ecnt => Sys2Proof.Machine.execEcnt s
  | .esc => Sys2Proof.Machine.execEsc s
  | .unesc => Sys2Proof.Machine.execUnesc s

end Sys2Proof.Machine
end

