-- ==== Sys2Proof/Machine/Engine.lean ====
section
/-! DEFINITION. The engine's completion step (10_state R32). -/

namespace Sys2Proof.Machine

/-- The end of a command whose regions the host wrote while it ran: every byte of its destination
and report regions and all it reports are unspecified, but it ends (70_reset_and_hazards R264,
93 U2; log 7). -/
def State.endUnspecified (s : State) : State :=
  { ((s.freeRegions (s.windows.head?.toList.flatMap Window.outputs)).freeResults) with
    broken := false }

/-- The completion step of the command PENDING (10_state R32): the command's own rule, or
IllegalCommand for an illegal word (30_encoding R91, 60_exceptions R223). -/
def State.complete (s : State) : Host.Outcome State Fault Refusal :=
  if s.broken then .next s.endUnspecified
  else
    match decode s.pending with
    | .ok i => exec i s
    | .error _ => .next (s.raise .illegalCommand s.pending.toNat)

/-- The engine's turn: its one enabled step while BUSY = 1, and nothing otherwise (10_state R32;
log 2). -/
def State.engineTurn (s : State) : Host.Outcome State Fault Refusal :=
  if s.busy then s.complete else .next s

end Sys2Proof.Machine
end

