-- ==== Sys2Proof/Machine/HostPort.lean ====
section
/-! DEFINITION. The host's transactions (30_encoding R97): register accesses (10_state R23 to R25),
memory accesses with the busy window (70_reset_and_hazards R264), and reset (R260, R261). -/

namespace Sys2Proof.Machine

/-! ### Registers -/

/-- `HostWrite(off, v)`: ignored while BUSY (10_state R25); otherwise a command start at CMD, an
operand register, or nothing (R24). -/
def State.hostWrite (s : State) (off : Nat) (v : Word) : State :=
  if s.busy then s
  else if off = 0x00 then s.startCommand v
  else s.writeOperand off v

/-- A host read of STATUS that returns DONE = 1 closes the busy windows (70_reset_and_hazards
R264). -/
def State.acknowledge (s : State) (off : Nat) : State :=
  if off = 0x04 ∧ s.done = true then { s with windows := [] } else s

/-- `HostRead(off)`: no side effect on the block (10_state R23). -/
def State.hostRead (s : State) (off : Nat) : State :=
  { s.acknowledge off with lastRead := some (.register off (s.readRegister off)) }

/-! ### Memory -/

/-- The address lies in one of the window's regions. -/
def Window.touches (w : Window) (a : Nat) : Bool := (w.source ++ w.outputs).any (·.has a)

/-- The address lies in a destination or report region of the window. -/
def Window.outputs_has (w : Window) (a : Nat) : Bool := w.outputs.any (·.has a)

/-- The host has written address `a` inside a busy window (70_reset_and_hazards R264, 93 U2; log 7):
the output bytes of every command concerned are unspecified, and so is what the newest one reports,
now if it has ended and at its end if it still runs. -/
def State.breakWindows (s : State) (a : Nat) : State :=
  let hit := s.windows.filter (·.touches a)
  let freed := s.freeRegions (hit.flatMap Window.outputs)
  match s.windows with
  | [] => s
  | w :: _ =>
    if w.touches a then
      if s.busy then { freed with broken := true } else freed.freeResults
    else freed

/-- Host memory write (30_encoding R97). -/
def State.hostMemWrite (s : State) (a : Nat) (b : Byte) : Host.Outcome State Fault Refusal :=
  if a < s.cfg.memSize then
    .next (State.breakWindows { s with mem := s.mem.write a b } a)
  else .fault (.noSuchAddress a)

/-- Host memory read (30_encoding R97); inside the output of a busy window it returns an unspecified
byte (70_reset_and_hazards R264). -/
def State.hostMemRead (s : State) (a : Nat) : Host.Outcome State Fault Refusal :=
  if a < s.cfg.memSize then
    if s.windows.any (·.outputs_has a) then
      .next { s with lastRead := some (.byte a (Config.freeByte s.freeCount)),
                     freeCount := s.freeCount + 1 }
    else .next { s with lastRead := some (.byte a (s.mem.read a)) }
  else .fault (.noSuchAddress a)

/-! ### Reset -/

/-- The registers take their reset values (70_reset_and_hazards R260). -/
def State.resetRegisters (s : State) : State :=
  { s with status := 0, src := 0, srcLen := 0, dst := 0, dstCap := 0, aux := 0, auxCap := 0,
           resLen := 0, resAux := 0, errInfo := 0, pending := 0, windows := [], broken := false }

/-- The reset transaction (70_reset_and_hazards R260). Reset during a command abandons it and leaves
its destination and report regions unspecified (R261, 93 U2; log 8). -/
def State.hostReset (s : State) : State :=
  if s.busy then
    (s.freeRegions (s.windows.head?.toList.flatMap Window.outputs)).resetRegisters
  else s.resetRegisters

/-! ### All six -/

/-- The effect of one transaction (30_encoding R97). -/
def State.perform (s : State) : Transaction → Host.Outcome State Fault Refusal
  | .hostWrite off v =>
    if registerOffset off then .next (s.hostWrite off v) else .refused (.badRegisterOffset off)
  | .hostRead off =>
    if registerOffset off then .next (s.hostRead off) else .refused (.badRegisterOffset off)
  | .memWrite a b => s.hostMemWrite a b
  | .memRead a => s.hostMemRead a
  | .reset => .next s.hostReset
  | .completion => s.engineTurn

/-- The transaction at the head of the script has been taken. -/
def State.takeScript (s : State) (rest : List Transaction) : State := { s with script := rest }

end Sys2Proof.Machine
end

