-- ==== Sys2Proof/Machine/Step.lean ====
section
/-! DEFINITION. One step of the system of host and engine (20_memory R72): the next transaction of
the script, or the engine's turn when the host does nothing more. -/

namespace Sys2Proof.Machine

/-- One step. With nothing left in the script the host is silent, and the engine's turn comes
(10_state R32: "the host cannot disable it"). -/
def step (s : State) : Host.Outcome State Fault Refusal :=
  match s.script with
  | [] => s.engineTurn
  | t :: rest => (s.takeScript rest).perform t

/-- `s` with the command word latched as a write to CMD latches it (10_state R31) and the engine's
turn next, so that the very next step runs it (log 1). -/
def State.withFetchWord (s : State) (nbits w : Nat) : State :=
  (s.startCommand (commandWord nbits w)).takeScript (.completion :: s.script)

end Sys2Proof.Machine
end

