-- ==== Sys2Proof/Machine/Script.lean ====
section
/-! DEFINITION. The script notation of 30_encoding R98 and what each statement stands for, as
transactions. -/

namespace Sys2Proof.Machine

/-- The named registers (10_state R22). -/
inductive RegName where
  | cmd | status | src | srcLen | dst | dstCap | aux | auxCap | resLen | resAux | errInfo
deriving DecidableEq, Repr

/-- The offset of a register (10_state R22). -/
def RegName.offset : RegName → Nat
  | .cmd => 0x00
  | .status => 0x04
  | .src => 0x08
  | .srcLen => 0x0C
  | .dst => 0x10
  | .dstCap => 0x14
  | .aux => 0x18
  | .auxCap => 0x1C
  | .resLen => 0x20
  | .resAux => 0x24
  | .errInfo => 0x28

/-- A statement of a host script (30_encoding R98). -/
inductive Stmt where
  /-- `WR reg, value`. -/
  | wr (r : RegName) (v : Word)
  /-- `RD reg`. -/
  | rd (r : RegName)
  /-- `MEMW addr, b0 b1 ..`. -/
  | memw (addr : Nat) (bytes : List Byte)
  /-- `MEMR addr, n`. -/
  | memr (addr n : Nat)
  /-- `GO mnemonic`. -/
  | go (i : Instr)
  /-- `WAIT`. -/
  | wait
  /-- `RUN mnemonic src, len, dst, cap`. -/
  | run (i : Instr) (src len dst cap : Word)
  /-- `RUN mnemonic src, len, dst, cap, aux, auxcap`. -/
  | runAux (i : Instr) (src len dst cap aux auxCap : Word)
  /-- `RESET`. -/
  | reset
deriving DecidableEq, Repr

/-- Byte writes to successive addresses. -/
def memwTransactions : Nat → List Byte → List Transaction
  | _, [] => []
  | a, b :: bs => .memWrite a b :: memwTransactions (a + 1) bs

/-- `WAIT`: the engine's completion and then the read of STATUS that returns DONE = 1. The earlier
reads of the loop return BUSY and change nothing (10_state R23), so they are left out (log 17). -/
def waitTransactions : List Transaction := [.completion, .hostRead RegName.status.offset]

/-- The four operand writes of `RUN`. -/
def operandTransactions (src len dst cap : Word) : List Transaction :=
  [.hostWrite RegName.src.offset src, .hostWrite RegName.srcLen.offset len,
   .hostWrite RegName.dst.offset dst, .hostWrite RegName.dstCap.offset cap]

/-- `GO mnemonic`: `HostWrite(0x00, match)` (30_encoding R98). -/
def goTransactions (i : Instr) : List Transaction := [.hostWrite RegName.cmd.offset (encode i)]

/-- The transactions a statement stands for (30_encoding R98). -/
def Stmt.transactions : Stmt → List Transaction
  | .wr r v => [.hostWrite r.offset v]
  | .rd r => [.hostRead r.offset]
  | .memw addr bytes => memwTransactions addr bytes
  | .memr addr n => (List.range n).map fun i => .memRead (addr + i)
  | .go i => goTransactions i
  | .wait => waitTransactions
  | .run i src len dst cap =>
    operandTransactions src len dst cap ++ goTransactions i ++ waitTransactions
  | .runAux i src len dst cap aux auxCap =>
    operandTransactions src len dst cap ++
      [.hostWrite RegName.aux.offset aux, .hostWrite RegName.auxCap.offset auxCap] ++
      goTransactions i ++ waitTransactions
  | .reset => [.reset]

/-- The transactions of a script, in order. -/
def scriptTransactions (stmts : List Stmt) : List Transaction := stmts.flatMap Stmt.transactions

end Sys2Proof.Machine
end

