-- ==== Sys2Proof/Machine/EndOfRun.lean ====
section
/-! DEFINITION. The end of a run of a host script (70_reset_and_hazards R269): what a run has shown,
when it has ended normally, when it has gone wrong, and which state is compared with an expected end
state. All of it is kept outside the machine's state (10_state R35). -/

namespace Sys2Proof.Machine

/-- What the steps of a run have shown. -/
structure RunRecord where
  /-- STATUS as each command ended, in the order they ended. -/
  endings : List Word
  /-- The host has broken the rule of the busy window (70_reset_and_hazards R264). -/
  breached : Bool
  /-- The destination and report regions of the commands started: the bytes of `Mem` they were
  allowed to write (10_state R36; log 25). -/
  writable : List Region
deriving DecidableEq, Repr

/-- Nothing seen yet. -/
def RunRecord.empty : RunRecord := { endings := [], breached := false, writable := [] }

/-- The transaction is one the host must not make now: a write to a region of a busy window, or a read
of a byte of its destination or report region (70_reset_and_hazards R264). -/
def State.breaches (s : State) : Transaction → Bool
  | .hostWrite _ _ => false
  | .hostRead _ => false
  | .memWrite a _ => s.windows.any (·.touches a)
  | .memRead a => s.windows.any (·.outputs_has a)
  | .reset => false
  | .completion => false

/-- The step from `s` to `t` as one more step of the run: an end of a command is BUSY falling with
DONE set, a start is BUSY rising. -/
def RunRecord.note (r : RunRecord) (s t : State) : RunRecord :=
  { endings := if s.busy && t.done then r.endings ++ [t.status] else r.endings,
    breached := r.breached || s.script.head?.any s.breaches,
    writable :=
      if !s.busy && t.busy then r.writable ++ t.windows.head?.toList.flatMap Window.outputs
      else r.writable }

/-- `k` steps, with the record of what they show. -/
def runRecorded : Nat → State → RunRecord → Host.Outcome (State × RunRecord) Fault Refusal
  | 0, s, r => .next (s, r)
  | k + 1, s, r =>
    match step s with
    | .next t => runRecorded k t (r.note s t)
    | .fault f => .fault f
    | .refused f => .refused f

/-- The whole script, and the engine's turn for a command that still runs at its end. -/
def State.runScript (s : State) : Host.Outcome (State × RunRecord) Fault Refusal :=
  runRecorded (s.script.length + 1) s RunRecord.empty

/-- The script has ended normally: its last statement has been performed and BUSY = 0. -/
def State.endedNormally (s : State) : Bool := s.script.isEmpty && !s.busy

/-- The last ended command ended with a fault (10_state R30). -/
def State.endedInFault (s : State) : Bool := s.done && s.err

/-- The script has gone wrong: one of its commands ended with STATUS.ERR = 1 that the script did not
expect, or it broke the rule of the busy window. `expected` lists the commands, counted from 0 in the
order they end, that the script expects to end so. -/
def RunRecord.goneWrong (r : RunRecord) (expected : List Nat) : Bool :=
  r.breached ||
    r.endings.zipIdx.any fun e => e.1.getLsbD 2 && !decide (e.2 ∈ expected)

/-- The offsets of the eleven registers (10_state R22). -/
def registerOffsets : List Nat :=
  [0x00, 0x04, 0x08, 0x0C, 0x10, 0x14, 0x18, 0x1C, 0x20, 0x24, 0x28]

/-- Two end states agree in what is compared: the eleven registers, and the bytes of `Mem` that the
script's commands were allowed to write. -/
def State.sameEnd (writable : List Region) (s e : State) : Bool :=
  registerOffsets.all (fun off => decide (s.readRegister off = e.readRegister off)) &&
    (writable.flatMap (Region.addresses s.cfg.memSize)).all
      fun a => decide (s.mem.read a = e.mem.read a)

/-- The script of `s` ends normally, has not gone wrong, and its end state is the expected one. -/
def State.endsAsExpected (s e : State) (expected : List Nat) : Bool :=
  match s.runScript with
  | .next (t, r) => t.endedNormally && !r.goneWrong expected && t.sameEnd r.writable e
  | .fault _ => false
  | .refused _ => false

end Sys2Proof.Machine
end

