-- ==== Sys2Proof/WellFormed.lean ====
section
/-! DEFINITION. The checks on terms: command words (30_encoding R90, R93), host transactions
(10_state R25, R36), and configurations (00_scope R4). -/

namespace Sys2Proof

/-- A command of the table is always well-formed: it has no operand field (30_encoding R90, R94). -/
def Instr.wellFormed : Instr → Bool
  | .hash => true
  | .cbound => true
  | .fsize => true
  | .fenc => true
  | .fsyn => true
  | .fdec => true
  | .ecnt => true
  | .esc => true
  | .unesc => true

/-- A command word is legal: field ZERO is 0 and OPCODE is a row of the table (30_encoding R93). -/
def wordWellFormed (w : Word) : Bool :=
  decide (zeroField w = 0) &&
    [0x01, 0x02, 0x10, 0x11, 0x12, 0x13, 0x20, 0x21, 0x22].any fun op => decide (opcodeField w = op)

/-- The transaction has a meaning: a register offset that is a multiple of 4 in `0x000 .. 0xFFF`
(10_state R25), an address of `Mem` (10_state R36). -/
def Machine.Transaction.wellFormed (memSize : Nat) : Machine.Transaction → Bool
  | .hostWrite off _ => Machine.registerOffset off
  | .hostRead off => Machine.registerOffset off
  | .memWrite a _ => decide (a < memSize)
  | .memRead a => decide (a < memSize)
  | .reset => true
  | .completion => true

/-- `1 ≤ MEM_SIZE ≤ 2^32` (00_scope R4). -/
def Config.memSizeLegal (c : Config) : Bool := decide (1 ≤ c.memSize) && decide (c.memSize ≤ 2 ^ Config.xlen)

/-- The configuration's open parameters are legal: `MEM_SIZE` in its range and `PRIM_POLY` primitive
of degree 8 (00_scope R4). -/
def Config.wellFormed (c : Config) : Bool := c.memSizeLegal && Machine.gfprimitive c.primPoly

/-- The constraints 00_scope R4 puts on the fixed constants. -/
def Config.constantsWellFormed (n k nroots t symbits : Nat) (sync escape escapeSync : Byte) : Bool :=
  decide (n = k + nroots) && decide (n = 2 ^ symbits - 1) && decide (2 * t = nroots) &&
    decide (sync ≠ escape) && decide (sync ≠ escapeSync) && decide (escape ≠ escapeSync)

end Sys2Proof
end

