-- ==== Sys2Proof/Safety.lean ====
section
/-! DEFINITION. The terms statements are made in: how a command ends and what it leaves unchanged,
the invariant of the machine, the code and its distance, and what the script notation's RUN performs.
When a run has ended normally or gone wrong is in Machine/EndOfRun. Written from the rules, not from the machine's own operations. -/

namespace Sys2Proof.Machine

/-! ### How a command ends -/

/-- Everything but STATUS, the result registers, ERR_INFO and `Mem` is as it was (10_state R26,
60_exceptions R236). -/
structure KeepsRest (s t : State) : Prop where
  src : t.src = s.src
  srcLen : t.srcLen = s.srcLen
  dst : t.dst = s.dst
  dstCap : t.dstCap = s.dstCap
  aux : t.aux = s.aux
  auxCap : t.auxCap = s.auxCap
  pending : t.pending = s.pending
  cfg : t.cfg = s.cfg
  script : t.script = s.script
  lastRead : t.lastRead = s.lastRead
  windows : t.windows = s.windows
  broken : t.broken = s.broken
  freeCount : t.freeCount = s.freeCount

/-- The command ended by `finish(len, aux)` (10_state R33); `len` and `aux` fit a word. -/
structure EndedNormally (s t : State) (len aux : Nat) : Prop where
  status : t.status = 0x00000002
  resLen : t.resLen.toNat = len
  resAux : t.resAux.toNat = aux
  errInfo : t.errInfo = 0
  rest : KeepsRest s t

/-- The command ended by `raise F(info)` with `code(F) = code` (60_exceptions R222): nothing was
written and the results are 0; `info` fits a word. -/
structure EndedFaulting (s t : State) (code info : Nat) : Prop where
  status : t.status.toNat = 0x00000006 + 0x100 * code
  errInfo : t.errInfo.toNat = info
  resLen : t.resLen = 0
  resAux : t.resAux = 0
  mem : t.mem = s.mem
  rest : KeepsRest s t

/-- The command ended by `raise UncorrectableChunk(info) keeping RES_LEN = len, RES_AUX = aux`
(60_exceptions R222, R231). -/
structure EndedUncorrectable (s t : State) (info len aux : Nat) : Prop where
  status : t.status = 0x00000706
  errInfo : t.errInfo.toNat = info
  resLen : t.resLen.toNat = len
  resAux : t.resAux.toNat = aux
  rest : KeepsRest s t

/-- `Mem` holds the bytes `out` at `base, base+1, ..` and every other byte is as it was
(00_scope R7 `MemWrite`; 20_memory R70). -/
def Stored (s t : State) (base : Nat) (out : List Byte) : Prop :=
  (∀ i, i < out.length → t.mem.read (base + i) = out.getD i 0) ∧
    ∀ a, a < base ∨ base + out.length ≤ a → t.mem.read a = s.mem.read a

/-- As `Stored`, for the two `MemWrite`s of FDEC (43_fec R184). -/
def StoredTwice (s t : State) (base1 : Nat) (out1 : List Byte) (base2 : Nat) (out2 : List Byte) :
    Prop :=
  (∀ i, i < out1.length → t.mem.read (base1 + i) = out1.getD i 0) ∧
    (∀ i, i < out2.length → t.mem.read (base2 + i) = out2.getD i 0) ∧
    ∀ a, (a < base1 ∨ base1 + out1.length ≤ a) → (a < base2 ∨ base2 + out2.length ≤ a) →
      t.mem.read a = s.mem.read a

/-! ### Regions (20_memory R68, R69) -/

/-- `len = 0` or `base + len ≤ MEM_SIZE`. -/
abbrev InRange (s : State) (r : Region) : Prop :=
  r.len.toNat = 0 ∨ r.base.toNat + r.len.toNat ≤ s.cfg.memSize

/-- `l1 > 0` and `l2 > 0` and `b1 < b2 + l2` and `b2 < b1 + l1`. -/
abbrev Overlapping (r1 r2 : Region) : Prop :=
  0 < r1.len.toNat ∧ 0 < r2.len.toNat ∧ r1.base.toNat < r2.base.toNat + r2.len.toNat ∧
    r2.base.toNat < r1.base.toNat + r1.len.toNat

/-- Address `a` is one of the first `n` of the region at `base`. -/
abbrev Within (base : Word) (n a : Nat) : Prop := base.toNat ≤ a ∧ a < base.toNat + n

/-- A command with a source and a destination region passes the checks of 60_exceptions R226 and
R227. -/
abbrev PairPasses (s : State) : Prop :=
  InRange s s.source ∧ InRange s s.destination ∧ ¬ Overlapping s.source s.destination

/-! ### Whole source regions, index by index -/

/-- `ceil(n / 223)` chunks (40_arith_gf256 R121). -/
def chunksOf (n : Nat) : Nat := (n + (Config.rsK - 1)) / Config.rsK

/-- `chunk_c` (43_fec R170). -/
def chunkAt (src : List Byte) (c : Nat) : List Byte :=
  (List.range Config.rsK).map fun i =>
    if Config.rsK * c + i < src.length then src.getD (Config.rsK * c + i) 0 else 0

/-- `cw_0 ++ cw_1 ++ ..` (43_fec R170, R176). -/
def encodedStream (poly : PrimPoly) (src : List Byte) : List Byte :=
  (List.range (chunksOf src.length)).flatMap fun c => rsEncode poly (chunkAt src c)

/-- `src[255*c .. 255*c + 255)` (43_fec R178, R184). -/
def codewordAt (src : List Byte) (c : Nat) : List Byte :=
  (List.range Config.rsN).map fun i => src.getD (Config.rsN * c + i) 0

/-- The syndrome blocks of `k` codewords (43_fec R178). -/
def syndromeStream (poly : PrimPoly) (k : Nat) (src : List Byte) : List Byte :=
  (List.range k).flatMap fun c => syndrome poly (codewordAt src c)

/-- The number of codewords with a nonzero syndrome (43_fec R178). -/
def dirtyCount (poly : PrimPoly) (k : Nat) (src : List Byte) : Nat :=
  (List.range k).countP fun c => !allZero (syndrome poly (codewordAt src c))

/-- The 223 bytes FDEC outputs for received word `r` (43_fec R184). -/
def decodedMessage (poly : PrimPoly) (r : List Byte) : List Byte :=
  match decodeCW poly r with
  | .corrected cw _ => cw.take Config.rsK
  | .uncorrectable => r.take Config.rsK

/-- The report byte of received word `r` (43_fec R185). -/
def reportByte (poly : PrimPoly) (r : List Byte) : Byte :=
  match decodeCW poly r with
  | .corrected _ e => BitVec.ofNat _ e
  | .uncorrectable => Config.uncorrMark

/-- The symbols corrected in received word `r`, 0 for an uncorrectable one (43_fec R184). -/
def correctedSymbols (poly : PrimPoly) (r : List Byte) : Nat :=
  match decodeCW poly r with
  | .corrected _ e => e
  | .uncorrectable => 0

/-- The index of the first uncorrectable codeword (43_fec R184). -/
def firstUncorrectable (poly : PrimPoly) (k : Nat) (src : List Byte) : Option Nat :=
  (List.range k).find? fun c => decide (decodeCW poly (codewordAt src c) = .uncorrectable)

/-! ### The code (43_fec R179, R180) -/

/-- A member of the code `C`: 255 bytes with zero syndrome (43_fec R179). -/
def IsCodeword (poly : PrimPoly) (w : List Byte) : Prop :=
  w.length = Config.rsN ∧ ∀ x ∈ syndrome poly w, x = 0

/-- `dist(a, b)`: the number of indices at which two words differ (00_scope section 6). -/
def dist (a b : List Byte) : Nat := (List.zip a b).countP fun p => decide (p.1 ≠ p.2)

/-- The contract a compressor puts on a bound (42_cbound R160 `CBoundSound`). -/
def CBoundSound (bound : Nat → Nat) (compress : List Byte → List Byte) : Prop :=
  ∀ bytes, (compress bytes).length ≤ bound bytes.length

/-! ### When a command's checks pass -/

/-- No check of the command's rule raises a fault (41_hash R154, 42_cbound R162, 43_fec R175, R176,
R178, R184, 44_escape R205 to R207). -/
def ChecksPass (s : State) : Instr → Prop
  | .hash => PairPasses s ∧ Config.digestBytes ≤ s.dstCap.toNat
  | .cbound => cboundFn s.cfg.cbound s.srcLen.toNat ≤ Config.maxWord
  | .fsize => Config.rsN * chunksOf s.srcLen.toNat ≤ Config.maxWord
  | .fenc =>
    PairPasses s ∧ Config.rsN * chunksOf s.srcLen.toNat ≤ Config.maxWord ∧
      Config.rsN * chunksOf s.srcLen.toNat ≤ s.dstCap.toNat
  | .fsyn =>
    s.srcLen.toNat % Config.rsN = 0 ∧ PairPasses s ∧
      Config.synBytes * (s.srcLen.toNat / Config.rsN) ≤ s.dstCap.toNat
  | .fdec =>
    s.srcLen.toNat % Config.rsN = 0 ∧ PairPasses s ∧ InRange s s.report ∧
      ¬ Overlapping s.source s.report ∧ ¬ Overlapping s.destination s.report ∧
      Config.rsK * (s.srcLen.toNat / Config.rsN) ≤ s.dstCap.toNat ∧
      s.srcLen.toNat / Config.rsN ≤ s.auxCap.toNat
  | .ecnt => InRange s s.source
  | .esc =>
    PairPasses s ∧ s.srcLen.toNat + escCount s.sourceBytes ≤ Config.maxWord ∧
      s.srcLen.toNat + escCount s.sourceBytes ≤ s.dstCap.toNat
  | .unesc =>
    PairPasses s ∧
      ∃ out seqs, unescapeBytes s.sourceBytes = .ok out seqs ∧ out.length ≤ s.dstCap.toNat

/-! ### The machine's invariant -/

/-- What holds in every state a run reaches: STATUS is one of the values of 10_state R30; `Mem` is in
canonical form and inside `0 .. MEM_SIZE-1`; the result registers read 0 while BUSY (10_state R25);
the newest window is that of the command in progress (10_state R25, 70 R264); no window is broken
while idle. -/
structure State.Inv (s : State) : Prop where
  statusLegal : statusLegal s.status = true
  memWf : s.mem.wf = true
  memInside : s.mem.inside s.cfg.memSize = true
  memSizeLegal : s.cfg.memSizeLegal = true
  resultsZero : s.busy = true → s.resLen = 0 ∧ s.resAux = 0 ∧ s.errInfo = 0
  windowOpen : s.busy = true → s.windows.head? = some (s.windowOf s.pending)
  unbroken : s.busy = false → s.broken = false

/-! ### What RUN performs (30_encoding R98) -/

/-- `k` steps from `s` have performed command `i` on the given operands, as its meaning `exec` says:
`e` is the state at its completion and `t` its end. The last step has read the command's STATUS and
closed every window, and the run's record has one ending more, no breach more, and the command's
output regions. -/
def PerformsCommand (s : State) (k : Nat) (i : Instr) (src len dst cap aux auxCap : Word)
    (rest : List Transaction) : Prop :=
  ∃ e t u : State, exec i e = .next t ∧ e.src = src ∧ e.srcLen = len ∧ e.dst = dst ∧
    e.dstCap = cap ∧ e.aux = aux ∧ e.auxCap = auxCap ∧ e.mem = s.mem ∧ e.cfg = s.cfg ∧
    e.pending = encode i ∧ Host.Core.run Sys2Proof.core k s = .next u ∧ u.mem = t.mem ∧
    u.status = t.status ∧ u.resLen = t.resLen ∧ u.resAux = t.resAux ∧ u.errInfo = t.errInfo ∧
    u.lastRead = some (.register 0x04 t.status) ∧ u.windows = [] ∧ u.script = rest ∧
    ∀ r : RunRecord, runRecorded k s r = .next (u,
      { endings := r.endings ++ [t.status], breached := r.breached,
        writable := r.writable ++ e.outputRegions i })

end Sys2Proof.Machine
end

