-- ==== Sys2Proof/Certificates/Slice0/Obligations.lean ====
section
/-! DEFINITION. The statements about the machine, each from the numbered rules of spec/ named in its
docstring. -/

open Sys2Proof Sys2Proof.Machine

/-! ## Command words (30_encoding) -/

/-- R92: a word is the command of a row iff its masked bits are the row's match, the nine rows
written out. -/
def Obligations.DecodeAcceptsExactlyTheTableRows : Prop :=
  ∀ (w : Word) (i : Instr), decode w = .ok i ↔
    ∃ row ∈ [((Instr.hash, (0x00000001#32, 0xFFFFFFFF#32)) : Instr × Word × Word),
             (.cbound, 0x00000002#32, 0xFFFFFFFF#32), (.fsize, 0x00000010#32, 0xFFFFFFFF#32),
             (.fenc, 0x00000011#32, 0xFFFFFFFF#32), (.fsyn, 0x00000012#32, 0xFFFFFFFF#32),
             (.fdec, 0x00000013#32, 0xFFFFFFFF#32), (.ecnt, 0x00000020#32, 0xFFFFFFFF#32),
             (.esc, 0x00000021#32, 0xFFFFFFFF#32), (.unesc, 0x00000022#32, 0xFFFFFFFF#32)],
      row.1 = i ∧ w &&& row.2.2 = row.2.1

/-- R92, R95: encoding a command and decoding the word gives the command back, and a few words
written out bit by bit decode to their commands. -/
def Obligations.EncodedCommandsDecodeBack : Prop :=
  (∀ i : Instr, i.wellFormed = true →
    decode (encode i) = .ok i ∧ decodeTableWord 32 (encode i).toNat = some i) ∧
  decode 0b00000000000000000000000000000001#32 = .ok .hash ∧
  decode 0b00000000000000000000000000010011#32 = .ok .fdec ∧
  decode 0b00000000000000000000000000100010#32 = .ok .unesc

/-- R91, R93: the illegal words are those with bits 31:8 not zero, and the OPCODE values 0x00, 0x03
to 0x0F, 0x14 to 0x1F and 0x23 to 0xFF; every other word decodes. -/
def Obligations.IllegalWordsAreTheReservedRanges : Prop :=
  ∀ w : Word, (∃ e, decode w = .error e) ↔
    w.toNat / 256 ≠ 0 ∨ w.toNat % 256 = 0x00 ∨
      (0x03 ≤ w.toNat % 256 ∧ w.toNat % 256 ≤ 0x0F) ∨
      (0x14 ≤ w.toNat % 256 ∧ w.toNat % 256 ≤ 0x1F) ∨
      (0x23 ≤ w.toNat % 256 ∧ w.toNat % 256 ≤ 0xFF)

/-! ## Steps of the engine and the host (10_state, 30_encoding R97) -/

/-- R32, R91: while BUSY, when the engine's turn comes and PENDING decodes to a command, the step is
that command's meaning on the state with the transaction taken from the script. An unbroken window
is the case in which the host has kept off the regions (R264). -/
def Obligations.StepRunsTheDecodedCommand : Prop :=
  ∀ (s : State) (i : Instr), s.busy = true → s.broken = false → decode s.pending = .ok i →
    (s.script = [] → step s = exec i s) ∧
    ∀ rest, s.script = .completion :: rest → step s = exec i (s.takeScript rest)

/-- R223: the completion step of a command whose word is illegal raises IllegalCommand with the word
in ERR_INFO; nothing else changes. The word is illegal by the list of R93. -/
def Obligations.IllegalWordEndsInIllegalCommand : Prop :=
  ∀ (s : State) (rest : List Transaction), s.busy = true → s.broken = false →
    (s.pending.toNat / 256 ≠ 0 ∨
      ¬ s.pending.toNat % 256 ∈ [0x01, 0x02, 0x10, 0x11, 0x12, 0x13, 0x20, 0x21, 0x22]) →
    s.script = .completion :: rest →
    ∃ t, step s = .next t ∧ EndedFaulting (s.takeScript rest) t 1 s.pending.toNat

/-- R244, R235: with BUSY = 0 and a silent host the block keeps all its state. -/
def Obligations.IdleBlockKeepsItsState : Prop :=
  ∀ s : State, s.busy = false → s.script = [] → step s = .next s

/-- R31: a write of any word to CMD while BUSY = 0 latches it, sets BUSY, clears the record of the
last command and its results, and leaves the operand registers and `Mem` alone. -/
def Obligations.CommandStartLatchesTheWord : Prop :=
  ∀ (s : State) (w : Word) (rest : List Transaction), s.busy = false →
    s.script = .hostWrite 0x00 w :: rest →
    ∃ t, step s = .next t ∧ t.pending = w ∧ t.busy = true ∧ t.done = false ∧ t.err = false ∧
      t.errcode = 0 ∧ t.status = 0x00000001 ∧ t.resLen = 0 ∧ t.resAux = 0 ∧ t.errInfo = 0 ∧
      t.src = s.src ∧ t.srcLen = s.srcLen ∧ t.dst = s.dst ∧ t.dstCap = s.dstCap ∧
      t.aux = s.aux ∧ t.auxCap = s.auxCap ∧ t.mem = s.mem ∧ t.cfg = s.cfg ∧ t.script = rest

/-- R24: while BUSY = 0 a host write sets the operand register at its offset, starts a command at
CMD, and changes nothing at any other offset. -/
def Obligations.HostWriteReachesOnlyOperandRegisters : Prop :=
  ∀ (s : State) (off : Nat) (v : Word) (rest : List Transaction), s.busy = false →
    off % 4 = 0 → off ≤ 0xFFC → s.script = .hostWrite off v :: rest →
    ∃ t, step s = .next t ∧ (off = 0x00 → t = (s.takeScript rest).startCommand v) ∧
      (off ≠ 0x00 →
        t.src = (if off = 0x08 then v else s.src) ∧
        t.srcLen = (if off = 0x0C then v else s.srcLen) ∧
        t.dst = (if off = 0x10 then v else s.dst) ∧
        t.dstCap = (if off = 0x14 then v else s.dstCap) ∧
        t.aux = (if off = 0x18 then v else s.aux) ∧
        t.auxCap = (if off = 0x1C then v else s.auxCap) ∧
        t.status = s.status ∧ t.resLen = s.resLen ∧ t.resAux = s.resAux ∧
        t.errInfo = s.errInfo ∧ t.mem = s.mem ∧ t.pending = s.pending ∧ t.cfg = s.cfg ∧
        t.script = rest ∧ t.lastRead = s.lastRead ∧ t.windows = s.windows)

/-- R25, in the states a run reaches: while BUSY every host write is ignored, STATUS reads 1, the
operand registers read their values, the results and ERR_INFO read 0; an access that is not at a
multiple of 4 or lies outside the register space is refused. -/
def Obligations.BusyRegistersIgnoreWritesAndReadZeroResults : Prop :=
  ∀ (s : State) (off : Nat) (v : Word) (rest : List Transaction), s.Inv → s.busy = true →
    (off % 4 = 0 → off < 0x1000 → s.script = .hostWrite off v :: rest →
      step s = .next (s.takeScript rest)) ∧
    (s.readRegister 0x04 = 0x00000001 ∧ s.readRegister 0x08 = s.src ∧
      s.readRegister 0x0C = s.srcLen ∧ s.readRegister 0x10 = s.dst ∧
      s.readRegister 0x14 = s.dstCap ∧ s.readRegister 0x18 = s.aux ∧
      s.readRegister 0x1C = s.auxCap ∧ s.readRegister 0x20 = 0 ∧ s.readRegister 0x24 = 0 ∧
      s.readRegister 0x28 = 0) ∧
    (¬ (off % 4 = 0 ∧ off < 0x1000) →
      s.script = .hostWrite off v :: rest ∨ s.script = .hostRead off :: rest →
      step s = .refused (.badRegisterOffset off))

/-- R23, by the map of R22: a host read returns the register's word, 0 for CMD and the reserved
offsets, and changes nothing of the block. -/
def Obligations.HostReadReturnsTheRegisterAndChangesNothing : Prop :=
  ∀ (s : State) (off : Nat) (rest : List Transaction), off % 4 = 0 → off ≤ 0xFFC →
    s.script = .hostRead off :: rest →
    ∃ (t : State) (v : Word), step s = .next t ∧ t.lastRead = some (.register off v) ∧
      (off = 0x00 → v = 0) ∧ (off = 0x04 → v = s.status) ∧ (off = 0x08 → v = s.src) ∧
      (off = 0x0C → v = s.srcLen) ∧ (off = 0x10 → v = s.dst) ∧ (off = 0x14 → v = s.dstCap) ∧
      (off = 0x18 → v = s.aux) ∧ (off = 0x1C → v = s.auxCap) ∧ (off = 0x20 → v = s.resLen) ∧
      (off = 0x24 → v = s.resAux) ∧ (off = 0x28 → v = s.errInfo) ∧ (0x2C ≤ off → v = 0) ∧
      t.status = s.status ∧ t.src = s.src ∧ t.srcLen = s.srcLen ∧ t.dst = s.dst ∧
      t.dstCap = s.dstCap ∧ t.aux = s.aux ∧ t.auxCap = s.auxCap ∧ t.resLen = s.resLen ∧
      t.resAux = s.resAux ∧ t.errInfo = s.errInfo ∧ t.pending = s.pending ∧ t.mem = s.mem ∧
      t.cfg = s.cfg ∧ t.script = rest

/-- R35: after a command's end, STATUS, RES_LEN, RES_AUX and ERR_INFO keep their values through every
step that is neither a command start nor a reset. A host write into a window not yet closed is the
hazard of R264 and is left out. -/
def Obligations.ResultsPersistUntilTheNextStartOrReset : Prop :=
  ∀ s t : State, s.busy = false → step s = .next t →
    s.script.head? ≠ some .reset →
    (∀ w, s.script.head? ≠ some (.hostWrite 0x00 w)) →
    (∀ a b, s.script.head? = some (.memWrite a b) → ∀ w ∈ s.windows, w.touches a = false) →
    t.status = s.status ∧ t.resLen = s.resLen ∧ t.resAux = s.resAux ∧ t.errInfo = s.errInfo

/-- R66, R97: a byte the host writes outside every busy window is the byte it reads back; and a host
read of any byte that lies in no destination or report region of a busy window returns that byte and
changes nothing of the block. A source byte of a running command is one of these (R264: reading the
source region is harmless). -/
def Obligations.HostReadsBackTheByteItWrote : Prop :=
  (∀ (s : State) (a : Nat) (b : Byte) (rest : List Transaction), a < s.cfg.memSize →
    (∀ w ∈ s.windows, w.touches a = false) →
    s.script = .memWrite a b :: .memRead a :: rest →
    ∃ t u, step s = .next t ∧ step t = .next u ∧ u.lastRead = some (.byte a b) ∧
      u.mem.read a = b ∧ (∀ x, x ≠ a → u.mem.read x = s.mem.read x) ∧ u.status = s.status ∧
      u.script = rest) ∧
  ∀ (s : State) (a : Nat) (rest : List Transaction), a < s.cfg.memSize →
    (∀ w ∈ s.windows, ∀ r ∈ w.outputs, r.has a = false) → s.script = .memRead a :: rest →
    step s = .next { s with script := rest, lastRead := some (.byte a (s.mem.read a)) }

/-- The model's choice (logs 10 and 11; 93 U3): a host memory transaction outside
`0 .. MEM_SIZE-1` faults and a misshapen register transaction is refused, each by name. -/
def Obligations.TransactionsOutsideTheSpacesStop : Prop :=
  ∀ (s : State) (a : Nat) (b : Byte) (v : Word) (rest : List Transaction),
    (s.cfg.memSize ≤ a → s.script = .memWrite a b :: rest ∨ s.script = .memRead a :: rest →
      step s = .fault (.noSuchAddress a)) ∧
    (¬ (a % 4 = 0 ∧ a < 0x1000) →
      s.script = .hostWrite a v :: rest ∨ s.script = .hostRead a :: rest →
      step s = .refused (.badRegisterOffset a))

/-! ## Reset (70_reset_and_hazards) -/

/-- R260: from any state, reset makes every register read 0 and the block idle; `Mem` is not written
unless a command was running (R261); the block accepts a command at once. -/
def Obligations.ResetClearsEveryRegister : Prop :=
  ∀ (s : State) (rest : List Transaction), s.script = .reset :: rest →
    ∃ t, step s = .next t ∧ (∀ off, t.readRegister off = 0) ∧ t.busy = false ∧ t.done = false ∧
      t.err = false ∧ t.errcode = 0 ∧ t.cfg = s.cfg ∧ t.script = rest ∧
      (s.busy = false → t.mem = s.mem) ∧
      ∀ w, (t.hostWrite 0x00 w).busy = true ∧ (t.hostWrite 0x00 w).pending = w

/-- R261, in the states a run reaches: reset during a command abandons it, and every byte outside its
destination and report regions is unchanged; an illegal word names no region. The bytes inside are
the model's free values (log 8), of which nothing is said. -/
def Obligations.ResetDuringACommandTouchesOnlyItsOutputs : Prop :=
  ∀ (s : State) (rest : List Transaction), s.Inv → s.busy = true → s.script = .reset :: rest →
    ∃ t, step s = .next t ∧ t.busy = false ∧ t.done = false ∧
      (∀ i a, decode s.pending = .ok i → (usesDestination i = true → ¬ s.destination.has a) →
        (usesReport i = true → ¬ s.report.has a) → t.mem.read a = s.mem.read a) ∧
      ∀ e a, decode s.pending = .error e → t.mem.read a = s.mem.read a

/-- R41: right after reset every register reads 0 and the block is idle. -/
def Obligations.ResetStateReadsZero : Prop :=
  (∀ off, State.reset.readRegister off = 0) ∧ State.reset.busy = false ∧
    State.reset.done = false ∧ State.reset.err = false ∧ State.reset.errcode = 0

/-! ## The busy window (70_reset_and_hazards R264) -/

/-- R264, 93 U2 (log 7: the model gives the access free values): a host read of a destination or
report byte of a window not yet closed does not return what memory holds but a free byte, and leaves
the block alone. -/
def Obligations.BusyWindowReadsReturnAFreeByte : Prop :=
  ∀ (s : State) (a : Nat) (rest : List Transaction), a < s.cfg.memSize →
    (∃ w ∈ s.windows, ∃ r ∈ w.outputs, r.has a = true) → s.script = .memRead a :: rest →
    ∃ t, step s = .next t ∧ t.lastRead = some (.byte a (Config.freeByte s.freeCount)) ∧
      t.mem = s.mem ∧ t.status = s.status ∧ t.freeCount = s.freeCount + 1 ∧ t.script = rest

/-- R264, 93 U2 (log 7: the model gives the access free values). A host write that touches a region of
a busy window: every output byte of each window it touches becomes a free byte, and every other byte
but the one written, every operand register and the windows are as they were. While the newest
command runs, its window is broken by the write and nothing it shows changes; after its end its
results become free values. Whatever the host did, a command still ends with BUSY = 0 and DONE = 1, in
one of the ways of R30; a broken one reports free values, its output bytes are free, and no byte
outside its output regions changes. -/
def Obligations.BrokenCommandsStillEnd : Prop :=
  (∀ (s : State) (a : Nat) (b : Byte) (rest : List Transaction), a < s.cfg.memSize →
    (∃ w ∈ s.windows, w.touches a = true) → s.script = .memWrite a b :: rest →
    ∃ t, step s = .next t ∧ t.script = rest ∧ t.windows = s.windows ∧ t.pending = s.pending ∧
      t.cfg = s.cfg ∧ t.src = s.src ∧ t.srcLen = s.srcLen ∧ t.dst = s.dst ∧ t.dstCap = s.dstCap ∧
      t.aux = s.aux ∧ t.auxCap = s.auxCap ∧ t.lastRead = s.lastRead ∧
      (∀ x, x < s.cfg.memSize →
        (∃ w ∈ s.windows, w.touches a = true ∧ ∃ r ∈ w.outputs, r.has x = true) →
        ∃ n, s.freeCount ≤ n ∧ t.mem.read x = Config.freeByte n) ∧
      (∀ x, (∀ w ∈ s.windows, w.touches a = true → ∀ r ∈ w.outputs, r.has x = false) →
        t.mem.read x = if x = a then b else s.mem.read x) ∧
      (s.busy = true → t.status = s.status ∧ t.resLen = s.resLen ∧ t.resAux = s.resAux ∧
        t.errInfo = s.errInfo ∧
        ((∃ w, s.windows.head? = some w ∧ w.touches a = true) → t.broken = true)) ∧
      (s.busy = false → (∃ w, s.windows.head? = some w ∧ w.touches a = true) →
        t.busy = false ∧ t.done = true ∧ statusLegal t.status = true ∧
        ∃ n, s.freeCount ≤ n ∧ t.resLen = Config.freeWord n ∧
          t.resAux = Config.freeWord (n + 1) ∧ t.errInfo = Config.freeWord (n + 2)) ∧
      (¬ (∃ w, s.windows.head? = some w ∧ w.touches a = true) →
        t.status = s.status ∧ t.resLen = s.resLen ∧ t.resAux = s.resAux ∧
          t.errInfo = s.errInfo ∧ t.broken = s.broken)) ∧
  ∀ s : State, s.busy = true →
    ∃ t, s.engineTurn = .next t ∧ t.busy = false ∧ t.done = true ∧ statusLegal t.status = true ∧
      (s.Inv → s.broken = true →
        (∃ n, s.freeCount ≤ n ∧ t.resLen = Config.freeWord n ∧
          t.resAux = Config.freeWord (n + 1) ∧ t.errInfo = Config.freeWord (n + 2)) ∧
        (∀ i x, decode s.pending = .ok i → x < s.cfg.memSize →
          (∃ r ∈ s.outputRegions i, r.has x = true) →
          ∃ n, s.freeCount ≤ n ∧ t.mem.read x = Config.freeByte n) ∧
        ∀ a, ¬ s.destination.has a → ¬ s.report.has a → t.mem.read a = s.mem.read a)

/-- R32, R268 (the steps are those of the model's script, logs 1 and 2: an empty script gives the
engine its turn): a started command ends. With a script of meaningful transactions and no reset,
within as many steps as the script is long and one more, BUSY = 0 and DONE = 1. -/
def Obligations.StartedCommandsEnd : Prop :=
  ∀ s : State, s.busy = true →
    (∀ tr ∈ s.script, tr.wellFormed s.cfg.memSize = true ∧ tr ≠ .reset) →
    ∃ (k : Nat) (t : State), k ≤ s.script.length + 1 ∧
      Host.Core.run Sys2Proof.core k s = .next t ∧ t.busy = false ∧ t.done = true

/-- R98 `RUN`, both forms, with the model's `WAIT`, which is the completion and one read of STATUS
(log 17), and the model's closing of every window at that read (log 14): from an idle block the
transactions of `RUN` perform the command on its operands. The record of the run (R269) has the
command's ending and its output regions, and no breach. -/
def Obligations.RunStatementPerformsTheCommand : Prop :=
  ∀ (s : State) (i : Instr) (src len dst cap aux auxCap : Word) (rest : List Transaction),
    s.busy = false →
    (s.script = (Stmt.run i src len dst cap).transactions ++ rest →
      PerformsCommand s 7 i src len dst cap s.aux s.auxCap rest) ∧
    (s.script = (Stmt.runAux i src len dst cap aux auxCap).transactions ++ rest →
      PerformsCommand s 9 i src len dst cap aux auxCap rest)

/-! ## Invariants -/

/-- Every step keeps the invariant: a legal STATUS (R30), `Mem` in canonical form and inside
`0 .. MEM_SIZE-1` (R36), results 0 while BUSY (R25), the window of the running command (R264). -/
def Obligations.StepKeepsTheInvariant : Prop :=
  ∀ s t : State, s.Inv → step s = .next t → t.Inv

/-- The state after reset meets the invariant. -/
def Obligations.ResetMeetsTheInvariant : Prop := State.reset.Inv

/-- 00_scope R4: no step changes the constants of the instance. -/
def Obligations.StepKeepsTheConfiguration : Prop :=
  ∀ s t : State, step s = .next t → t.cfg = s.cfg

/-! ## What every command does -/

/-- When the checks of its rule pass, each of the nine commands completes by its own effect: it
answers a next state that has ended without fault, but for FDEC on a source with an uncorrectable
codeword, which has ended with UncorrectableChunk. -/
def Obligations.CommandsCompleteWhenTheirChecksPass : Prop :=
  ∀ (i : Instr) (s : State), ChecksPass s i →
    ∃ t, exec i s = .next t ∧
      ((t.status = 0x00000002 ∧
          (i = .fdec →
            firstUncorrectable s.cfg.primPoly (s.srcLen.toNat / 255) s.sourceBytes = none)) ∨
        (i = .fdec ∧ t.status = 0x00000706 ∧
          firstUncorrectable s.cfg.primPoly (s.srcLen.toNat / 255) s.sourceBytes ≠ none))

/-- R32, R30: every command answers a next state for every operand value and memory content, with
BUSY = 0, DONE = 1, and STATUS 0x2 or one of 0x106, .., 0x906. -/
def Obligations.EveryCommandEndsWithALegalStatus : Prop :=
  ∀ (i : Instr) (s : State), ∃ t, exec i s = .next t ∧ t.busy = false ∧ t.done = true ∧
    (t.status = 0x00000002 ∨ ∃ code, 1 ≤ code ∧ code ≤ 9 ∧ t.status.toNat = 0x6 + 0x100 * code)

/-- R26: no command changes an operand register, nor anything but STATUS, the results, ERR_INFO and
`Mem`. -/
def Obligations.CommandsNeverModifyTheOperandRegisters : Prop :=
  ∀ (i : Instr) (s t : State), exec i s = .next t → KeepsRest s t

/-- R70: a command writes only the first RES_LEN bytes of its destination region and, for FDEC, the
first SRC_LEN/255 bytes of its report region, inside the regions; CBOUND, FSIZE and ECNT write
nothing. -/
def Obligations.CommandsWriteOnlyTheirOutputs : Prop :=
  ∀ (i : Instr) (s t : State), exec i s = .next t →
    (∀ a, t.mem.read a ≠ s.mem.read a →
      (usesDestination i = true ∧ Within s.dst t.resLen.toNat a ∧ s.destination.has a) ∨
      (i = .fdec ∧ Within s.aux (s.srcLen.toNat / 255) a ∧ s.report.has a)) ∧
    (i = .cbound ∨ i = .fsize ∨ i = .ecnt → t.mem = s.mem)

/-- R10: a command is a pure function of the operand registers it uses and its source bytes: two
states that agree on those end the same way, with the same results and the same new bytes. -/
def Obligations.CommandsArePureFunctionsOfOperandsAndSource : Prop :=
  ∀ (i : Instr) (s1 s2 t1 t2 : State), s1.cfg = s2.cfg → s1.srcLen = s2.srcLen →
    (usesSource i = true → s1.src = s2.src ∧
      ∀ a, s1.source.has a = true → s1.mem.read a = s2.mem.read a) →
    (usesDestination i = true → s1.dst = s2.dst ∧ s1.dstCap = s2.dstCap) →
    (usesReport i = true → s1.aux = s2.aux ∧ s1.auxCap = s2.auxCap) →
    exec i s1 = .next t1 → exec i s2 = .next t2 →
    t1.status = t2.status ∧ t1.resLen = t2.resLen ∧ t1.resAux = t2.resAux ∧
      t1.errInfo = t2.errInfo ∧
      ∀ a, (t1.mem.read a = s1.mem.read a ∧ t2.mem.read a = s2.mem.read a) ∨
        t1.mem.read a = t2.mem.read a

/-- R236, R222: after any fault but UncorrectableChunk, `Mem` and the operand registers are as they
were, the results are 0, and STATUS and ERRCODE name the fault. -/
def Obligations.FaultsArePrecise : Prop :=
  ∀ (i : Instr) (s t : State), exec i s = .next t → t.err = true →
    t.status.toNat = 0x6 + 0x100 * t.errcode.toNat ∧ 1 ≤ t.errcode.toNat ∧
      t.errcode.toNat ≤ 9 ∧ KeepsRest s t ∧
      (t.errcode ≠ 7 → t.mem = s.mem ∧ t.resLen = 0 ∧ t.resAux = 0)

/-! ## The digest unit and the size bound -/

/-- R154: HASH, its checks in order and its effect with its frame. -/
def Obligations.HashStoresTheDigest : Prop :=
  ∀ s : State, ∃ t, exec .hash s = .next t ∧
    if ¬ InRange s s.source then EndedFaulting s t 2 0
    else if ¬ InRange s s.destination then EndedFaulting s t 2 1
    else if Overlapping s.source s.destination then EndedFaulting s t 3 0
    else if s.dstCap.toNat < 16 then EndedFaulting s t 4 16
    else EndedNormally s t 16 0 ∧
      Stored s t s.dst.toNat (digestFn s.cfg.digest s.sourceBytes) ∧
      (digestFn s.cfg.digest s.sourceBytes).length = 16

/-- R150 to R153, the default `DIGEST_FN`. The padded message: 0x80, the least number of zero bytes
that makes the length 56 mod 64, and the bit length in 8 bytes, least significant first. The initial
chaining words; the words of a block; each of its 64 steps; the chaining over the blocks; the output,
each word least significant byte first; and the digests the rules give. -/
def Obligations.Md5PaddingFillsWholeBlocks : Prop :=
  (∀ m : List Byte, ∃ (z : Nat) (len8 : List Byte),
    md5Pad m = m ++ [0x80] ++ List.replicate z 0x00 ++ len8 ∧
    (m.length + 1 + z) % 64 = 56 ∧ (∀ z', (m.length + 1 + z') % 64 = 56 → z ≤ z') ∧
    len8.length = 8 ∧
    (∀ i, i < 8 →
      (len8.getD i 0).toNat = (((8 * m.length) % 2 ^ 64) >>> (8 * i)) &&& 0xFF) ∧
    (md5Pad m).length = 64 * ((m.length + 8) / 64 + 1)) ∧
  (md5Init.a = 0x67452301 ∧ md5Init.b = 0xEFCDAB89 ∧ md5Init.c = 0x98BADCFE ∧
    md5Init.d = 0x10325476) ∧
  (∀ (block : List Byte) (j : Nat), block.length = 64 → j < 16 →
    ((md5Words block).getD j 0).toNat =
      (block.getD (4 * j) 0).toNat + (block.getD (4 * j + 1) 0).toNat * 2 ^ 8 +
        (block.getD (4 * j + 2) 0).toNat * 2 ^ 16 + (block.getD (4 * j + 3) 0).toNat * 2 ^ 24) ∧
  (∀ (ms : List Word) (st : Md5State) (i : Nat), i < 64 →
    (md5Step ms st i).a = st.d ∧ (md5Step ms st i).c = st.b ∧ (md5Step ms st i).d = st.c ∧
    (i < 16 → (md5Step ms st i).b = st.b + BitVec.rotateLeft
      (st.a + ((st.b &&& st.c) ||| (~~~st.b &&& st.d)) + md5Table.getD i 0 + ms.getD i 0)
      ([7, 12, 17, 22].getD (i % 4) 0)) ∧
    (16 ≤ i → i < 32 → (md5Step ms st i).b = st.b + BitVec.rotateLeft
      (st.a + ((st.d &&& st.b) ||| (~~~st.d &&& st.c)) + md5Table.getD i 0 +
        ms.getD ((5 * i + 1) % 16) 0) ([5, 9, 14, 20].getD (i % 4) 0)) ∧
    (32 ≤ i → i < 48 → (md5Step ms st i).b = st.b + BitVec.rotateLeft
      (st.a + (st.b ^^^ st.c ^^^ st.d) + md5Table.getD i 0 + ms.getD ((3 * i + 5) % 16) 0)
      ([4, 11, 16, 23].getD (i % 4) 0)) ∧
    (48 ≤ i → (md5Step ms st i).b = st.b + BitVec.rotateLeft
      (st.a + (st.c ^^^ (st.b ||| ~~~st.d)) + md5Table.getD i 0 + ms.getD ((7 * i) % 16) 0)
      ([6, 10, 15, 21].getD (i % 4) 0))) ∧
  (∀ m : List Byte, ∃ st : Nat → Md5State, st 0 = md5Init ∧
    (∀ blk, blk < (m.length + 8) / 64 + 1 →
      ∃ r, r = (List.range 64).foldl
          (md5Step (md5Words (((md5Pad m).drop (64 * blk)).take 64))) (st blk) ∧
        (st (blk + 1)).a = (st blk).a + r.a ∧ (st (blk + 1)).b = (st blk).b + r.b ∧
        (st (blk + 1)).c = (st blk).c + r.c ∧ (st (blk + 1)).d = (st blk).d + r.d) ∧
    (digestFn .md5 m).length = 16 ∧
    ∀ w i, w < 4 → i < 4 → ((digestFn .md5 m).getD (4 * w + i) 0).toNat =
      ((([(st ((m.length + 8) / 64 + 1)).a, (st ((m.length + 8) / 64 + 1)).b,
          (st ((m.length + 8) / 64 + 1)).c,
          (st ((m.length + 8) / 64 + 1)).d].getD w 0).toNat >>> (8 * i)) &&& 0xFF)) ∧
  digestFn .md5 [0x41, 0x42] =
    [0xB8, 0x6F, 0xC6, 0xB0, 0x51, 0xF6, 0x3D, 0x73, 0xDE, 0x26, 0x2D, 0x4C, 0x34, 0xE3, 0xA0,
     0xA9] ∧
  digestFn .md5 [] =
    [0xD4, 0x1D, 0x8C, 0xD9, 0x8F, 0x00, 0xB2, 0x04, 0xE9, 0x80, 0x09, 0x98, 0xEC, 0xF8, 0x42,
     0x7E]

/-- R162: CBOUND, for any `CBOUND_FN`. -/
def Obligations.CboundReportsTheBound : Prop :=
  ∀ s : State, ∃ t, exec .cbound s = .next t ∧
    if cboundFn s.cfg.cbound s.srcLen.toNat > 2 ^ 32 - 1 then EndedFaulting s t 5 0
    else EndedNormally s t (cboundFn s.cfg.cbound s.srcLen.toNat) 0 ∧ t.mem = s.mem

/-- R161: the default bound is its formula, monotone and greater than its argument, with the values
the rule lists. -/
def Obligations.DefaultBoundIsMonotoneAndAboveItsArgument : Prop :=
  (∀ n, cboundFn .deflate n = n + n / 2 ^ 12 + n / 2 ^ 14 + n / 2 ^ 25 + 13) ∧
  (∀ n m, n ≤ m → cboundFn .deflate n ≤ cboundFn .deflate m) ∧
  (∀ n, n < cboundFn .deflate n) ∧
  cboundFn .deflate 0 = 13 ∧ cboundFn .deflate 1 = 14 ∧ cboundFn .deflate 102 = 115 ∧
  cboundFn .deflate 4095 = 4108 ∧ cboundFn .deflate 4096 = 4110 ∧
  cboundFn .deflate 16384 = 16402 ∧ cboundFn .deflate 65536 = 65569 ∧
  cboundFn .deflate 33554432 = 33564686 ∧
  cboundFn .deflate 4293656835 = 4294967295 ∧ cboundFn .deflate 4293656836 = 4294967296

/-- R160: where `CBOUND_FN` is sound for a compressor, a CBOUND that ends without fault reports at
least the compressed length of every input of that length. -/
def Obligations.SoundBoundCoversTheCompressedLength : Prop :=
  ∀ (s t : State) (compress : List Byte → List Byte),
    CBoundSound (cboundFn s.cfg.cbound) compress → exec .cbound s = .next t →
    t.status = 0x00000002 →
    ∀ bytes, bytes.length = s.srcLen.toNat → (compress bytes).length ≤ t.resLen.toNat

/-! ## GF(2^8) (40_arith_gf256) -/

/-- R124: for a polynomial of degree 8, `gfmul` is commutative, associative, distributes over `gfadd`,
and has 0 and 1; its values for 0x11D. -/
def Obligations.GfmulIsACommutativeRingProduct : Prop :=
  (∀ poly : BitVec 9, poly.getLsbD 8 = true → ∀ a b c : Byte,
    gfmul poly a b = gfmul poly b a ∧
    gfmul poly (gfmul poly a b) c = gfmul poly a (gfmul poly b c) ∧
    gfmul poly a (gfadd b c) = gfadd (gfmul poly a b) (gfmul poly a c) ∧
    gfmul poly a 0 = 0 ∧ gfmul poly 0 a = 0 ∧ gfmul poly a 1 = a) ∧
  gfmul 0x11D 0x02 0x80 = 0x1D ∧ gfmul 0x11D 0x80 0x80 = 0x13 ∧ gfmul 0x11D 0xFF 0xFF = 0xE2

/-- R125: for a primitive polynomial the 255 powers of ALPHA are distinct, they are the nonzero
bytes, each is ALPHA times the one before it, and products add their logarithms. -/
def Obligations.ExpTableListsTheNonzeroBytes : Prop :=
  ∀ poly : BitVec 9, gfprimitive poly = true →
    (gfexpTable poly).length = 255 ∧ (gfexpTable poly).Nodup ∧
    (∀ a : Byte, a ∈ gfexpTable poly ↔ a ≠ 0) ∧
    gfalphaPow poly 0 = 1 ∧
    (∀ i, i < 254 → gfalphaPow poly (i + 1) = gfmul poly (gfalphaPow poly i) 0x02) ∧
    (∀ i, i ≤ 254 → gflog poly (gfalphaPow poly i) = i) ∧
    ∀ a b : Byte, a ≠ 0 → b ≠ 0 →
      gfmul poly a b = gfalphaPow poly ((gflog poly a + gflog poly b) % 255)

/-- R126: for a primitive polynomial `gfinv a` is the one inverse of a nonzero `a`, the power of
ALPHA the rule names, with its examples. Nothing is said of `gfinv 0`. -/
def Obligations.GfinvIsTheInverse : Prop :=
  (∀ poly : BitVec 9, gfprimitive poly = true → ∀ a b : Byte, a ≠ 0 →
    (gfmul poly a b = 1 ↔ b = gfinv poly a) ∧
    gfinv poly a = gfalphaPow poly ((255 - gflog poly a) % 255)) ∧
  gfinv 0x11D 0x01 = 0x01 ∧ gfinv 0x11D 0x02 = 0x8E

/-! ## The FEC unit (43_fec) -/

/-- R175, R171: FSIZE reports `255 * ceil(n/223)` and `ceil(n/223)`. -/
def Obligations.FsizeReportsTheCodedSize : Prop :=
  ∀ s : State, ∃ t, exec .fsize s = .next t ∧
    if 255 * chunksOf s.srcLen.toNat > 2 ^ 32 - 1 then EndedFaulting s t 5 0
    else EndedNormally s t (255 * chunksOf s.srcLen.toNat) (chunksOf s.srcLen.toNat) ∧
      t.mem = s.mem

/-- R176, R170: FENC writes the codeword of every chunk, the last chunk zero-padded. -/
def Obligations.FencStoresTheCodewords : Prop :=
  ∀ s : State, ∃ t, exec .fenc s = .next t ∧
    if ¬ InRange s s.source then EndedFaulting s t 2 0
    else if ¬ InRange s s.destination then EndedFaulting s t 2 1
    else if Overlapping s.source s.destination then EndedFaulting s t 3 0
    else if 255 * chunksOf s.srcLen.toNat > 2 ^ 32 - 1 then EndedFaulting s t 5 0
    else if s.dstCap.toNat < 255 * chunksOf s.srcLen.toNat then
      EndedFaulting s t 4 (255 * chunksOf s.srcLen.toNat)
    else
      EndedNormally s t (255 * chunksOf s.srcLen.toNat) (chunksOf s.srcLen.toNat) ∧
      Stored s t s.dst.toNat (encodedStream s.cfg.primPoly s.sourceBytes) ∧
      (encodedStream s.cfg.primPoly s.sourceBytes).length = 255 * chunksOf s.srcLen.toNat

/-- R178: FSYN writes 32 syndrome bytes per codeword and counts the codewords with a nonzero one. -/
def Obligations.FsynStoresTheSyndromes : Prop :=
  ∀ s : State, ∃ t, exec .fsyn s = .next t ∧
    if s.srcLen.toNat % 255 ≠ 0 then EndedFaulting s t 6 (s.srcLen.toNat % 255)
    else if ¬ InRange s s.source then EndedFaulting s t 2 0
    else if ¬ InRange s s.destination then EndedFaulting s t 2 1
    else if Overlapping s.source s.destination then EndedFaulting s t 3 0
    else if s.dstCap.toNat < 32 * (s.srcLen.toNat / 255) then
      EndedFaulting s t 4 (32 * (s.srcLen.toNat / 255))
    else
      EndedNormally s t (32 * (s.srcLen.toNat / 255))
        (dirtyCount s.cfg.primPoly (s.srcLen.toNat / 255) s.sourceBytes) ∧
      Stored s t s.dst.toNat
        (syndromeStream s.cfg.primPoly (s.srcLen.toNat / 255) s.sourceBytes) ∧
      (syndromeStream s.cfg.primPoly (s.srcLen.toNat / 255) s.sourceBytes).length =
        32 * (s.srcLen.toNat / 255)

/-- R184: FDEC writes the message of every codeword after decoding and its report byte, and ends with
UncorrectableChunk, all output written, when a codeword was uncorrectable. -/
def Obligations.FdecStoresMessagesAndReport : Prop :=
  ∀ s : State, ∃ t, exec .fdec s = .next t ∧
    if s.srcLen.toNat % 255 ≠ 0 then EndedFaulting s t 6 (s.srcLen.toNat % 255)
    else if ¬ InRange s s.source then EndedFaulting s t 2 0
    else if ¬ InRange s s.destination then EndedFaulting s t 2 1
    else if ¬ InRange s s.report then EndedFaulting s t 2 2
    else if Overlapping s.source s.destination ∨ Overlapping s.source s.report ∨
        Overlapping s.destination s.report then EndedFaulting s t 3 0
    else if s.dstCap.toNat < 223 * (s.srcLen.toNat / 255) then
      EndedFaulting s t 4 (223 * (s.srcLen.toNat / 255))
    else if s.auxCap.toNat < s.srcLen.toNat / 255 then
      EndedFaulting s t 9 (s.srcLen.toNat / 255)
    else
      StoredTwice s t
        s.dst.toNat ((List.range (s.srcLen.toNat / 255)).flatMap fun c =>
          decodedMessage s.cfg.primPoly (codewordAt s.sourceBytes c))
        s.aux.toNat ((List.range (s.srcLen.toNat / 255)).map fun c =>
          reportByte s.cfg.primPoly (codewordAt s.sourceBytes c)) ∧
      match firstUncorrectable s.cfg.primPoly (s.srcLen.toNat / 255) s.sourceBytes with
      | none =>
        EndedNormally s t (223 * (s.srcLen.toNat / 255))
          (((List.range (s.srcLen.toNat / 255)).map fun c =>
            correctedSymbols s.cfg.primPoly (codewordAt s.sourceBytes c)).sum)
      | some c =>
        EndedUncorrectable s t c (223 * (s.srcLen.toNat / 255))
          (((List.range (s.srcLen.toNat / 255)).map fun c =>
            correctedSymbols s.cfg.primPoly (codewordAt s.sourceBytes c)).sum)

/-- R185: a report byte is `0x00 .. 0x10`, the symbols corrected, or 0xFF, uncorrectable. -/
def Obligations.ReportBytesAreCountsOrTheMark : Prop :=
  ∀ (poly : BitVec 9) (r : List Byte),
    (∀ cw e, decodeCW poly r = .corrected cw e →
      e ≤ 16 ∧ (reportByte poly r).toNat = e) ∧
    (decodeCW poly r = .uncorrectable → reportByte poly r = 0xFF)

/-- R173: the encoder is systematic and its output is a codeword: 255 bytes, zero at every root. -/
def Obligations.RsEncodeGivesASystematicCodeword : Prop :=
  ∀ poly : BitVec 9, gfprimitive poly = true → ∀ d : List Byte, d.length = 223 →
    (rsEncode poly d).take 223 = d ∧ IsCodeword poly (rsEncode poly d)

/-- R174: the encoder is linear. -/
def Obligations.RsEncodeIsLinear : Prop :=
  ∀ (poly : BitVec 9) (a b : List Byte), a.length = 223 → b.length = 223 →
    rsEncode poly (List.zipWith gfadd a b) =
      List.zipWith gfadd (rsEncode poly a) (rsEncode poly b)

/-- R177: the syndrome of a word with the single byte `v` at index `i`. -/
def Obligations.SyndromeOfASingleError : Prop :=
  ∀ poly : BitVec 9, gfprimitive poly = true → ∀ (i j : Nat) (v : Byte), i < 255 → j < 32 →
    (syndrome poly ((List.replicate 255 0).set i v)).getD j 0 =
      gfmul poly v (gfalphaPow poly ((j + 1) * (254 - i)))

/-- R180, one half: what the decoder returns as corrected is a codeword at that distance, at most
16. -/
def Obligations.DecodeReturnsACodewordWithinSixteen : Prop :=
  ∀ (poly : BitVec 9) (r cw : List Byte) (e : Nat), r.length = 255 →
    decodeCW poly r = .corrected cw e → IsCodeword poly cw ∧ dist r cw = e ∧ e ≤ 16

/-- R180: `DecodeCW(r) = Corrected(r, 0)` iff `r` is a codeword. -/
def Obligations.DecodeLeavesExactlyTheCodewordsAlone : Prop :=
  ∀ (poly : BitVec 9) (r : List Byte), r.length = 255 →
    (decodeCW poly r = .corrected r 0 ↔ IsCodeword poly r)

/-- R180: the decoder is the bounded-distance decoder of radius 16. -/
def Obligations.DecodeIsBoundedDistanceDecoding : Prop :=
  ∀ poly : BitVec 9, gfprimitive poly = true → ∀ r : List Byte, r.length = 255 →
    (∀ cw e, decodeCW poly r = .corrected cw e ↔
      IsCodeword poly cw ∧ dist r cw = e ∧ e ≤ 16) ∧
    (decodeCW poly r = .uncorrectable ↔ ∀ cw, IsCodeword poly cw → 16 < dist r cw)

/-- R173, R177 (95 part 4, property 5): FSYN of what FENC wrote finds every syndrome zero. -/
def Obligations.FsynOfFencOutputIsZero : Prop :=
  ∀ s t u : State, gfprimitive s.cfg.primPoly = true → exec .fenc s = .next t →
    t.status = 0x00000002 → u.cfg = t.cfg → u.mem = t.mem → u.src = t.dst →
    u.srcLen = t.resLen → PairPasses u → 32 * t.resAux.toNat ≤ u.dstCap.toNat →
    ∃ v, exec .fsyn u = .next v ∧ EndedNormally u v (32 * t.resAux.toNat) 0 ∧
      ∀ a, Within u.dst (32 * t.resAux.toNat) a → v.mem.read a = 0

/-- R181 (95 part 4, property 6): FDEC of what FENC wrote, with at most 16 bytes of each codeword
changed on the way to its source region, gives the source bytes followed by the zero padding; RES_AUX
is the number of changed bytes and each report byte that of its codeword. `changed c` counts the bytes
of codeword `c` at which FDEC's source differs from FENC's output. -/
def Obligations.FdecOfFencOutputReturnsTheSource : Prop :=
  ∀ s t u : State, gfprimitive s.cfg.primPoly = true → exec .fenc s = .next t →
    t.status = 0x00000002 → u.cfg = t.cfg → u.srcLen = t.resLen → ChecksPass u .fdec →
    let changed : Nat → Nat := fun c => (List.range 255).countP fun i =>
      decide (u.mem.read (u.src.toNat + 255 * c + i) ≠ t.mem.read (t.dst.toNat + 255 * c + i))
    (∀ c, c < t.resAux.toNat → changed c ≤ 16) →
    ∃ v, exec .fdec u = .next v ∧
      EndedNormally u v (223 * t.resAux.toNat) ((List.range t.resAux.toNat).map changed).sum ∧
      (∀ i, i < 223 * t.resAux.toNat → v.mem.read (u.dst.toNat + i) =
        if i < s.srcLen.toNat then s.mem.read (s.src.toNat + i) else 0) ∧
      ∀ c, c < t.resAux.toNat → (v.mem.read (u.aux.toNat + c)).toNat = changed c

/-- R178, R180 (95 part 4, property 7): FDEC ends without fault and corrects nothing iff FSYN finds
no nonzero syndrome on the same source; it then outputs the message bytes as received and reports 0
for each codeword. -/
def Obligations.FdecCorrectsNothingIffFsynIsClean : Prop :=
  ∀ s u t v : State, u.cfg = s.cfg → u.mem = s.mem → u.src = s.src → u.srcLen = s.srcLen →
    ChecksPass s .fsyn → ChecksPass u .fdec → exec .fsyn s = .next t → exec .fdec u = .next v →
    (v.status = 0x00000002 ∧ v.resAux = 0 ↔ t.resAux = 0) ∧
    (t.resAux = 0 → ∀ c, c < u.srcLen.toNat / 255 → v.mem.read (u.aux.toNat + c) = 0 ∧
      ∀ i, i < 223 →
        v.mem.read (u.dst.toNat + 223 * c + i) = u.mem.read (u.src.toNat + 255 * c + i))

/-! ## The escape unit (44_escape) -/

/-- R205: ECNT. -/
def Obligations.EcntCountsTheReservedBytes : Prop :=
  ∀ s : State, ∃ t, exec .ecnt s = .next t ∧
    if ¬ InRange s s.source then EndedFaulting s t 2 0
    else EndedNormally s t (s.sourceBytes.countP fun b => decide (b = 0xAB ∨ b = 0x54)) 0 ∧
      t.mem = s.mem

/-- R206: ESC. -/
def Obligations.EscStoresTheEscapedStream : Prop :=
  ∀ s : State, ∃ t, exec .esc s = .next t ∧
    if ¬ InRange s s.source then EndedFaulting s t 2 0
    else if ¬ InRange s s.destination then EndedFaulting s t 2 1
    else if Overlapping s.source s.destination then EndedFaulting s t 3 0
    else if s.srcLen.toNat + escCount s.sourceBytes > 2 ^ 32 - 1 then EndedFaulting s t 5 0
    else if s.dstCap.toNat < s.srcLen.toNat + escCount s.sourceBytes then
      EndedFaulting s t 4 (s.srcLen.toNat + escCount s.sourceBytes)
    else
      EndedNormally s t (s.srcLen.toNat + escCount s.sourceBytes) (escCount s.sourceBytes) ∧
      Stored s t s.dst.toNat (escapeBytes s.sourceBytes) ∧
      (escapeBytes s.sourceBytes).length = s.srcLen.toNat + escCount s.sourceBytes

/-- R207: UNESC; malformed input is reported in preference to a small destination. -/
def Obligations.UnescStoresTheUnescapedStream : Prop :=
  ∀ s : State, ∃ t, exec .unesc s = .next t ∧
    if ¬ InRange s s.source then EndedFaulting s t 2 0
    else if ¬ InRange s s.destination then EndedFaulting s t 2 1
    else if Overlapping s.source s.destination then EndedFaulting s t 3 0
    else
      match unescapeBytes s.sourceBytes with
      | .malformed i => EndedFaulting s t 8 i
      | .ok out seqs =>
        if s.dstCap.toNat < out.length then EndedFaulting s t 4 out.length
        else EndedNormally s t out.length seqs ∧ Stored s t s.dst.toNat out ∧
          out.length = s.srcLen.toNat - seqs ∧ seqs ≤ s.srcLen.toNat

/-- R202, R201: `Escape` replaces each reserved byte by its two-byte sequence, and its length grows by
the count. -/
def Obligations.EscapeReplacesReservedBytes : Prop :=
  (∀ bytes : List Byte, (escapeBytes bytes).length = bytes.length + escCount bytes) ∧
  escapeBytes [0xAB] = [0x54, 0x9F] ∧ escapeBytes [0x54] = [0x54, 0x54] ∧
  (∀ b : Byte, b ≠ 0xAB → b ≠ 0x54 → escapeBytes [b] = [b]) ∧
  (∀ a b : List Byte, escapeBytes (a ++ b) = escapeBytes a ++ escapeBytes b) ∧
  (∀ bytes : List Byte, escCount bytes =
    (bytes.filter fun b => decide (b = 0xAB ∨ b = 0x54)).length) ∧
  ∀ bytes : List Byte, escCount bytes ≤ bytes.length

/-- R204, all six laws of the codec. In (b) and (c) a block is one of the two sequences or one byte
that is not reserved. -/
def Obligations.EscapeCodecLaws : Prop :=
  let block : List Byte → Prop := fun blk =>
    blk = [0x54, 0x9F] ∨ blk = [0x54, 0x54] ∨ ∃ b : Byte, b ≠ 0xAB ∧ b ≠ 0x54 ∧ blk = [b]
  (∀ bytes, unescapeBytes (escapeBytes bytes) = .ok bytes (escCount bytes)) ∧
  (∀ bytes, ¬ (0xAB : Byte) ∈ escapeBytes bytes ∧
    ∃ blocks, escapeBytes bytes = List.flatten blocks ∧ ∀ blk ∈ blocks, block blk) ∧
  (∀ a b, escapeBytes a = escapeBytes b → a = b) ∧
  (∀ p q : List (List Byte), (∀ blk ∈ p, block blk) → (∀ blk ∈ q, block blk) →
    p.flatten = q.flatten → p = q) ∧
  (∀ bytes, bytes.length ≤ (escapeBytes bytes).length ∧
    ((escapeBytes bytes).length = bytes.length ↔
      ∀ b ∈ bytes, b ≠ (0xAB : Byte) ∧ b ≠ (0x54 : Byte))) ∧
  (unescapeBytes [0xAB] = .ok [0xAB] 0 ∧ escapeBytes [0xAB] ≠ [0xAB]) ∧
  (∀ a b, escapeBytes (a ++ b) = escapeBytes a ++ escapeBytes b) ∧
  ∃ a b out seqs i, unescapeBytes (a ++ b) = .ok out seqs ∧ unescapeBytes a = .malformed i

/-- R203: `Unescape` reports index `i` as malformed iff the scan reaches `i` (the bytes before it
unescape), an ESCAPE byte stands there, and it is the last byte or is followed by neither ESCAPE_SYNC
nor ESCAPE. Any byte but ESCAPE at a scan position is copied, a bare SYNC or ESCAPE_SYNC included, and
each of the two sequences there gives its byte and counts one. -/
def Obligations.MalformedIndexIsABadEscape : Prop :=
  (∀ (bytes : List Byte) (i : Nat), unescapeBytes bytes = .malformed i ↔
    i < bytes.length ∧ bytes.getD i 0 = 0x54 ∧
      (i + 1 = bytes.length ∨
        (bytes.getD (i + 1) 0 ≠ 0x9F ∧ bytes.getD (i + 1) 0 ≠ 0x54)) ∧
      ∃ out seqs, unescapeBytes (bytes.take i) = .ok out seqs) ∧
  unescapeBytes [] = .ok [] 0 ∧
  (∀ (bytes out : List Byte) (seqs : Nat), unescapeBytes bytes = .ok out seqs →
    (∀ b : Byte, b ≠ 0x54 → unescapeBytes (bytes ++ [b]) = .ok (out ++ [b]) seqs) ∧
    unescapeBytes (bytes ++ [0xAB]) = .ok (out ++ [0xAB]) seqs ∧
    unescapeBytes (bytes ++ [0x54, 0x9F]) = .ok (out ++ [0xAB]) (seqs + 1) ∧
    unescapeBytes (bytes ++ [0x54, 0x54]) = .ok (out ++ [0x54]) (seqs + 1)) ∧
  ∀ (bytes out : List Byte) (seqs : Nat), unescapeBytes bytes = .ok out seqs →
    out.length + seqs = bytes.length

/-- R205, R206 (95 part 4, property 3): ESC's RES_LEN is SRC_LEN plus ECNT's RES_LEN on the same
source. -/
def Obligations.EscLengthIsSourcePlusEcnt : Prop :=
  ∀ s u t v : State, u.cfg = s.cfg → u.mem = s.mem → u.src = s.src → u.srcLen = s.srcLen →
    exec .ecnt u = .next v → exec .esc s = .next t → t.status = 0x00000002 →
    v.status = 0x00000002 ∧ t.resLen.toNat = s.srcLen.toNat + v.resLen.toNat ∧
      t.resAux = v.resLen

/-- R204 (95 part 4, property 1), on the machine: UNESC of what ESC wrote restores the source bytes
and reports as many sequences. -/
def Obligations.UnescOfEscOutputRestoresTheSource : Prop :=
  ∀ s t u : State, exec .esc s = .next t → t.status = 0x00000002 → u.cfg = t.cfg →
    u.mem = t.mem → u.src = t.dst → u.srcLen = t.resLen → PairPasses u →
    s.srcLen.toNat ≤ u.dstCap.toNat →
    ∃ v, exec .unesc u = .next v ∧ EndedNormally u v s.srcLen.toNat t.resAux.toNat ∧
      ∀ i, i < s.srcLen.toNat → v.mem.read (u.dst.toNat + i) = s.mem.read (s.src.toNat + i)

/-! ## Regions (20_memory) -/

/-- R68, R69: the range and overlap tests of the block, and that two regions overlap exactly when
they share an address. -/
def Obligations.RegionTestsMeetTheirRules : Prop :=
  ∀ (s : State) (r1 r2 : Region),
    (r1.inRange s.cfg.memSize = true ↔
      r1.len.toNat = 0 ∨ r1.base.toNat + r1.len.toNat ≤ s.cfg.memSize) ∧
    (r1.overlaps r2 = true ↔
      r1.len.toNat > 0 ∧ r2.len.toNat > 0 ∧ r1.base.toNat < r2.base.toNat + r2.len.toNat ∧
        r2.base.toNat < r1.base.toNat + r1.len.toNat) ∧
    (r1.overlaps r2 = true ↔ ∃ a, r1.has a = true ∧ r2.has a = true)
end

