-- ==== Sys2Proof/Laws/Codec.lean ====
section
/-! SUPPORT. The lengths of what the digest and the Reed-Solomon functions return. -/

namespace Sys2Proof.Machine

set_option Elab.async false

/-! ### The digest -/

@[simp] theorem length_leBytes (n v : Nat) : (leBytes n v).length = n := by
  induction n generalizing v with
  | zero => rfl
  | succ n ih => simp [leBytes, ih]

/-- A digest is 16 bytes, whichever the function (41_hash R153). -/
@[simp] theorem length_digestFn (fn : DigestFn) (m : List Byte) :
    (digestFn fn m).length = Config.digestBytes := by
  cases fn with
  | md5 => simp [digestFn, md5]; rfl
  | given digests k => simp [digestFn]
  | other k => simp [digestFn]

/-! ### The splitter -/

/-- Every chunk is 223 bytes (43_fec R170). -/
@[simp] theorem length_padChunk (bytes : List Byte) : (padChunk bytes).length = Config.rsK := by
  simp only [padChunk, List.length_append, List.length_take, List.length_replicate]
  omega

@[simp] theorem length_splitChunks (k : Nat) (bytes : List Byte) :
    (splitChunks k bytes).length = k := by
  induction k generalizing bytes with
  | zero => rfl
  | succ k ih => simp [splitChunks, ih]

theorem length_of_mem_splitChunks {k : Nat} {bytes c : List Byte} (h : c ∈ splitChunks k bytes) :
    c.length = Config.rsK := by
  induction k generalizing bytes with
  | zero => simp [splitChunks] at h
  | succ k ih =>
    simp only [splitChunks, List.mem_cons] at h
    rcases h with rfl | h
    · exact length_padChunk _
    · exact ih h

@[simp] theorem length_splitCodewords (k : Nat) (bytes : List Byte) :
    (splitCodewords k bytes).length = k := by
  induction k generalizing bytes with
  | zero => rfl
  | succ k ih => simp [splitCodewords, ih]

/-- Every codeword of a source of `k` codewords is 255 bytes (20_memory R65). -/
theorem length_of_mem_splitCodewords {k : Nat} {bytes r : List Byte}
    (hlen : Config.rsN * k ≤ bytes.length) (h : r ∈ splitCodewords k bytes) :
    r.length = Config.rsN := by
  induction k generalizing bytes with
  | zero => simp [splitCodewords] at h
  | succ k ih =>
    simp only [splitCodewords, List.mem_cons] at h
    simp only [Config.rsN] at hlen
    rcases h with rfl | h
    · simp only [List.length_take, Config.rsN]; omega
    · exact ih (by simp only [List.length_drop, Config.rsN]; omega) h

/-! ### The encoder and the syndrome -/

theorem length_polyMulRoot (poly : BitVec 9) (r : Byte) (p : List Byte) :
    (polyMulRoot poly r p).length = p.length + 1 := by
  simp [polyMulRoot]

/-- The generator has degree 32: 33 coefficients (40_arith_gf256 R129). -/
@[simp] theorem length_generator (poly : BitVec 9) : (generator poly).length = Config.nroots + 1 := by
  have key : ∀ (es : List Nat) (p : List Byte),
      (es.foldl (fun p e => polyMulRoot poly (gfalphaPow poly e) p) p).length =
        p.length + es.length := by
    intro es
    induction es with
    | nil => intro p; rfl
    | cons e es ih =>
      intro p
      rw [List.foldl_cons, ih, length_polyMulRoot, List.length_cons]
      omega
  simp [generator, key, rootExponents]
  omega

@[simp] theorem length_generatorTaps (poly : BitVec 9) :
    (generatorTaps poly).length = Config.nroots := by
  simp [generatorTaps]

theorem length_parityStep (poly : BitVec 9) {gs par : List Byte} (d : Byte)
    (hg : gs.length = Config.nroots) (hp : par.length = Config.nroots) :
    (parityStep poly gs par d).length = Config.nroots := by
  simp only [parityStep, List.length_zipWith, List.length_append, List.length_tail, hg, hp,
    List.length_cons, List.length_nil, Config.nroots]
  omega

/-- A message has 32 parity bytes (43_fec R173). -/
theorem length_parityOf (poly : BitVec 9) {gs : List Byte} (d : List Byte)
    (hg : gs.length = Config.nroots) : (parityOf poly gs d).length = Config.nroots := by
  have key : ∀ (d par : List Byte), par.length = Config.nroots →
      (d.foldl (parityStep poly gs) par).length = Config.nroots := by
    intro d
    induction d with
    | nil => intro par h; exact h
    | cons b d ih => intro par h; exact ih _ (length_parityStep poly b hg h)
  exact key d _ (by simp)

/-- The encoder adds 32 bytes to its message (43_fec R173). -/
@[simp] theorem length_rsEncode (poly : BitVec 9) (d : List Byte) :
    (rsEncode poly d).length = d.length + Config.nroots := by
  simp [rsEncode, length_parityOf]

/-- Lists of one length, joined. -/
theorem length_flatten_of_all {α : Type} {n : Nat} {ls : List (List α)}
    (h : ∀ l ∈ ls, l.length = n) : ls.flatten.length = n * ls.length := by
  induction ls with
  | nil => simp
  | cons l ls ih =>
    rw [List.flatten_cons, List.length_append, h l List.mem_cons_self,
      ih fun x hx => h x (List.mem_cons_of_mem _ hx), List.length_cons]
    ring

/-- The FEC output is 255 bytes per chunk (43_fec R171). -/
theorem length_fecEncode (poly : BitVec 9) (src : List Byte) :
    (fecEncode poly src).length = Config.rsN * chunkCount src.length := by
  unfold fecEncode
  rw [length_flatten_of_all (n := Config.rsN)]
  · simp
  · intro l hl
    obtain ⟨c, hc, rfl⟩ := List.mem_map.1 hl
    rw [length_rsEncode, length_of_mem_splitChunks hc]
    rfl

/-- A syndrome is 32 bytes (43_fec R177). -/
@[simp] theorem length_syndrome (poly : BitVec 9) (r : List Byte) :
    (syndrome poly r).length = Config.synBytes := by
  simp [syndrome, rootExponents, Config.synBytes, Config.nroots]

/-- The syndrome output is 32 bytes per codeword (43_fec R178). -/
theorem length_fsynAll (poly : BitVec 9) (k : Nat) (src : List Byte) :
    (fsynAll poly k src).flatten.length = Config.synBytes * k := by
  rw [length_flatten_of_all (n := Config.synBytes)]
  · simp [fsynAll]
  · intro l hl
    obtain ⟨c, _, rfl⟩ := List.mem_map.1 hl
    exact length_syndrome poly c

/-! ### The decoder -/

/-- Forney's corrections keep the word's length. -/
theorem length_forneyCorrect {poly : BitVec 9} {om lam' : List Byte} {pos : List Nat}
    {r out : List Byte} (h : forneyCorrect poly om lam' pos r = some out) :
    out.length = r.length := by
  induction pos generalizing r with
  | nil => simp only [forneyCorrect, Option.some.injEq] at h; rw [h]
  | cons i pos ih =>
    simp only [forneyCorrect] at h
    split at h
    · cases h
    · split at h
      · cases h
      · simpa using ih h

/-- What a corrected word is: the received one with zero syndrome, or the word the procedure found,
with zero syndrome, at most 16 positions changed (43_fec R183). -/
theorem decodeCW_corrected {poly : BitVec 9} {r cw : List Byte} {e : Nat}
    (h : decodeCW poly r = .corrected cw e) :
    (allZero (syndrome poly r) = true ∧ cw = r ∧ e = 0) ∨
    (allZero (syndrome poly r) = false ∧ e = (bmRun poly (syndrome poly r)).len ∧
      e ≤ Config.rsT ∧
      (chienPositions poly ((bmRun poly (syndrome poly r)).cp.take (e + 1))).length = e ∧
      forneyCorrect poly
        (errorEvaluator poly (syndrome poly r) ((bmRun poly (syndrome poly r)).cp.take (e + 1)))
        (derivative ((bmRun poly (syndrome poly r)).cp.take (e + 1)))
        (chienPositions poly ((bmRun poly (syndrome poly r)).cp.take (e + 1))) r = some cw ∧
      allZero (syndrome poly cw) = true) := by
  unfold decodeCW at h
  dsimp only at h
  split at h
  · rename_i hz
    simp only [DecodeResult.corrected.injEq] at h
    exact .inl ⟨hz, h.1.symm, h.2.symm⟩
  · rename_i hz
    refine .inr ?_
    split at h
    · cases h
    · rename_i hL
      split at h
      · cases h
      · rename_i hp
        split at h
        · cases h
        · rename_i out ho
          split at h
          · rename_i hs
            simp only [DecodeResult.corrected.injEq] at h
            obtain ⟨rfl, rfl⟩ := h
            have hL' := not_or.1 hL
            exact ⟨by simpa using hz, rfl, Nat.not_lt.1 hL'.1, not_not.1 hp, ho, hs⟩
          · cases h

/-- Decoding keeps the word's length and corrects at most 16 symbols (43_fec R180). -/
theorem decodeCW_corrected_length {poly : BitVec 9} {r cw : List Byte} {e : Nat}
    (h : decodeCW poly r = .corrected cw e) : cw.length = r.length ∧ e ≤ Config.rsT := by
  rcases decodeCW_corrected h with ⟨_, rfl, rfl⟩ | ⟨_, _, he, _, hf, _⟩
  · exact ⟨rfl, by simp⟩
  · exact ⟨length_forneyCorrect hf, he⟩

/-- One codeword of FDEC: 223 bytes more, one report byte more, at most 16 symbols more
(43_fec R184). -/
theorem fdecStep_lengths (poly : BitVec 9) (run : FdecRun) (c : Nat) {r : List Byte}
    (hr : r.length = Config.rsN) :
    (fdecStep poly run c r).out.length = run.out.length + Config.rsK ∧
    (fdecStep poly run c r).report.length = run.report.length + 1 ∧
    (fdecStep poly run c r).total ≤ run.total + Config.rsT := by
  unfold fdecStep
  cases hd : decodeCW poly r with
  | uncorrectable => simp [hr, Config.rsK, Config.rsN]
  | corrected cw e =>
    obtain ⟨hl, he⟩ := decodeCW_corrected_length hd
    simp [hl, hr, Config.rsK, Config.rsN, he]

/-- The lengths of what FDEC's loop returns. -/
theorem fdecLoop_lengths (poly : BitVec 9) (run : FdecRun) (c : Nat) (rs : List (List Byte))
    (hr : ∀ r ∈ rs, r.length = Config.rsN) :
    (fdecLoop poly run c rs).out.length = run.out.length + Config.rsK * rs.length ∧
    (fdecLoop poly run c rs).report.length = run.report.length + rs.length ∧
    (fdecLoop poly run c rs).total ≤ run.total + Config.rsT * rs.length := by
  induction rs generalizing run c with
  | nil => simp [fdecLoop]
  | cons r rs ih =>
    obtain ⟨h1, h2, h3⟩ := fdecStep_lengths poly run c (hr r List.mem_cons_self)
    obtain ⟨i1, i2, i3⟩ := ih (fdecStep poly run c r) (c + 1)
      fun x hx => hr x (List.mem_cons_of_mem _ hx)
    simp only [fdecLoop, List.length_cons]
    refine ⟨?_, ?_, ?_⟩
    · rw [i1, h1]; ring
    · rw [i2, h2]; ring
    · have : Config.rsT * (rs.length + 1) = Config.rsT + Config.rsT * rs.length := by ring
      omega

/-- FDEC outputs 223 bytes and one report byte per codeword, and corrects at most 16 symbols each
(43_fec R184, R185). -/
theorem fdecAll_lengths (poly : BitVec 9) (k : Nat) (src : List Byte)
    (h : Config.rsN * k ≤ src.length) :
    (fdecAll poly k src).out.length = Config.rsK * k ∧
    (fdecAll poly k src).report.length = k ∧
    (fdecAll poly k src).total ≤ Config.rsT * k := by
  have := fdecLoop_lengths poly { out := [], report := [], total := 0, firstBad := none } 0
    (splitCodewords k src) fun r hr => length_of_mem_splitCodewords h hr
  simpa [fdecAll] using this

end Sys2Proof.Machine
end

