-- ==== Sys2Proof/Laws/EndOfRun.lean ====
section
/-! SUPPORT. The record of a run: it changes no state, and what it has seen it keeps
(70_reset_and_hazards R269). -/

namespace Sys2Proof.Machine

set_option Elab.async false

@[simp] theorem RunRecord.note_endings (r : RunRecord) (s t : State) :
    (r.note s t).endings = if s.busy && t.done then r.endings ++ [t.status] else r.endings := rfl

@[simp] theorem RunRecord.note_breached (r : RunRecord) (s t : State) :
    (r.note s t).breached = (r.breached || s.script.head?.any s.breaches) := rfl

@[simp] theorem RunRecord.note_writable (r : RunRecord) (s t : State) :
    (r.note s t).writable =
      if !s.busy && t.busy then r.writable ++ t.windows.head?.toList.flatMap Window.outputs
      else r.writable := rfl

@[simp] theorem runRecorded_zero (s : State) (r : RunRecord) :
    runRecorded 0 s r = .next (s, r) := rfl

theorem runRecorded_succ {k : Nat} {s t : State} {r : RunRecord} (h : step s = .next t) :
    runRecorded (k + 1) s r = runRecorded k t (r.note s t) := by
  rw [runRecorded, h]

@[simp] theorem run_zero (s : State) : Host.Core.run Sys2Proof.core 0 s = .next s := rfl

theorem run_succ {k : Nat} {s t : State} (h : step s = .next t) :
    Host.Core.run Sys2Proof.core (k + 1) s = Host.Core.run Sys2Proof.core k t := by
  have hc : Sys2Proof.core.step s = .next t := h
  simp only [Host.Core.run, hc]

/-- A recorded run is the run of the machine. -/
theorem run_of_runRecorded {k : Nat} {s t : State} {r r' : RunRecord}
    (h : runRecorded k s r = .next (t, r')) : Host.Core.run Sys2Proof.core k s = .next t := by
  induction k generalizing s r with
  | zero =>
    simp only [runRecorded_zero, Host.Outcome.next.injEq, Prod.mk.injEq] at h
    rw [run_zero, h.1]
  | succ k ih =>
    rw [runRecorded] at h
    split at h
    · rename_i u hu
      rw [run_succ hu]
      exact ih h
    · cases h
    · cases h

/-- A breach of the busy window, once seen, stays in the record. -/
theorem breached_runRecorded {k : Nat} {s t : State} {r r' : RunRecord}
    (hb : r.breached = true) (h : runRecorded k s r = .next (t, r')) : r'.breached = true := by
  induction k generalizing s r with
  | zero =>
    simp only [runRecorded_zero, Host.Outcome.next.injEq, Prod.mk.injEq] at h
    rw [← h.2, hb]
  | succ k ih =>
    rw [runRecorded] at h
    split at h
    · exact ih (by rw [RunRecord.note_breached, hb, Bool.true_or]) h
    · cases h
    · cases h

/-- A run that broke the busy window has gone wrong, whatever the script expects. -/
theorem RunRecord.goneWrong_of_breached {r : RunRecord} (h : r.breached = true)
    (expected : List Nat) : r.goneWrong expected = true := by
  rw [RunRecord.goneWrong, h, Bool.true_or]

/-- A run without a breach has gone wrong iff some command ended with an unexpected fault. -/
theorem RunRecord.goneWrong_iff {r : RunRecord} (h : r.breached = false) (expected : List Nat) :
    r.goneWrong expected = true ↔
      ∃ e ∈ r.endings.zipIdx, e.1.getLsbD 2 = true ∧ e.2 ∉ expected := by
  simp [RunRecord.goneWrong, h]

end Sys2Proof.Machine
end

