-- ==== Sys2Proof/Laws/State.lean ====
section
/-! SUPPORT. One lemma per field per state update: no later proof unfolds a record update. -/

namespace Sys2Proof.Machine

set_option Elab.async false

/-! ### `State.store` -/

@[simp] theorem State.store_status (s : State) (base : Word) (v : List Byte) : (s.store base v).status = s.status := rfl
@[simp] theorem State.store_src (s : State) (base : Word) (v : List Byte) : (s.store base v).src = s.src := rfl
@[simp] theorem State.store_srcLen (s : State) (base : Word) (v : List Byte) : (s.store base v).srcLen = s.srcLen := rfl
@[simp] theorem State.store_dst (s : State) (base : Word) (v : List Byte) : (s.store base v).dst = s.dst := rfl
@[simp] theorem State.store_dstCap (s : State) (base : Word) (v : List Byte) : (s.store base v).dstCap = s.dstCap := rfl
@[simp] theorem State.store_aux (s : State) (base : Word) (v : List Byte) : (s.store base v).aux = s.aux := rfl
@[simp] theorem State.store_auxCap (s : State) (base : Word) (v : List Byte) : (s.store base v).auxCap = s.auxCap := rfl
@[simp] theorem State.store_resLen (s : State) (base : Word) (v : List Byte) : (s.store base v).resLen = s.resLen := rfl
@[simp] theorem State.store_resAux (s : State) (base : Word) (v : List Byte) : (s.store base v).resAux = s.resAux := rfl
@[simp] theorem State.store_errInfo (s : State) (base : Word) (v : List Byte) : (s.store base v).errInfo = s.errInfo := rfl
@[simp] theorem State.store_pending (s : State) (base : Word) (v : List Byte) : (s.store base v).pending = s.pending := rfl
@[simp] theorem State.store_mem (s : State) (base : Word) (v : List Byte) : (s.store base v).mem = s.mem.writeBytes base.toNat v := rfl
@[simp] theorem State.store_cfg (s : State) (base : Word) (v : List Byte) : (s.store base v).cfg = s.cfg := rfl
@[simp] theorem State.store_script (s : State) (base : Word) (v : List Byte) : (s.store base v).script = s.script := rfl
@[simp] theorem State.store_lastRead (s : State) (base : Word) (v : List Byte) : (s.store base v).lastRead = s.lastRead := rfl
@[simp] theorem State.store_windows (s : State) (base : Word) (v : List Byte) : (s.store base v).windows = s.windows := rfl
@[simp] theorem State.store_broken (s : State) (base : Word) (v : List Byte) : (s.store base v).broken = s.broken := rfl
@[simp] theorem State.store_freeCount (s : State) (base : Word) (v : List Byte) : (s.store base v).freeCount = s.freeCount := rfl

/-! ### `State.finish` -/

@[simp] theorem State.finish_status (s : State) (len aux : Nat) : (s.finish len aux).status = statusDone := rfl
@[simp] theorem State.finish_src (s : State) (len aux : Nat) : (s.finish len aux).src = s.src := rfl
@[simp] theorem State.finish_srcLen (s : State) (len aux : Nat) : (s.finish len aux).srcLen = s.srcLen := rfl
@[simp] theorem State.finish_dst (s : State) (len aux : Nat) : (s.finish len aux).dst = s.dst := rfl
@[simp] theorem State.finish_dstCap (s : State) (len aux : Nat) : (s.finish len aux).dstCap = s.dstCap := rfl
@[simp] theorem State.finish_aux (s : State) (len aux : Nat) : (s.finish len aux).aux = s.aux := rfl
@[simp] theorem State.finish_auxCap (s : State) (len aux : Nat) : (s.finish len aux).auxCap = s.auxCap := rfl
@[simp] theorem State.finish_resLen (s : State) (len aux : Nat) : (s.finish len aux).resLen = toWord len := rfl
@[simp] theorem State.finish_resAux (s : State) (len aux : Nat) : (s.finish len aux).resAux = toWord aux := rfl
@[simp] theorem State.finish_errInfo (s : State) (len aux : Nat) : (s.finish len aux).errInfo = 0 := rfl
@[simp] theorem State.finish_pending (s : State) (len aux : Nat) : (s.finish len aux).pending = s.pending := rfl
@[simp] theorem State.finish_mem (s : State) (len aux : Nat) : (s.finish len aux).mem = s.mem := rfl
@[simp] theorem State.finish_cfg (s : State) (len aux : Nat) : (s.finish len aux).cfg = s.cfg := rfl
@[simp] theorem State.finish_script (s : State) (len aux : Nat) : (s.finish len aux).script = s.script := rfl
@[simp] theorem State.finish_lastRead (s : State) (len aux : Nat) : (s.finish len aux).lastRead = s.lastRead := rfl
@[simp] theorem State.finish_windows (s : State) (len aux : Nat) : (s.finish len aux).windows = s.windows := rfl
@[simp] theorem State.finish_broken (s : State) (len aux : Nat) : (s.finish len aux).broken = s.broken := rfl
@[simp] theorem State.finish_freeCount (s : State) (len aux : Nat) : (s.finish len aux).freeCount = s.freeCount := rfl

/-! ### `State.raiseKeeping` -/

@[simp] theorem State.raiseKeeping_status (s : State) (f : FaultKind) (info len aux : Nat) : (s.raiseKeeping f info len aux).status = statusFault f.code := rfl
@[simp] theorem State.raiseKeeping_src (s : State) (f : FaultKind) (info len aux : Nat) : (s.raiseKeeping f info len aux).src = s.src := rfl
@[simp] theorem State.raiseKeeping_srcLen (s : State) (f : FaultKind) (info len aux : Nat) : (s.raiseKeeping f info len aux).srcLen = s.srcLen := rfl
@[simp] theorem State.raiseKeeping_dst (s : State) (f : FaultKind) (info len aux : Nat) : (s.raiseKeeping f info len aux).dst = s.dst := rfl
@[simp] theorem State.raiseKeeping_dstCap (s : State) (f : FaultKind) (info len aux : Nat) : (s.raiseKeeping f info len aux).dstCap = s.dstCap := rfl
@[simp] theorem State.raiseKeeping_aux (s : State) (f : FaultKind) (info len aux : Nat) : (s.raiseKeeping f info len aux).aux = s.aux := rfl
@[simp] theorem State.raiseKeeping_auxCap (s : State) (f : FaultKind) (info len aux : Nat) : (s.raiseKeeping f info len aux).auxCap = s.auxCap := rfl
@[simp] theorem State.raiseKeeping_resLen (s : State) (f : FaultKind) (info len aux : Nat) : (s.raiseKeeping f info len aux).resLen = toWord len := rfl
@[simp] theorem State.raiseKeeping_resAux (s : State) (f : FaultKind) (info len aux : Nat) : (s.raiseKeeping f info len aux).resAux = toWord aux := rfl
@[simp] theorem State.raiseKeeping_errInfo (s : State) (f : FaultKind) (info len aux : Nat) : (s.raiseKeeping f info len aux).errInfo = toWord info := rfl
@[simp] theorem State.raiseKeeping_pending (s : State) (f : FaultKind) (info len aux : Nat) : (s.raiseKeeping f info len aux).pending = s.pending := rfl
@[simp] theorem State.raiseKeeping_mem (s : State) (f : FaultKind) (info len aux : Nat) : (s.raiseKeeping f info len aux).mem = s.mem := rfl
@[simp] theorem State.raiseKeeping_cfg (s : State) (f : FaultKind) (info len aux : Nat) : (s.raiseKeeping f info len aux).cfg = s.cfg := rfl
@[simp] theorem State.raiseKeeping_script (s : State) (f : FaultKind) (info len aux : Nat) : (s.raiseKeeping f info len aux).script = s.script := rfl
@[simp] theorem State.raiseKeeping_lastRead (s : State) (f : FaultKind) (info len aux : Nat) : (s.raiseKeeping f info len aux).lastRead = s.lastRead := rfl
@[simp] theorem State.raiseKeeping_windows (s : State) (f : FaultKind) (info len aux : Nat) : (s.raiseKeeping f info len aux).windows = s.windows := rfl
@[simp] theorem State.raiseKeeping_broken (s : State) (f : FaultKind) (info len aux : Nat) : (s.raiseKeeping f info len aux).broken = s.broken := rfl
@[simp] theorem State.raiseKeeping_freeCount (s : State) (f : FaultKind) (info len aux : Nat) : (s.raiseKeeping f info len aux).freeCount = s.freeCount := rfl

/-! ### `State.raise` -/

@[simp] theorem State.raise_status (s : State) (f : FaultKind) (info : Nat) : (s.raise f info).status = statusFault f.code := rfl
@[simp] theorem State.raise_src (s : State) (f : FaultKind) (info : Nat) : (s.raise f info).src = s.src := rfl
@[simp] theorem State.raise_srcLen (s : State) (f : FaultKind) (info : Nat) : (s.raise f info).srcLen = s.srcLen := rfl
@[simp] theorem State.raise_dst (s : State) (f : FaultKind) (info : Nat) : (s.raise f info).dst = s.dst := rfl
@[simp] theorem State.raise_dstCap (s : State) (f : FaultKind) (info : Nat) : (s.raise f info).dstCap = s.dstCap := rfl
@[simp] theorem State.raise_aux (s : State) (f : FaultKind) (info : Nat) : (s.raise f info).aux = s.aux := rfl
@[simp] theorem State.raise_auxCap (s : State) (f : FaultKind) (info : Nat) : (s.raise f info).auxCap = s.auxCap := rfl
@[simp] theorem State.raise_resLen (s : State) (f : FaultKind) (info : Nat) : (s.raise f info).resLen = 0 := rfl
@[simp] theorem State.raise_resAux (s : State) (f : FaultKind) (info : Nat) : (s.raise f info).resAux = 0 := rfl
@[simp] theorem State.raise_errInfo (s : State) (f : FaultKind) (info : Nat) : (s.raise f info).errInfo = toWord info := rfl
@[simp] theorem State.raise_pending (s : State) (f : FaultKind) (info : Nat) : (s.raise f info).pending = s.pending := rfl
@[simp] theorem State.raise_mem (s : State) (f : FaultKind) (info : Nat) : (s.raise f info).mem = s.mem := rfl
@[simp] theorem State.raise_cfg (s : State) (f : FaultKind) (info : Nat) : (s.raise f info).cfg = s.cfg := rfl
@[simp] theorem State.raise_script (s : State) (f : FaultKind) (info : Nat) : (s.raise f info).script = s.script := rfl
@[simp] theorem State.raise_lastRead (s : State) (f : FaultKind) (info : Nat) : (s.raise f info).lastRead = s.lastRead := rfl
@[simp] theorem State.raise_windows (s : State) (f : FaultKind) (info : Nat) : (s.raise f info).windows = s.windows := rfl
@[simp] theorem State.raise_broken (s : State) (f : FaultKind) (info : Nat) : (s.raise f info).broken = s.broken := rfl
@[simp] theorem State.raise_freeCount (s : State) (f : FaultKind) (info : Nat) : (s.raise f info).freeCount = s.freeCount := rfl

/-! ### `State.startCommand` -/

@[simp] theorem State.startCommand_status (s : State) (w : Word) : (s.startCommand w).status = statusBusy := rfl
@[simp] theorem State.startCommand_src (s : State) (w : Word) : (s.startCommand w).src = s.src := rfl
@[simp] theorem State.startCommand_srcLen (s : State) (w : Word) : (s.startCommand w).srcLen = s.srcLen := rfl
@[simp] theorem State.startCommand_dst (s : State) (w : Word) : (s.startCommand w).dst = s.dst := rfl
@[simp] theorem State.startCommand_dstCap (s : State) (w : Word) : (s.startCommand w).dstCap = s.dstCap := rfl
@[simp] theorem State.startCommand_aux (s : State) (w : Word) : (s.startCommand w).aux = s.aux := rfl
@[simp] theorem State.startCommand_auxCap (s : State) (w : Word) : (s.startCommand w).auxCap = s.auxCap := rfl
@[simp] theorem State.startCommand_resLen (s : State) (w : Word) : (s.startCommand w).resLen = 0 := rfl
@[simp] theorem State.startCommand_resAux (s : State) (w : Word) : (s.startCommand w).resAux = 0 := rfl
@[simp] theorem State.startCommand_errInfo (s : State) (w : Word) : (s.startCommand w).errInfo = 0 := rfl
@[simp] theorem State.startCommand_pending (s : State) (w : Word) : (s.startCommand w).pending = w := rfl
@[simp] theorem State.startCommand_mem (s : State) (w : Word) : (s.startCommand w).mem = s.mem := rfl
@[simp] theorem State.startCommand_cfg (s : State) (w : Word) : (s.startCommand w).cfg = s.cfg := rfl
@[simp] theorem State.startCommand_script (s : State) (w : Word) : (s.startCommand w).script = s.script := rfl
@[simp] theorem State.startCommand_lastRead (s : State) (w : Word) : (s.startCommand w).lastRead = s.lastRead := rfl
@[simp] theorem State.startCommand_windows (s : State) (w : Word) : (s.startCommand w).windows = s.windowOf w :: s.windows := rfl
@[simp] theorem State.startCommand_broken (s : State) (w : Word) : (s.startCommand w).broken = false := rfl
@[simp] theorem State.startCommand_freeCount (s : State) (w : Word) : (s.startCommand w).freeCount = s.freeCount := rfl

/-! ### `State.freeResults` -/

@[simp] theorem State.freeResults_status (s : State) : (s.freeResults).status = statusEnded (Config.freeEnding (s.freeCount + 3)) := rfl
@[simp] theorem State.freeResults_src (s : State) : (s.freeResults).src = s.src := rfl
@[simp] theorem State.freeResults_srcLen (s : State) : (s.freeResults).srcLen = s.srcLen := rfl
@[simp] theorem State.freeResults_dst (s : State) : (s.freeResults).dst = s.dst := rfl
@[simp] theorem State.freeResults_dstCap (s : State) : (s.freeResults).dstCap = s.dstCap := rfl
@[simp] theorem State.freeResults_aux (s : State) : (s.freeResults).aux = s.aux := rfl
@[simp] theorem State.freeResults_auxCap (s : State) : (s.freeResults).auxCap = s.auxCap := rfl
@[simp] theorem State.freeResults_resLen (s : State) : (s.freeResults).resLen = Config.freeWord s.freeCount := rfl
@[simp] theorem State.freeResults_resAux (s : State) : (s.freeResults).resAux = Config.freeWord (s.freeCount + 1) := rfl
@[simp] theorem State.freeResults_errInfo (s : State) : (s.freeResults).errInfo = Config.freeWord (s.freeCount + 2) := rfl
@[simp] theorem State.freeResults_pending (s : State) : (s.freeResults).pending = s.pending := rfl
@[simp] theorem State.freeResults_mem (s : State) : (s.freeResults).mem = s.mem := rfl
@[simp] theorem State.freeResults_cfg (s : State) : (s.freeResults).cfg = s.cfg := rfl
@[simp] theorem State.freeResults_script (s : State) : (s.freeResults).script = s.script := rfl
@[simp] theorem State.freeResults_lastRead (s : State) : (s.freeResults).lastRead = s.lastRead := rfl
@[simp] theorem State.freeResults_windows (s : State) : (s.freeResults).windows = s.windows := rfl
@[simp] theorem State.freeResults_broken (s : State) : (s.freeResults).broken = s.broken := rfl
@[simp] theorem State.freeResults_freeCount (s : State) : (s.freeResults).freeCount = s.freeCount + 4 := rfl

/-! ### `State.resetRegisters` -/

@[simp] theorem State.resetRegisters_status (s : State) : (s.resetRegisters).status = 0 := rfl
@[simp] theorem State.resetRegisters_src (s : State) : (s.resetRegisters).src = 0 := rfl
@[simp] theorem State.resetRegisters_srcLen (s : State) : (s.resetRegisters).srcLen = 0 := rfl
@[simp] theorem State.resetRegisters_dst (s : State) : (s.resetRegisters).dst = 0 := rfl
@[simp] theorem State.resetRegisters_dstCap (s : State) : (s.resetRegisters).dstCap = 0 := rfl
@[simp] theorem State.resetRegisters_aux (s : State) : (s.resetRegisters).aux = 0 := rfl
@[simp] theorem State.resetRegisters_auxCap (s : State) : (s.resetRegisters).auxCap = 0 := rfl
@[simp] theorem State.resetRegisters_resLen (s : State) : (s.resetRegisters).resLen = 0 := rfl
@[simp] theorem State.resetRegisters_resAux (s : State) : (s.resetRegisters).resAux = 0 := rfl
@[simp] theorem State.resetRegisters_errInfo (s : State) : (s.resetRegisters).errInfo = 0 := rfl
@[simp] theorem State.resetRegisters_pending (s : State) : (s.resetRegisters).pending = 0 := rfl
@[simp] theorem State.resetRegisters_mem (s : State) : (s.resetRegisters).mem = s.mem := rfl
@[simp] theorem State.resetRegisters_cfg (s : State) : (s.resetRegisters).cfg = s.cfg := rfl
@[simp] theorem State.resetRegisters_script (s : State) : (s.resetRegisters).script = s.script := rfl
@[simp] theorem State.resetRegisters_lastRead (s : State) : (s.resetRegisters).lastRead = s.lastRead := rfl
@[simp] theorem State.resetRegisters_windows (s : State) : (s.resetRegisters).windows = [] := rfl
@[simp] theorem State.resetRegisters_broken (s : State) : (s.resetRegisters).broken = false := rfl
@[simp] theorem State.resetRegisters_freeCount (s : State) : (s.resetRegisters).freeCount = s.freeCount := rfl

/-! ### `State.takeScript` -/

@[simp] theorem State.takeScript_status (s : State) (rest : List Transaction) : (s.takeScript rest).status = s.status := rfl
@[simp] theorem State.takeScript_src (s : State) (rest : List Transaction) : (s.takeScript rest).src = s.src := rfl
@[simp] theorem State.takeScript_srcLen (s : State) (rest : List Transaction) : (s.takeScript rest).srcLen = s.srcLen := rfl
@[simp] theorem State.takeScript_dst (s : State) (rest : List Transaction) : (s.takeScript rest).dst = s.dst := rfl
@[simp] theorem State.takeScript_dstCap (s : State) (rest : List Transaction) : (s.takeScript rest).dstCap = s.dstCap := rfl
@[simp] theorem State.takeScript_aux (s : State) (rest : List Transaction) : (s.takeScript rest).aux = s.aux := rfl
@[simp] theorem State.takeScript_auxCap (s : State) (rest : List Transaction) : (s.takeScript rest).auxCap = s.auxCap := rfl
@[simp] theorem State.takeScript_resLen (s : State) (rest : List Transaction) : (s.takeScript rest).resLen = s.resLen := rfl
@[simp] theorem State.takeScript_resAux (s : State) (rest : List Transaction) : (s.takeScript rest).resAux = s.resAux := rfl
@[simp] theorem State.takeScript_errInfo (s : State) (rest : List Transaction) : (s.takeScript rest).errInfo = s.errInfo := rfl
@[simp] theorem State.takeScript_pending (s : State) (rest : List Transaction) : (s.takeScript rest).pending = s.pending := rfl
@[simp] theorem State.takeScript_mem (s : State) (rest : List Transaction) : (s.takeScript rest).mem = s.mem := rfl
@[simp] theorem State.takeScript_cfg (s : State) (rest : List Transaction) : (s.takeScript rest).cfg = s.cfg := rfl
@[simp] theorem State.takeScript_script (s : State) (rest : List Transaction) : (s.takeScript rest).script = rest := rfl
@[simp] theorem State.takeScript_lastRead (s : State) (rest : List Transaction) : (s.takeScript rest).lastRead = s.lastRead := rfl
@[simp] theorem State.takeScript_windows (s : State) (rest : List Transaction) : (s.takeScript rest).windows = s.windows := rfl
@[simp] theorem State.takeScript_broken (s : State) (rest : List Transaction) : (s.takeScript rest).broken = s.broken := rfl
@[simp] theorem State.takeScript_freeCount (s : State) (rest : List Transaction) : (s.takeScript rest).freeCount = s.freeCount := rfl

/-! ### `State.resetWith` -/

@[simp] theorem State.resetWith_status (cfg : Config) (mem : Memory) : (State.resetWith cfg mem).status = 0 := rfl
@[simp] theorem State.resetWith_src (cfg : Config) (mem : Memory) : (State.resetWith cfg mem).src = 0 := rfl
@[simp] theorem State.resetWith_srcLen (cfg : Config) (mem : Memory) : (State.resetWith cfg mem).srcLen = 0 := rfl
@[simp] theorem State.resetWith_dst (cfg : Config) (mem : Memory) : (State.resetWith cfg mem).dst = 0 := rfl
@[simp] theorem State.resetWith_dstCap (cfg : Config) (mem : Memory) : (State.resetWith cfg mem).dstCap = 0 := rfl
@[simp] theorem State.resetWith_aux (cfg : Config) (mem : Memory) : (State.resetWith cfg mem).aux = 0 := rfl
@[simp] theorem State.resetWith_auxCap (cfg : Config) (mem : Memory) : (State.resetWith cfg mem).auxCap = 0 := rfl
@[simp] theorem State.resetWith_resLen (cfg : Config) (mem : Memory) : (State.resetWith cfg mem).resLen = 0 := rfl
@[simp] theorem State.resetWith_resAux (cfg : Config) (mem : Memory) : (State.resetWith cfg mem).resAux = 0 := rfl
@[simp] theorem State.resetWith_errInfo (cfg : Config) (mem : Memory) : (State.resetWith cfg mem).errInfo = 0 := rfl
@[simp] theorem State.resetWith_pending (cfg : Config) (mem : Memory) : (State.resetWith cfg mem).pending = 0 := rfl
@[simp] theorem State.resetWith_mem (cfg : Config) (mem : Memory) : (State.resetWith cfg mem).mem = mem := rfl
@[simp] theorem State.resetWith_cfg (cfg : Config) (mem : Memory) : (State.resetWith cfg mem).cfg = cfg := rfl
@[simp] theorem State.resetWith_script (cfg : Config) (mem : Memory) : (State.resetWith cfg mem).script = [] := rfl
@[simp] theorem State.resetWith_lastRead (cfg : Config) (mem : Memory) : (State.resetWith cfg mem).lastRead = none := rfl
@[simp] theorem State.resetWith_windows (cfg : Config) (mem : Memory) : (State.resetWith cfg mem).windows = [] := rfl
@[simp] theorem State.resetWith_broken (cfg : Config) (mem : Memory) : (State.resetWith cfg mem).broken = false := rfl
@[simp] theorem State.resetWith_freeCount (cfg : Config) (mem : Memory) : (State.resetWith cfg mem).freeCount = 0 := rfl

/-! ### `State.writeOperand`: only operand registers change -/

@[simp] theorem State.writeOperand_status (s : State) (off : Nat) (v : Word) :
    (s.writeOperand off v).status = s.status := by
  unfold State.writeOperand; repeat' split
  all_goals rfl
@[simp] theorem State.writeOperand_resLen (s : State) (off : Nat) (v : Word) :
    (s.writeOperand off v).resLen = s.resLen := by
  unfold State.writeOperand; repeat' split
  all_goals rfl
@[simp] theorem State.writeOperand_resAux (s : State) (off : Nat) (v : Word) :
    (s.writeOperand off v).resAux = s.resAux := by
  unfold State.writeOperand; repeat' split
  all_goals rfl
@[simp] theorem State.writeOperand_errInfo (s : State) (off : Nat) (v : Word) :
    (s.writeOperand off v).errInfo = s.errInfo := by
  unfold State.writeOperand; repeat' split
  all_goals rfl
@[simp] theorem State.writeOperand_pending (s : State) (off : Nat) (v : Word) :
    (s.writeOperand off v).pending = s.pending := by
  unfold State.writeOperand; repeat' split
  all_goals rfl
@[simp] theorem State.writeOperand_mem (s : State) (off : Nat) (v : Word) :
    (s.writeOperand off v).mem = s.mem := by
  unfold State.writeOperand; repeat' split
  all_goals rfl
@[simp] theorem State.writeOperand_cfg (s : State) (off : Nat) (v : Word) :
    (s.writeOperand off v).cfg = s.cfg := by
  unfold State.writeOperand; repeat' split
  all_goals rfl
@[simp] theorem State.writeOperand_script (s : State) (off : Nat) (v : Word) :
    (s.writeOperand off v).script = s.script := by
  unfold State.writeOperand; repeat' split
  all_goals rfl
@[simp] theorem State.writeOperand_lastRead (s : State) (off : Nat) (v : Word) :
    (s.writeOperand off v).lastRead = s.lastRead := by
  unfold State.writeOperand; repeat' split
  all_goals rfl
@[simp] theorem State.writeOperand_windows (s : State) (off : Nat) (v : Word) :
    (s.writeOperand off v).windows = s.windows := by
  unfold State.writeOperand; repeat' split
  all_goals rfl
@[simp] theorem State.writeOperand_broken (s : State) (off : Nat) (v : Word) :
    (s.writeOperand off v).broken = s.broken := by
  unfold State.writeOperand; repeat' split
  all_goals rfl
@[simp] theorem State.writeOperand_freeCount (s : State) (off : Nat) (v : Word) :
    (s.writeOperand off v).freeCount = s.freeCount := by
  unfold State.writeOperand; repeat' split
  all_goals rfl
theorem State.writeOperand_src (s : State) (off : Nat) (v : Word) :
    (s.writeOperand off v).src = if off = 0x08 then v else s.src := by
  unfold State.writeOperand
  repeat' split
  all_goals rfl
theorem State.writeOperand_srcLen (s : State) (off : Nat) (v : Word) :
    (s.writeOperand off v).srcLen = if off = 0x0C then v else s.srcLen := by
  unfold State.writeOperand
  repeat' split
  all_goals first | rfl | omega
theorem State.writeOperand_dst (s : State) (off : Nat) (v : Word) :
    (s.writeOperand off v).dst = if off = 0x10 then v else s.dst := by
  unfold State.writeOperand
  repeat' split
  all_goals first | rfl | omega
theorem State.writeOperand_dstCap (s : State) (off : Nat) (v : Word) :
    (s.writeOperand off v).dstCap = if off = 0x14 then v else s.dstCap := by
  unfold State.writeOperand
  repeat' split
  all_goals first | rfl | omega
theorem State.writeOperand_aux (s : State) (off : Nat) (v : Word) :
    (s.writeOperand off v).aux = if off = 0x18 then v else s.aux := by
  unfold State.writeOperand
  repeat' split
  all_goals first | rfl | omega
theorem State.writeOperand_auxCap (s : State) (off : Nat) (v : Word) :
    (s.writeOperand off v).auxCap = if off = 0x1C then v else s.auxCap := by
  unfold State.writeOperand
  repeat' split
  all_goals first | rfl | omega

/-! ### `State.acknowledge` and `State.hostRead`: only the model's own fields change -/

@[simp] theorem State.acknowledge_status (s : State) (off : Nat) : (s.acknowledge off).status = s.status := by
  unfold State.acknowledge; split <;> rfl
@[simp] theorem State.acknowledge_src (s : State) (off : Nat) : (s.acknowledge off).src = s.src := by
  unfold State.acknowledge; split <;> rfl
@[simp] theorem State.acknowledge_srcLen (s : State) (off : Nat) : (s.acknowledge off).srcLen = s.srcLen := by
  unfold State.acknowledge; split <;> rfl
@[simp] theorem State.acknowledge_dst (s : State) (off : Nat) : (s.acknowledge off).dst = s.dst := by
  unfold State.acknowledge; split <;> rfl
@[simp] theorem State.acknowledge_dstCap (s : State) (off : Nat) : (s.acknowledge off).dstCap = s.dstCap := by
  unfold State.acknowledge; split <;> rfl
@[simp] theorem State.acknowledge_aux (s : State) (off : Nat) : (s.acknowledge off).aux = s.aux := by
  unfold State.acknowledge; split <;> rfl
@[simp] theorem State.acknowledge_auxCap (s : State) (off : Nat) : (s.acknowledge off).auxCap = s.auxCap := by
  unfold State.acknowledge; split <;> rfl
@[simp] theorem State.acknowledge_resLen (s : State) (off : Nat) : (s.acknowledge off).resLen = s.resLen := by
  unfold State.acknowledge; split <;> rfl
@[simp] theorem State.acknowledge_resAux (s : State) (off : Nat) : (s.acknowledge off).resAux = s.resAux := by
  unfold State.acknowledge; split <;> rfl
@[simp] theorem State.acknowledge_errInfo (s : State) (off : Nat) : (s.acknowledge off).errInfo = s.errInfo := by
  unfold State.acknowledge; split <;> rfl
@[simp] theorem State.acknowledge_pending (s : State) (off : Nat) : (s.acknowledge off).pending = s.pending := by
  unfold State.acknowledge; split <;> rfl
@[simp] theorem State.acknowledge_mem (s : State) (off : Nat) : (s.acknowledge off).mem = s.mem := by
  unfold State.acknowledge; split <;> rfl
@[simp] theorem State.acknowledge_cfg (s : State) (off : Nat) : (s.acknowledge off).cfg = s.cfg := by
  unfold State.acknowledge; split <;> rfl
@[simp] theorem State.acknowledge_script (s : State) (off : Nat) : (s.acknowledge off).script = s.script := by
  unfold State.acknowledge; split <;> rfl
@[simp] theorem State.acknowledge_lastRead (s : State) (off : Nat) : (s.acknowledge off).lastRead = s.lastRead := by
  unfold State.acknowledge; split <;> rfl
@[simp] theorem State.acknowledge_broken (s : State) (off : Nat) : (s.acknowledge off).broken = s.broken := by
  unfold State.acknowledge; split <;> rfl
@[simp] theorem State.acknowledge_freeCount (s : State) (off : Nat) : (s.acknowledge off).freeCount = s.freeCount := by
  unfold State.acknowledge; split <;> rfl
@[simp] theorem State.hostRead_status (s : State) (off : Nat) : (s.hostRead off).status = s.status := by
  simp [State.hostRead]
@[simp] theorem State.hostRead_src (s : State) (off : Nat) : (s.hostRead off).src = s.src := by
  simp [State.hostRead]
@[simp] theorem State.hostRead_srcLen (s : State) (off : Nat) : (s.hostRead off).srcLen = s.srcLen := by
  simp [State.hostRead]
@[simp] theorem State.hostRead_dst (s : State) (off : Nat) : (s.hostRead off).dst = s.dst := by
  simp [State.hostRead]
@[simp] theorem State.hostRead_dstCap (s : State) (off : Nat) : (s.hostRead off).dstCap = s.dstCap := by
  simp [State.hostRead]
@[simp] theorem State.hostRead_aux (s : State) (off : Nat) : (s.hostRead off).aux = s.aux := by
  simp [State.hostRead]
@[simp] theorem State.hostRead_auxCap (s : State) (off : Nat) : (s.hostRead off).auxCap = s.auxCap := by
  simp [State.hostRead]
@[simp] theorem State.hostRead_resLen (s : State) (off : Nat) : (s.hostRead off).resLen = s.resLen := by
  simp [State.hostRead]
@[simp] theorem State.hostRead_resAux (s : State) (off : Nat) : (s.hostRead off).resAux = s.resAux := by
  simp [State.hostRead]
@[simp] theorem State.hostRead_errInfo (s : State) (off : Nat) : (s.hostRead off).errInfo = s.errInfo := by
  simp [State.hostRead]
@[simp] theorem State.hostRead_pending (s : State) (off : Nat) : (s.hostRead off).pending = s.pending := by
  simp [State.hostRead]
@[simp] theorem State.hostRead_mem (s : State) (off : Nat) : (s.hostRead off).mem = s.mem := by
  simp [State.hostRead]
@[simp] theorem State.hostRead_cfg (s : State) (off : Nat) : (s.hostRead off).cfg = s.cfg := by
  simp [State.hostRead]
@[simp] theorem State.hostRead_script (s : State) (off : Nat) : (s.hostRead off).script = s.script := by
  simp [State.hostRead]
@[simp] theorem State.hostRead_broken (s : State) (off : Nat) : (s.hostRead off).broken = s.broken := by
  simp [State.hostRead]
@[simp] theorem State.hostRead_freeCount (s : State) (off : Nat) : (s.hostRead off).freeCount = s.freeCount := by
  simp [State.hostRead]
@[simp] theorem State.hostRead_lastRead (s : State) (off : Nat) :
    (s.hostRead off).lastRead = some (.register off (s.readRegister off)) := rfl
@[simp] theorem State.hostRead_windows (s : State) (off : Nat) :
    (s.hostRead off).windows = (s.acknowledge off).windows := rfl

end Sys2Proof.Machine
end

