-- ==== Sys2Proof/Laws/Flags.lean ====
section
/-! SUPPORT. The fields of the STATUS words the machine writes (10_state R30). -/

namespace Sys2Proof.Machine

set_option Elab.async false

@[simp] theorem statusBusy_eq : statusBusy = 0x00000001#32 := by decide
@[simp] theorem statusDone_eq : statusDone = 0x00000002#32 := by decide

/-- STATUS after a fault reads `0x6 | (code << 8)` (60_exceptions R222). -/
theorem statusFault_toNat (f : FaultKind) :
    (statusFault f.code).toNat = 0x6 + 0x100 * f.code.toNat := by
  cases f <;> decide

theorem statusFault_busy (f : FaultKind) : (statusFault f.code).getLsbD 0 = false := by
  cases f <;> decide

theorem statusFault_done (f : FaultKind) : (statusFault f.code).getLsbD 1 = true := by
  cases f <;> decide

theorem statusFault_legal (f : FaultKind) : statusLegal (statusFault f.code) = true := by
  cases f <;> decide

theorem statusEnded_busy (k : Fin 10) : (statusEnded k).getLsbD 0 = false := by
  revert k; decide

theorem statusEnded_done (k : Fin 10) : (statusEnded k).getLsbD 1 = true := by
  revert k; decide

theorem statusEnded_legal (k : Fin 10) : statusLegal (statusEnded k) = true := by
  revert k; decide

/-- What a legal STATUS is, value by value (10_state R30). -/
theorem statusLegal_iff (w : Word) :
    statusLegal w = true ↔
      w = 0#32 ∨ w = 1#32 ∨ w = 2#32 ∨ ∃ f : FaultKind, w = statusFault f.code := by
  constructor
  · intro h
    simp only [statusLegal, Bool.or_eq_true, decide_eq_true_eq, List.any_eq_true,
      List.mem_range, statusBusy_eq, statusDone_eq] at h
    rcases h with ((h | h) | h) | ⟨k, hk, h⟩
    · exact .inl h
    · exact .inr (.inl h)
    · exact .inr (.inr (.inl h))
    · refine .inr (.inr (.inr ?_))
      subst h
      interval_cases k
      · exact ⟨.illegalCommand, rfl⟩
      · exact ⟨.addrRange, rfl⟩
      · exact ⟨.overlap, rfl⟩
      · exact ⟨.dstOverflow, rfl⟩
      · exact ⟨.sizeOverflow, rfl⟩
      · exact ⟨.badLength, rfl⟩
      · exact ⟨.uncorrectableChunk, rfl⟩
      · exact ⟨.malformedEscapeSequence, rfl⟩
      · exact ⟨.auxOverflow, rfl⟩
  · rintro (rfl | rfl | rfl | ⟨f, rfl⟩)
    · decide
    · decide
    · decide
    · exact statusFault_legal f

/-- BUSY and DONE are never both 1 in a legal STATUS (10_state R30). -/
theorem statusLegal_busy_not_done {w : Word} (h : statusLegal w = true)
    (hb : w.getLsbD 0 = true) : w = 1#32 := by
  rcases (statusLegal_iff w).1 h with rfl | rfl | rfl | ⟨f, rfl⟩
  · simp at hb
  · rfl
  · simp at hb
  · rw [statusFault_busy] at hb; cases hb

@[simp] theorem State.finish_busy (s : State) (len aux : Nat) : (s.finish len aux).busy = false := by
  simp [State.busy]
@[simp] theorem State.finish_done (s : State) (len aux : Nat) : (s.finish len aux).done = true := by
  simp [State.done]
@[simp] theorem State.raiseKeeping_busy (s : State) (f : FaultKind) (i l a : Nat) :
    (s.raiseKeeping f i l a).busy = false := statusFault_busy f
@[simp] theorem State.raiseKeeping_done (s : State) (f : FaultKind) (i l a : Nat) :
    (s.raiseKeeping f i l a).done = true := statusFault_done f
@[simp] theorem State.raise_busy (s : State) (f : FaultKind) (i : Nat) :
    (s.raise f i).busy = false := statusFault_busy f
@[simp] theorem State.raise_done (s : State) (f : FaultKind) (i : Nat) :
    (s.raise f i).done = true := statusFault_done f
@[simp] theorem State.startCommand_busy (s : State) (w : Word) : (s.startCommand w).busy = true := by
  simp [State.busy]
@[simp] theorem State.startCommand_done (s : State) (w : Word) : (s.startCommand w).done = false := by
  simp [State.done]
@[simp] theorem State.store_busy (s : State) (b : Word) (v : List Byte) :
    (s.store b v).busy = s.busy := rfl
@[simp] theorem State.freeResults_busy (s : State) : s.freeResults.busy = false :=
  statusEnded_busy _
@[simp] theorem State.freeResults_done (s : State) : s.freeResults.done = true :=
  statusEnded_done _
@[simp] theorem State.resetRegisters_busy (s : State) : s.resetRegisters.busy = false := by
  simp [State.busy]
@[simp] theorem State.resetRegisters_done (s : State) : s.resetRegisters.done = false := by
  simp [State.done]
@[simp] theorem State.takeScript_busy (s : State) (rest : List Transaction) :
    (s.takeScript rest).busy = s.busy := rfl
@[simp] theorem State.writeOperand_busy (s : State) (off : Nat) (v : Word) :
    (s.writeOperand off v).busy = s.busy := by simp [State.busy]
@[simp] theorem State.hostRead_busy (s : State) (off : Nat) : (s.hostRead off).busy = s.busy := by
  simp [State.busy]

end Sys2Proof.Machine
end

