-- ==== Sys2Proof/Laws/Memory.lean ====
section
/-! SUPPORT. What the memory operations do: a read after a write, the bytes of a multi-byte write,
and that every operation keeps the canonical form and the bounds of `Mem` (20_memory R62, R66). -/

namespace Sys2Proof.Machine

set_option Elab.async false

/-! ### One byte -/

@[simp] theorem Memory.read_nil (a : Nat) : Memory.read [] a = Memory.unlisted := rfl

theorem Memory.read_insert_same (m : Memory) (a : Nat) (b : Byte) :
    (m.insert a b).read a = b := by
  induction m with
  | nil => simp [Memory.insert, Memory.read]
  | cons c m ih =>
    obtain ⟨a', b'⟩ := c
    unfold Memory.insert
    split
    · simp [Memory.read]
    · split
      · simp [Memory.read]
      · have : ¬ a' = a := fun h => by omega
        simp [Memory.read, this, ih]

theorem Memory.read_insert_other (m : Memory) {a x : Nat} (b : Byte) (h : x ≠ a) :
    (m.insert a b).read x = m.read x := by
  induction m with
  | nil => simp [Memory.insert, Memory.read, Ne.symm h]
  | cons c m ih =>
    obtain ⟨a', b'⟩ := c
    unfold Memory.insert
    split
    · simp [Memory.read, Ne.symm h]
    · split
      · rename_i _ hEq
        subst hEq
        simp [Memory.read, Ne.symm h]
      · simp [Memory.read, ih]

theorem Memory.read_erase_same (m : Memory) (a : Nat) :
    (m.erase a).read a = Memory.unlisted := by
  induction m with
  | nil => rfl
  | cons c m ih =>
    obtain ⟨a', b'⟩ := c
    by_cases h : a' = a
    · simpa [Memory.erase, h] using ih
    · simpa [Memory.erase, h, Memory.read] using ih

theorem Memory.read_erase_other (m : Memory) {a x : Nat} (h : x ≠ a) :
    (m.erase a).read x = m.read x := by
  induction m with
  | nil => rfl
  | cons c m ih =>
    obtain ⟨a', b'⟩ := c
    by_cases h' : a' = a
    · have hx : ¬ a' = x := fun e => h (by omega)
      simpa [Memory.erase, h', Memory.read, Ne.symm h] using ih
    · by_cases hx : a' = x
      · simp [Memory.erase, Memory.read, hx, h]
      · simpa [Memory.erase, h', Memory.read, hx] using ih

/-- A byte written is the byte read back (20_memory R66). -/
@[simp] theorem Memory.read_write_same (m : Memory) (a : Nat) (b : Byte) :
    (m.write a b).read a = b := by
  unfold Memory.write
  split
  · rename_i h; rw [Memory.read_erase_same, h]
  · exact Memory.read_insert_same m a b

/-- A write leaves every other address alone. -/
theorem Memory.read_write_other (m : Memory) {a x : Nat} (b : Byte) (h : x ≠ a) :
    (m.write a b).read x = m.read x := by
  unfold Memory.write
  split
  · exact Memory.read_erase_other m h
  · exact Memory.read_insert_other m b h

/-! ### Several bytes -/

@[simp] theorem Memory.writeBytes_nil (m : Memory) (a : Nat) : m.writeBytes a [] = m := rfl

@[simp] theorem Memory.writeBytes_cons (m : Memory) (a : Nat) (b : Byte) (v : List Byte) :
    m.writeBytes a (b :: v) = (m.write a b).writeBytes (a + 1) v := rfl

/-- `MemWrite` changes no byte outside the addresses it names (00_scope R7). -/
theorem Memory.read_writeBytes_outside (m : Memory) (a : Nat) (v : List Byte) (x : Nat)
    (h : x < a ∨ a + v.length ≤ x) : (m.writeBytes a v).read x = m.read x := by
  induction v generalizing m a with
  | nil => rfl
  | cons b v ih =>
    rw [Memory.writeBytes_cons, ih]
    · exact Memory.read_write_other m b (by simp at h; omega)
    · simp at h; omega

/-- `MemWrite` stores byte `i` of its sequence at address `a + i` (00_scope R7). -/
theorem Memory.read_writeBytes_inside (m : Memory) (a : Nat) (v : List Byte) (i : Nat)
    (h : i < v.length) : (m.writeBytes a v).read (a + i) = v.getD i 0 := by
  induction v generalizing m a i with
  | nil => simp at h
  | cons b v ih =>
    rw [Memory.writeBytes_cons]
    cases i with
    | zero =>
      rw [Memory.read_writeBytes_outside _ _ _ _ (by omega)]
      simp
    | succ i =>
      have := ih (m.write a b) (a + 1) i (by simpa using h)
      rw [show a + (i + 1) = a + 1 + i by omega, this]
      simp

@[simp] theorem Memory.length_readBytes (m : Memory) (a n : Nat) :
    (m.readBytes a n).length = n := by
  induction n generalizing a with
  | zero => rfl
  | succ n ih => simp [Memory.readBytes, ih]

/-- `MemRead` returns the bytes at `a, a+1, ..`, lowest address first (00_scope R7). -/
theorem Memory.getD_readBytes (m : Memory) (a n i : Nat) (h : i < n) :
    (m.readBytes a n).getD i 0 = m.read (a + i) := by
  induction n generalizing a i with
  | zero => omega
  | succ n ih =>
    cases i with
    | zero => simp [Memory.readBytes]
    | succ i =>
      have := ih (a + 1) i (by omega)
      rw [show a + (i + 1) = a + 1 + i by omega, ← this]
      simp [Memory.readBytes]

/-- Two memories that agree on the addresses give the same bytes. -/
theorem Memory.readBytes_congr (m m' : Memory) (a n : Nat)
    (h : ∀ x, a ≤ x → x < a + n → m.read x = m'.read x) : m.readBytes a n = m'.readBytes a n := by
  induction n generalizing a with
  | zero => rfl
  | succ n ih =>
    simp only [Memory.readBytes]
    rw [h a (by omega) (by omega), ih (a + 1) fun x h1 h2 => h x (by omega) (by omega)]

/-- What was just written is what is read. -/
theorem Memory.readBytes_writeBytes (m : Memory) (a : Nat) (v : List Byte) :
    (m.writeBytes a v).readBytes a v.length = v := by
  apply List.ext_getElem
  · simp
  · intro i h1 h2
    have h3 := Memory.getD_readBytes (m.writeBytes a v) a v.length i h2
    rw [Memory.read_writeBytes_inside m a v i h2] at h3
    simpa [List.getD_eq_getElem?_getD, h1, h2] using h3

/-! ### The canonical form -/

@[simp] theorem Memory.wfAbove_nil (lo : Option Nat) : Memory.wfAbove lo [] = true := by
  cases lo <;> rfl

theorem Memory.wfAbove_none_of {lo : Option Nat} {m : Memory} (h : Memory.wfAbove lo m = true) :
    Memory.wfAbove none m = true := by
  cases m with
  | nil => rfl
  | cons c m => obtain ⟨a, b⟩ := c; cases lo <;> simp_all [Memory.wfAbove]

theorem Memory.wfAbove_mono {l k : Nat} {m : Memory} (hk : k ≤ l)
    (h : Memory.wfAbove (some l) m = true) : Memory.wfAbove (some k) m = true := by
  cases m with
  | nil => rfl
  | cons c m =>
    obtain ⟨a, b⟩ := c
    simp only [Memory.wfAbove, Bool.and_eq_true, decide_eq_true_eq] at h ⊢
    exact ⟨⟨by omega, h.1.2⟩, h.2⟩

theorem Memory.wfAbove_insert {lo : Option Nat} {m : Memory} {a : Nat} {b : Byte}
    (hlo : ∀ l, lo = some l → l < a) (hb : b ≠ Memory.unlisted)
    (h : Memory.wfAbove lo m = true) : Memory.wfAbove lo (m.insert a b) = true := by
  induction m generalizing lo with
  | nil => cases lo <;> simp_all [Memory.insert, Memory.wfAbove]
  | cons c m ih =>
    obtain ⟨a', b'⟩ := c
    simp only [Memory.wfAbove, Bool.and_eq_true, decide_eq_true_eq] at h
    obtain ⟨⟨h1, h2⟩, h3⟩ := h
    unfold Memory.insert
    split
    · rename_i hlt
      simp only [Memory.wfAbove, Bool.and_eq_true, decide_eq_true_eq]
      refine ⟨⟨?_, hb⟩, ⟨hlt, h2⟩, h3⟩
      cases lo <;> simp_all
    · split
      · rename_i _ he
        subst he
        simp only [Memory.wfAbove, Bool.and_eq_true, decide_eq_true_eq]
        exact ⟨⟨h1, hb⟩, h3⟩
      · simp only [Memory.wfAbove, Bool.and_eq_true, decide_eq_true_eq]
        exact ⟨⟨h1, h2⟩, ih (fun l hl => by cases hl; omega) h3⟩

theorem Memory.wfAbove_erase {lo : Option Nat} {m : Memory} {a : Nat}
    (h : Memory.wfAbove lo m = true) : Memory.wfAbove lo (m.erase a) = true := by
  induction m generalizing lo with
  | nil => exact h
  | cons c m ih =>
    obtain ⟨a', b'⟩ := c
    simp only [Memory.wfAbove, Bool.and_eq_true, decide_eq_true_eq] at h
    obtain ⟨⟨h1, h2⟩, h3⟩ := h
    by_cases he : a' = a
    · have : Memory.erase ((a', b') :: m) a = Memory.erase m a := by simp [Memory.erase, he]
      rw [this]
      apply ih
      cases lo with
      | none => exact Memory.wfAbove_none_of h3
      | some l =>
        simp only [decide_eq_true_eq] at h1
        exact Memory.wfAbove_mono (by omega) h3
    · have : Memory.erase ((a', b') :: m) a = (a', b') :: Memory.erase m a := by
        simp [Memory.erase, he]
      rw [this]
      simp only [Memory.wfAbove, Bool.and_eq_true, decide_eq_true_eq]
      exact ⟨⟨h1, h2⟩, ih h3⟩

/-- A write keeps the canonical form. -/
theorem Memory.wf_write {m : Memory} (a : Nat) (b : Byte) (h : m.wf = true) :
    (m.write a b).wf = true := by
  unfold Memory.write
  split
  · exact Memory.wfAbove_erase h
  · rename_i hb; exact Memory.wfAbove_insert (by simp) hb h

/-- `MemWrite` keeps the canonical form. -/
theorem Memory.wf_writeBytes {m : Memory} (a : Nat) (v : List Byte) (h : m.wf = true) :
    (m.writeBytes a v).wf = true := by
  induction v generalizing m a with
  | nil => exact h
  | cons b v ih => exact ih (a + 1) (Memory.wf_write a b h)

/-- The memory at reset is in canonical form. -/
theorem reset_mem_wf : State.reset.mem.wf = true := rfl

/-- Equal bytes everywhere make equal memories: the form is canonical. -/
theorem Memory.read_of_wfAbove {lo : Nat} {m : Memory} (h : Memory.wfAbove (some lo) m = true)
    {a : Nat} (ha : a ≤ lo) : m.read a = Memory.unlisted := by
  induction m generalizing lo with
  | nil => rfl
  | cons c m ih =>
    obtain ⟨a', b'⟩ := c
    simp only [Memory.wfAbove, Bool.and_eq_true, decide_eq_true_eq] at h
    have : ¬ a' = a := by omega
    simp only [Memory.read, this, if_false]
    exact ih h.2 (by omega)

/-- Memories in canonical form that read the same at every address are the same list. -/
theorem Memory.eq_of_read {m m' : Memory} (h : m.wf = true) (h' : m'.wf = true)
    (hr : ∀ a, m.read a = m'.read a) : m = m' := by
  induction m generalizing m' with
  | nil =>
    cases m' with
    | nil => rfl
    | cons c m' =>
      obtain ⟨a, b⟩ := c
      simp only [Memory.wf, Memory.wfAbove, Bool.and_eq_true, decide_eq_true_eq] at h'
      have := hr a
      simp [Memory.read] at this
      exact absurd this.symm h'.1.2
  | cons c m ih =>
    obtain ⟨a, b⟩ := c
    cases m' with
    | nil =>
      simp only [Memory.wf, Memory.wfAbove, Bool.and_eq_true, decide_eq_true_eq] at h
      have := hr a
      simp [Memory.read] at this
      exact absurd this h.1.2
    | cons c' m' =>
      obtain ⟨a', b'⟩ := c'
      simp only [Memory.wf, Memory.wfAbove, Bool.and_eq_true, decide_eq_true_eq, true_and] at h h'
      have haa : a = a' := by
        rcases Nat.lt_trichotomy a a' with hlt | heq | hgt
        · have := hr a
          have h1 : ¬ a' = a := by omega
          simp only [Memory.read, h1, if_true, if_false] at this
          rw [Memory.read_of_wfAbove h'.2 (by omega)] at this
          exact absurd this h.1
        · exact heq
        · have := hr a'
          have h1 : ¬ a = a' := by omega
          simp only [Memory.read, h1, if_true, if_false] at this
          rw [Memory.read_of_wfAbove h.2 (by omega)] at this
          exact absurd this.symm h'.1
      subst haa
      have hb : b = b' := by simpa [Memory.read] using hr a
      subst hb
      have htail : ∀ x, Memory.read m x = Memory.read m' x := by
        intro x
        by_cases hx : a = x
        · subst hx
          rw [Memory.read_of_wfAbove h.2 (Nat.le_refl _),
            Memory.read_of_wfAbove h'.2 (Nat.le_refl _)]
        · simpa [Memory.read, hx] using hr x
      rw [ih (Memory.wfAbove_none_of h.2) (Memory.wfAbove_none_of h'.2) htail]

/-! ### The bounds of `Mem` -/

theorem Memory.inside_insert {size : Nat} {m : Memory} {a : Nat} (b : Byte) (ha : a < size)
    (h : m.inside size = true) : (m.insert a b).inside size = true := by
  induction m with
  | nil => simp [Memory.insert, Memory.inside, ha]
  | cons c m ih =>
    obtain ⟨a', b'⟩ := c
    simp only [Memory.inside, List.all_cons, Bool.and_eq_true, decide_eq_true_eq] at h ih
    unfold Memory.insert
    split
    · simp only [Memory.inside, List.all_cons, Bool.and_eq_true, decide_eq_true_eq]
      exact ⟨ha, h⟩
    · split
      · simp only [Memory.inside, List.all_cons, Bool.and_eq_true, decide_eq_true_eq]
        exact ⟨ha, h.2⟩
      · simp only [Memory.inside, List.all_cons, Bool.and_eq_true, decide_eq_true_eq]
        exact ⟨h.1, ih h.2⟩

theorem Memory.inside_erase {size : Nat} {m : Memory} (a : Nat) (h : m.inside size = true) :
    (m.erase a).inside size = true := by
  simp only [Memory.inside, Memory.erase, List.all_eq_true, List.mem_filter] at h ⊢
  exact fun c hc => h c hc.1

theorem Memory.inside_write {size : Nat} {m : Memory} {a : Nat} (b : Byte) (ha : a < size)
    (h : m.inside size = true) : (m.write a b).inside size = true := by
  unfold Memory.write
  split
  · exact Memory.inside_erase a h
  · exact Memory.inside_insert b ha h

/-- `MemWrite` inside `0 .. MEM_SIZE-1` keeps every listed address there. -/
theorem Memory.inside_writeBytes {size : Nat} {m : Memory} {a : Nat} {v : List Byte}
    (ha : v = [] ∨ a + v.length ≤ size) (h : m.inside size = true) :
    (m.writeBytes a v).inside size = true := by
  induction v generalizing m a with
  | nil => exact h
  | cons b v ih =>
    simp only [List.length_cons, reduceCtorEq, false_or] at ha
    exact ih (.inr (by omega)) (Memory.inside_write b (by omega) h)

end Sys2Proof.Machine
end

