-- ==== Sys2Proof/Laws/Ops.lean ====
section
/-! SUPPORT. For each shared operation, what it can do, said once: the checks on regions, the
unspecified bytes, the completion step, the host's transactions, one step. -/

namespace Sys2Proof.Machine

set_option Elab.async false

/-! ### Numbers and words -/

/-- A number that fits a word is what the register reads (40_arith_gf256 R120). -/
theorem toWord_toNat {n : Nat} (h : n ≤ Config.maxWord) : (toWord n).toNat = n := by
  simp only [toWord, BitVec.toNat_ofNat]
  exact Nat.mod_eq_of_lt (by simp only [Config.maxWord, Config.xlen] at h; omega)

/-! ### Regions (20_memory R68, R69; 60_exceptions R226, R227) -/

theorem Region.has_iff (r : Region) (a : Nat) :
    r.has a = true ↔ r.base.toNat ≤ a ∧ a < r.base.toNat + r.len.toNat := by
  simp [Region.has]

theorem Region.inRange_iff (s : State) (r : Region) :
    r.inRange s.cfg.memSize = true ↔ InRange s r := by
  simp only [Region.inRange, InRange, Bool.or_eq_true, decide_eq_true_eq]

theorem Region.overlaps_iff (r1 r2 : Region) : r1.overlaps r2 = true ↔ Overlapping r1 r2 := by
  simp only [Region.overlaps, Overlapping, Bool.and_eq_true, decide_eq_true_eq, gt_iff_lt, and_assoc]

/-- The addresses of a region that exist, as a list. -/
theorem Region.mem_addresses (memSize : Nat) (r : Region) (a : Nat) :
    a ∈ r.addresses memSize ↔ r.has a = true ∧ a < memSize := by
  simp only [Region.addresses, List.mem_map, List.mem_range, Region.has_iff]
  constructor
  · rintro ⟨i, hi, rfl⟩; omega
  · rintro ⟨⟨h1, h2⟩, h3⟩; exact ⟨a - r.base.toNat, by omega, by omega⟩

/-- The checks of a command with a source region only. -/
theorem regionFault_source (s : State) (r : Region) :
    regionFault s.cfg.memSize [r] = if InRange s r then none else some (.addrRange, 0) := by
  simp only [regionFault, firstOutOfRange, ← Region.inRange_iff]
  by_cases h : r.inRange s.cfg.memSize = true <;> simp [h, anyOverlap]

/-- The checks of a command with a source and a destination region, in the order of 60_exceptions
R232. -/
theorem regionFault_pair (s : State) (r1 r2 : Region) :
    regionFault s.cfg.memSize [r1, r2] =
      if ¬ InRange s r1 then some (.addrRange, 0)
      else if ¬ InRange s r2 then some (.addrRange, 1)
      else if Overlapping r1 r2 then some (.overlap, 0)
      else none := by
  simp only [regionFault, firstOutOfRange, ← Region.inRange_iff, ← Region.overlaps_iff]
  by_cases h1 : r1.inRange s.cfg.memSize = true <;>
    by_cases h2 : r2.inRange s.cfg.memSize = true <;> simp [h1, h2, anyOverlap]

/-- The checks of FDEC: three regions, in the order of 60_exceptions R232. -/
theorem regionFault_triple (s : State) (r1 r2 r3 : Region) :
    regionFault s.cfg.memSize [r1, r2, r3] =
      if ¬ InRange s r1 then some (.addrRange, 0)
      else if ¬ InRange s r2 then some (.addrRange, 1)
      else if ¬ InRange s r3 then some (.addrRange, 2)
      else if Overlapping r1 r2 ∨ Overlapping r1 r3 ∨ Overlapping r2 r3 then some (.overlap, 0)
      else none := by
  simp only [regionFault, firstOutOfRange, ← Region.inRange_iff, ← Region.overlaps_iff]
  by_cases h1 : r1.inRange s.cfg.memSize = true <;>
    by_cases h2 : r2.inRange s.cfg.memSize = true <;>
    by_cases h3 : r3.inRange s.cfg.memSize = true <;> simp [h1, h2, h3, anyOverlap, or_assoc]

/-- What a failing region check reports fits a word and is AddrRange or Overlap. -/
theorem regionFault_some {memSize : Nat} {rs : List Region} {f : FaultKind × Nat}
    (h : regionFault memSize rs = some f) :
    (f.1 = .addrRange ∧ f.2 < rs.length) ∨ f = (.overlap, 0) := by
  have key : ∀ (rs : List Region) (k j : Nat),
      firstOutOfRange memSize rs k = some j → j < k + rs.length := by
    intro rs
    induction rs with
    | nil => intro k j hj; simp [firstOutOfRange] at hj
    | cons r rs ih =>
      intro k j hj
      simp only [firstOutOfRange] at hj
      split at hj
      · have := ih _ _ hj; simp only [List.length_cons]; omega
      · simp only [Option.some.injEq] at hj; subst hj; simp
  simp only [regionFault] at h
  split at h
  · rename_i k hk
    simp only [Option.some.injEq] at h
    subst h
    left
    have := key rs 0 k hk
    exact ⟨rfl, by omega⟩
  · split at h
    · simp only [Option.some.injEq] at h; exact .inr h.symm
    · cases h

/-! ### Unspecified bytes: what they leave alone -/

@[simp] theorem State.freeBytes_status (s : State) (as : List Nat) :
    (s.freeBytes as).status = s.status := by
  induction as generalizing s with
  | nil => rfl
  | cons a as ih => simp [State.freeBytes, ih]
@[simp] theorem State.freeBytes_src (s : State) (as : List Nat) :
    (s.freeBytes as).src = s.src := by
  induction as generalizing s with
  | nil => rfl
  | cons a as ih => simp [State.freeBytes, ih]
@[simp] theorem State.freeBytes_srcLen (s : State) (as : List Nat) :
    (s.freeBytes as).srcLen = s.srcLen := by
  induction as generalizing s with
  | nil => rfl
  | cons a as ih => simp [State.freeBytes, ih]
@[simp] theorem State.freeBytes_dst (s : State) (as : List Nat) :
    (s.freeBytes as).dst = s.dst := by
  induction as generalizing s with
  | nil => rfl
  | cons a as ih => simp [State.freeBytes, ih]
@[simp] theorem State.freeBytes_dstCap (s : State) (as : List Nat) :
    (s.freeBytes as).dstCap = s.dstCap := by
  induction as generalizing s with
  | nil => rfl
  | cons a as ih => simp [State.freeBytes, ih]
@[simp] theorem State.freeBytes_aux (s : State) (as : List Nat) :
    (s.freeBytes as).aux = s.aux := by
  induction as generalizing s with
  | nil => rfl
  | cons a as ih => simp [State.freeBytes, ih]
@[simp] theorem State.freeBytes_auxCap (s : State) (as : List Nat) :
    (s.freeBytes as).auxCap = s.auxCap := by
  induction as generalizing s with
  | nil => rfl
  | cons a as ih => simp [State.freeBytes, ih]
@[simp] theorem State.freeBytes_resLen (s : State) (as : List Nat) :
    (s.freeBytes as).resLen = s.resLen := by
  induction as generalizing s with
  | nil => rfl
  | cons a as ih => simp [State.freeBytes, ih]
@[simp] theorem State.freeBytes_resAux (s : State) (as : List Nat) :
    (s.freeBytes as).resAux = s.resAux := by
  induction as generalizing s with
  | nil => rfl
  | cons a as ih => simp [State.freeBytes, ih]
@[simp] theorem State.freeBytes_errInfo (s : State) (as : List Nat) :
    (s.freeBytes as).errInfo = s.errInfo := by
  induction as generalizing s with
  | nil => rfl
  | cons a as ih => simp [State.freeBytes, ih]
@[simp] theorem State.freeBytes_pending (s : State) (as : List Nat) :
    (s.freeBytes as).pending = s.pending := by
  induction as generalizing s with
  | nil => rfl
  | cons a as ih => simp [State.freeBytes, ih]
@[simp] theorem State.freeBytes_cfg (s : State) (as : List Nat) :
    (s.freeBytes as).cfg = s.cfg := by
  induction as generalizing s with
  | nil => rfl
  | cons a as ih => simp [State.freeBytes, ih]
@[simp] theorem State.freeBytes_script (s : State) (as : List Nat) :
    (s.freeBytes as).script = s.script := by
  induction as generalizing s with
  | nil => rfl
  | cons a as ih => simp [State.freeBytes, ih]
@[simp] theorem State.freeBytes_lastRead (s : State) (as : List Nat) :
    (s.freeBytes as).lastRead = s.lastRead := by
  induction as generalizing s with
  | nil => rfl
  | cons a as ih => simp [State.freeBytes, ih]
@[simp] theorem State.freeBytes_windows (s : State) (as : List Nat) :
    (s.freeBytes as).windows = s.windows := by
  induction as generalizing s with
  | nil => rfl
  | cons a as ih => simp [State.freeBytes, ih]
@[simp] theorem State.freeBytes_broken (s : State) (as : List Nat) :
    (s.freeBytes as).broken = s.broken := by
  induction as generalizing s with
  | nil => rfl
  | cons a as ih => simp [State.freeBytes, ih]
@[simp] theorem State.freeRegions_status (s : State) (rs : List Region) :
    (s.freeRegions rs).status = s.status := by
  simp [State.freeRegions]
@[simp] theorem State.freeRegions_src (s : State) (rs : List Region) :
    (s.freeRegions rs).src = s.src := by
  simp [State.freeRegions]
@[simp] theorem State.freeRegions_srcLen (s : State) (rs : List Region) :
    (s.freeRegions rs).srcLen = s.srcLen := by
  simp [State.freeRegions]
@[simp] theorem State.freeRegions_dst (s : State) (rs : List Region) :
    (s.freeRegions rs).dst = s.dst := by
  simp [State.freeRegions]
@[simp] theorem State.freeRegions_dstCap (s : State) (rs : List Region) :
    (s.freeRegions rs).dstCap = s.dstCap := by
  simp [State.freeRegions]
@[simp] theorem State.freeRegions_aux (s : State) (rs : List Region) :
    (s.freeRegions rs).aux = s.aux := by
  simp [State.freeRegions]
@[simp] theorem State.freeRegions_auxCap (s : State) (rs : List Region) :
    (s.freeRegions rs).auxCap = s.auxCap := by
  simp [State.freeRegions]
@[simp] theorem State.freeRegions_resLen (s : State) (rs : List Region) :
    (s.freeRegions rs).resLen = s.resLen := by
  simp [State.freeRegions]
@[simp] theorem State.freeRegions_resAux (s : State) (rs : List Region) :
    (s.freeRegions rs).resAux = s.resAux := by
  simp [State.freeRegions]
@[simp] theorem State.freeRegions_errInfo (s : State) (rs : List Region) :
    (s.freeRegions rs).errInfo = s.errInfo := by
  simp [State.freeRegions]
@[simp] theorem State.freeRegions_pending (s : State) (rs : List Region) :
    (s.freeRegions rs).pending = s.pending := by
  simp [State.freeRegions]
@[simp] theorem State.freeRegions_cfg (s : State) (rs : List Region) :
    (s.freeRegions rs).cfg = s.cfg := by
  simp [State.freeRegions]
@[simp] theorem State.freeRegions_script (s : State) (rs : List Region) :
    (s.freeRegions rs).script = s.script := by
  simp [State.freeRegions]
@[simp] theorem State.freeRegions_lastRead (s : State) (rs : List Region) :
    (s.freeRegions rs).lastRead = s.lastRead := by
  simp [State.freeRegions]
@[simp] theorem State.freeRegions_windows (s : State) (rs : List Region) :
    (s.freeRegions rs).windows = s.windows := by
  simp [State.freeRegions]
@[simp] theorem State.freeRegions_broken (s : State) (rs : List Region) :
    (s.freeRegions rs).broken = s.broken := by
  simp [State.freeRegions]
@[simp] theorem State.freeBytes_busy (s : State) (as : List Nat) :
    (s.freeBytes as).busy = s.busy := by simp [State.busy]
@[simp] theorem State.freeRegions_busy (s : State) (rs : List Region) :
    (s.freeRegions rs).busy = s.busy := by simp [State.busy]

/-- No byte outside the listed addresses changes. -/
theorem State.read_freeBytes_outside (s : State) (as : List Nat) (x : Nat) (h : x ∉ as) :
    (s.freeBytes as).mem.read x = s.mem.read x := by
  induction as generalizing s with
  | nil => rfl
  | cons a as ih =>
    simp only [List.mem_cons, not_or] at h
    simp only [State.freeBytes]
    rw [ih _ h.2]
    exact Memory.read_write_other _ _ h.1

/-- No byte outside the regions changes (70_reset_and_hazards R261). -/
theorem State.read_freeRegions_outside (s : State) (rs : List Region) (x : Nat)
    (h : ∀ r ∈ rs, r.has x = false) : (s.freeRegions rs).mem.read x = s.mem.read x := by
  apply State.read_freeBytes_outside
  intro hx
  obtain ⟨r, hr, hxr⟩ := List.mem_flatMap.1 hx
  have := ((Region.mem_addresses _ _ _).1 hxr).1
  rw [h r hr] at this
  cases this

theorem State.wf_freeBytes (s : State) (as : List Nat) (h : s.mem.wf = true) :
    (s.freeBytes as).mem.wf = true := by
  induction as generalizing s with
  | nil => exact h
  | cons a as ih => exact ih _ (Memory.wf_write _ _ h)

theorem State.wf_freeRegions (s : State) (rs : List Region) (h : s.mem.wf = true) :
    (s.freeRegions rs).mem.wf = true := State.wf_freeBytes s _ h

theorem State.inside_freeBytes (s : State) (as : List Nat) (ha : ∀ a ∈ as, a < s.cfg.memSize)
    (h : s.mem.inside s.cfg.memSize = true) :
    (s.freeBytes as).mem.inside s.cfg.memSize = true := by
  induction as generalizing s with
  | nil => exact h
  | cons a as ih =>
    exact ih _ (fun x hx => ha x (List.mem_cons_of_mem _ hx))
      (Memory.inside_write _ (ha a List.mem_cons_self) h)

theorem State.inside_freeRegions (s : State) (rs : List Region)
    (h : s.mem.inside s.cfg.memSize = true) :
    (s.freeRegions rs).mem.inside s.cfg.memSize = true := by
  apply State.inside_freeBytes _ _ _ h
  intro a ha
  obtain ⟨r, _, hr⟩ := List.mem_flatMap.1 ha
  exact ((Region.mem_addresses _ _ _).1 hr).2

/-- Every listed address reads as a free byte drawn from the counter on (93 U2; log 12). -/
theorem State.read_freeBytes_mem (s : State) {as : List Nat} {x : Nat} (hx : x ∈ as) :
    ∃ n, s.freeCount ≤ n ∧ (s.freeBytes as).mem.read x = Config.freeByte n := by
  induction as generalizing s with
  | nil => cases hx
  | cons a as ih =>
    by_cases hin : x ∈ as
    · obtain ⟨n, hn, hr⟩ := ih { s with mem := s.mem.write a (Config.freeByte s.freeCount),
                                        freeCount := s.freeCount + 1 } hin
      exact ⟨n, Nat.le_of_succ_le hn, hr⟩
    · have hax : x = a := (List.mem_cons.1 hx).resolve_right hin
      refine ⟨s.freeCount, Nat.le_refl _, ?_⟩
      rw [State.freeBytes, State.read_freeBytes_outside _ _ _ hin, hax]
      exact Memory.read_write_same _ _ _

/-! ### The engine and the host -/

/-- What the completion step can do (10_state R32). -/
theorem State.complete_cases {s : State} {o : Host.Outcome State Fault Refusal}
    (h : s.complete = o) :
    (s.broken = true ∧ o = .next s.endUnspecified) ∨
    (s.broken = false ∧ ∃ i, decode s.pending = .ok i ∧ o = exec i s) ∨
    (s.broken = false ∧ (∃ e, decode s.pending = .error e) ∧
      o = .next (s.raise .illegalCommand s.pending.toNat)) := by
  subst h
  unfold State.complete
  cases hb : s.broken
  · cases hd : decode s.pending with
    | ok i => exact .inr (.inl ⟨rfl, i, rfl, by simp⟩)
    | error e => exact .inr (.inr ⟨rfl, ⟨e, rfl⟩, by simp⟩)
  · exact .inl ⟨rfl, by simp⟩

/-- The engine does nothing while idle (60_exceptions R244). -/
@[simp] theorem State.engineTurn_idle {s : State} (h : s.busy = false) :
    s.engineTurn = .next s := by simp [State.engineTurn, h]

/-- The engine's one enabled step while BUSY (10_state R32). -/
@[simp] theorem State.engineTurn_busy {s : State} (h : s.busy = true) :
    s.engineTurn = s.complete := by simp [State.engineTurn, h]

/-- What a host write can do (10_state R24, R25). -/
theorem State.hostWrite_cases (s : State) (off : Nat) (v : Word) :
    (s.busy = true ∧ s.hostWrite off v = s) ∨
    (s.busy = false ∧ off = 0 ∧ s.hostWrite off v = s.startCommand v) ∨
    (s.busy = false ∧ off ≠ 0 ∧ s.hostWrite off v = s.writeOperand off v) := by
  unfold State.hostWrite
  cases s.busy
  · by_cases h : off = 0 <;> simp [h]
  · simp

/-- What a host memory write can do (30_encoding R97; 70_reset_and_hazards R264). -/
theorem State.hostMemWrite_next {s t : State} {a : Nat} {b : Byte}
    (h : s.hostMemWrite a b = .next t) :
    a < s.cfg.memSize ∧ t = State.breakWindows (State.mk s.status s.src s.srcLen s.dst s.dstCap
      s.aux s.auxCap s.resLen s.resAux s.errInfo s.pending (s.mem.write a b) s.cfg s.script
      s.lastRead s.windows s.broken s.freeCount) a := by
  unfold State.hostMemWrite at h
  split at h
  · exact ⟨‹_›, by simpa using h.symm⟩
  · cases h

/-- What a write at `a` does to the windows: nothing where none is open; the outputs of each window it
touches are freed, and if the newest is touched it is broken while it runs and its results are freed
after its end (70_reset_and_hazards R264; log 7). -/
theorem State.breakWindows_cases (s : State) (a : Nat) :
    let freed := s.freeRegions ((s.windows.filter (·.touches a)).flatMap Window.outputs)
    (s.windows = [] ∧ s.breakWindows a = s) ∨
    ∃ w ws, s.windows = w :: ws ∧
      ((w.touches a = false ∧ s.breakWindows a = freed) ∨
       (w.touches a = true ∧ s.busy = true ∧
          s.breakWindows a = State.mk freed.status freed.src freed.srcLen freed.dst freed.dstCap
            freed.aux freed.auxCap freed.resLen freed.resAux freed.errInfo freed.pending freed.mem
            freed.cfg freed.script freed.lastRead freed.windows true freed.freeCount) ∨
       (w.touches a = true ∧ s.busy = false ∧ s.breakWindows a = freed.freeResults)) := by
  unfold State.breakWindows
  cases hw : s.windows with
  | nil => exact .inl ⟨rfl, rfl⟩
  | cons w ws =>
    refine .inr ⟨w, ws, rfl, ?_⟩
    cases ht : w.touches a
    · exact .inl ⟨rfl, by simp [ht]⟩
    · cases hb : s.busy
      · exact .inr (.inr ⟨rfl, rfl, by simp [ht]⟩)
      · exact .inr (.inl ⟨rfl, rfl, by simp [ht]⟩)

/-- A write outside every busy window breaks none. -/
theorem State.breakWindows_untouched (s : State) (a : Nat)
    (h : ∀ w ∈ s.windows, w.touches a = false) : s.breakWindows a = s := by
  have hf : s.windows.filter (·.touches a) = [] := by
    simpa [List.filter_eq_nil_iff] using h
  unfold State.breakWindows
  cases hw : s.windows with
  | nil => rfl
  | cons w ws =>
    rw [hw] at hf h
    simp [hf, h w List.mem_cons_self, State.freeRegions, State.freeBytes]

/-- What a transaction that answers a next state was (30_encoding R97). -/
theorem State.perform_cases {s t : State} {tr : Transaction} (h : s.perform tr = .next t) :
    (∃ off v, tr = .hostWrite off v ∧ registerOffset off = true ∧ t = s.hostWrite off v) ∨
    (∃ off, tr = .hostRead off ∧ registerOffset off = true ∧ t = s.hostRead off) ∨
    (∃ a b, tr = .memWrite a b ∧ s.hostMemWrite a b = .next t) ∨
    (∃ a, tr = .memRead a ∧ s.hostMemRead a = .next t) ∨
    (tr = .reset ∧ t = s.hostReset) ∨
    (tr = .completion ∧ s.engineTurn = .next t) := by
  cases tr with
  | hostWrite off v =>
    simp only [State.perform] at h
    split at h
    · exact .inl ⟨off, v, rfl, ‹_›, by simpa using h.symm⟩
    · cases h
  | hostRead off =>
    simp only [State.perform] at h
    split at h
    · exact .inr (.inl ⟨off, rfl, ‹_›, by simpa using h.symm⟩)
    · cases h
  | memWrite a b => exact .inr (.inr (.inl ⟨a, b, rfl, h⟩))
  | memRead a => exact .inr (.inr (.inr (.inl ⟨a, rfl, h⟩)))
  | reset => exact .inr (.inr (.inr (.inr (.inl ⟨rfl, by simpa [State.perform] using h.symm⟩))))
  | completion => exact .inr (.inr (.inr (.inr (.inr ⟨rfl, h⟩))))

/-- What a step is: the next transaction, or the engine's turn (20_memory R72). -/
theorem step_cases {s : State} {o : Host.Outcome State Fault Refusal} (h : step s = o) :
    (s.script = [] ∧ o = s.engineTurn) ∨
    ∃ tr rest, s.script = tr :: rest ∧ o = (s.takeScript rest).perform tr := by
  subst h
  unfold step
  split
  · exact .inl ⟨‹_›, rfl⟩
  · exact .inr ⟨_, _, ‹_›, rfl⟩

end Sys2Proof.Machine
end

