-- ==== Sys2Proof/Laws/Exec.lean ====
section
/-! SUPPORT. The shape every command's end has, said once: a fault that writes nothing, a normal end,
or UncorrectableChunk (60_exceptions R222). -/

namespace Sys2Proof.Machine

set_option Elab.async false

/-- `t` is `s` with some memory, ended by `finish`. -/
def FinishedFrom (s t : State) : Prop :=
  ∃ (m : Memory) (len aux : Nat), t = State.finish { s with mem := m } len aux

/-- `t` is `s` with some memory, ended by UncorrectableChunk. -/
def UncorrectableFrom (s t : State) : Prop :=
  ∃ (m : Memory) (c len aux : Nat),
    t = State.raiseKeeping { s with mem := m } .uncorrectableChunk c len aux

/-- Every command answers a next state, and it has one of three shapes (10_state R32). -/
theorem exec_cases (i : Instr) (s : State) :
    ∃ t, exec i s = .next t ∧
      ((∃ f info, t = s.raise f info) ∨ FinishedFrom s t ∨ (i = .fdec ∧ UncorrectableFrom s t)) := by
  cases i <;> simp only [exec]
  · unfold execHash hashWith
    split
    · exact ⟨_, rfl, .inl ⟨_, _, rfl⟩⟩
    · split
      · exact ⟨_, rfl, .inl ⟨_, _, rfl⟩⟩
      · exact ⟨_, rfl, .inr (.inl ⟨_, _, _, rfl⟩)⟩
  · unfold execCbound cboundWith
    dsimp only
    split
    · exact ⟨_, rfl, .inl ⟨_, _, rfl⟩⟩
    · exact ⟨_, rfl, .inr (.inl ⟨s.mem, _, _, rfl⟩)⟩
  · unfold execFsize
    dsimp only
    split
    · exact ⟨_, rfl, .inl ⟨_, _, rfl⟩⟩
    · exact ⟨_, rfl, .inr (.inl ⟨s.mem, _, _, rfl⟩)⟩
  · unfold execFenc
    dsimp only
    split
    · exact ⟨_, rfl, .inl ⟨_, _, rfl⟩⟩
    · split
      · exact ⟨_, rfl, .inl ⟨_, _, rfl⟩⟩
      · split
        · exact ⟨_, rfl, .inl ⟨_, _, rfl⟩⟩
        · exact ⟨_, rfl, .inr (.inl ⟨_, _, _, rfl⟩)⟩
  · unfold execFsyn
    dsimp only
    split
    · exact ⟨_, rfl, .inl ⟨_, _, rfl⟩⟩
    · split
      · exact ⟨_, rfl, .inl ⟨_, _, rfl⟩⟩
      · split
        · exact ⟨_, rfl, .inl ⟨_, _, rfl⟩⟩
        · exact ⟨_, rfl, .inr (.inl ⟨_, _, _, rfl⟩)⟩
  · unfold execFdec
    dsimp only
    split
    · exact ⟨_, rfl, .inl ⟨_, _, rfl⟩⟩
    · split
      · exact ⟨_, rfl, .inl ⟨_, _, rfl⟩⟩
      · split
        · exact ⟨_, rfl, .inl ⟨_, _, rfl⟩⟩
        · split
          · exact ⟨_, rfl, .inl ⟨_, _, rfl⟩⟩
          · split
            · exact ⟨_, rfl, .inr (.inl ⟨_, _, _, rfl⟩)⟩
            · exact ⟨_, rfl, .inr (.inr ⟨trivial, _, _, _, _, rfl⟩)⟩
  · unfold execEcnt
    split
    · exact ⟨_, rfl, .inl ⟨_, _, rfl⟩⟩
    · exact ⟨_, rfl, .inr (.inl ⟨s.mem, _, _, rfl⟩)⟩
  · unfold execEsc
    split
    · exact ⟨_, rfl, .inl ⟨_, _, rfl⟩⟩
    · dsimp only
      split
      · exact ⟨_, rfl, .inl ⟨_, _, rfl⟩⟩
      · split
        · exact ⟨_, rfl, .inl ⟨_, _, rfl⟩⟩
        · exact ⟨_, rfl, .inr (.inl ⟨_, _, _, rfl⟩)⟩
  · unfold execUnesc
    split
    · exact ⟨_, rfl, .inl ⟨_, _, rfl⟩⟩
    · split
      · exact ⟨_, rfl, .inl ⟨_, _, rfl⟩⟩
      · split
        · exact ⟨_, rfl, .inl ⟨_, _, rfl⟩⟩
        · exact ⟨_, rfl, .inr (.inl ⟨_, _, _, rfl⟩)⟩

end Sys2Proof.Machine
end

