-- ==== Sys2Proof/Laws/Params.lean ====
section
/-! SUPPORT. The open functions of 00_scope R4: any `CBOUND_FN` and, on any list of messages, any
`DIGEST_FN` can be given to an instance. -/

namespace Sys2Proof.Machine

set_option Elab.async false

theorem BoundExpr.eval_ifLe_of_le {a b c d : BoundExpr} {x : Nat} (h : a.eval x ≤ b.eval x) :
    (BoundExpr.ifLe a b c d).eval x = c.eval x := if_pos h

theorem BoundExpr.eval_ifLe_of_not_le {a b c d : BoundExpr} {x : Nat}
    (h : ¬ a.eval x ≤ b.eval x) : (BoundExpr.ifLe a b c d).eval x = d.eval x := if_neg h

/-- Every function agrees below any limit with an expression. -/
theorem BoundExpr.exists_eval (f : Nat → Nat) (limit : Nat) :
    ∃ e : BoundExpr, ∀ n, n < limit → e.eval n = f n := by
  induction limit with
  | zero => exact ⟨.n, fun n h => absurd h (Nat.not_lt_zero n)⟩
  | succ k ih =>
    obtain ⟨e, he⟩ := ih
    refine ⟨.ifLe (.lit k) .n (.lit (f k)) e, fun n hn => ?_⟩
    rcases Nat.lt_or_ge n k with h | h
    · have hlt : ¬ (BoundExpr.lit k).eval n ≤ BoundExpr.n.eval n := Nat.not_le.2 h
      exact (BoundExpr.eval_ifLe_of_not_le hlt).trans (he n h)
    · have hle : (BoundExpr.lit k).eval n ≤ BoundExpr.n.eval n := h
      rw [BoundExpr.eval_ifLe_of_le hle, show n = k by omega]
      rfl

/-- Any function from lengths to lengths is the `CBOUND_FN` of some configuration, on every value
SRC_LEN can have (00_scope R4 OPEN, 42_cbound R161). -/
theorem CboundFn.exists_given (f : Nat → Nat) :
    ∃ c : CboundFn, ∀ w : Word, cboundFn c w.toNat = f w.toNat := by
  obtain ⟨e, he⟩ := BoundExpr.exists_eval f (2 ^ 32)
  exact ⟨.given e, fun w => he _ w.isLt⟩

/-- CBOUND with any bound function is the instruction on some configuration. -/
theorem execCbound_exists_given (f : Nat → Nat) :
    ∃ c : CboundFn, ∀ s : State, s.cfg.cbound = c → execCbound s = cboundWith f s := by
  obtain ⟨c, hc⟩ := CboundFn.exists_given f
  refine ⟨c, fun s hs => ?_⟩
  rw [execCbound, cboundWith, cboundWith, hs, hc]

/-- Any digest function agrees on any list of messages with a `DIGEST_FN` that can be given. -/
theorem DigestFn.exists_given (f : List Byte → Vector Byte Config.digestBytes)
    (ms : List (List Byte)) : ∃ d : DigestFn, ∀ m ∈ ms, digestFn d m = (f m).toList := by
  refine ⟨.given (ms.map fun m => (m, f m)) 0, fun m hm => ?_⟩
  have key : (ms.map fun m => (m, f m)).lookup m = some (f m) := by
    induction ms with
    | nil => cases hm
    | cons x xs ih =>
      rw [List.map_cons, List.lookup_cons]
      by_cases h : m = x
      · simp [h]
      · rw [show (m == x) = false by simpa using h]
        exact ih ((List.mem_cons.1 hm).resolve_left h)
  rw [digestFn, key, Option.getD_some]

end Sys2Proof.Machine
end

