-- ==== Sys2Proof/Laws/PerInstr.lean ====
section
/-! SUPPORT. Statements made per instruction: encoding and decoding agree, and the word is a legal
one (30_encoding R92, R93). -/

namespace Sys2Proof.Laws

set_option Elab.async false

/-- Decoding the encoded command gives it back, and its word is legal. -/
def RoundTrip.Statement (i : Instr) : Prop :=
  decode (encode i) = .ok i ∧ wordWellFormed (encode i) = true

theorem RoundTrip.hash : RoundTrip.Statement .hash := ⟨rfl, by decide⟩
theorem RoundTrip.cbound : RoundTrip.Statement .cbound := ⟨rfl, by decide⟩
theorem RoundTrip.fsize : RoundTrip.Statement .fsize := ⟨rfl, by decide⟩
theorem RoundTrip.fenc : RoundTrip.Statement .fenc := ⟨rfl, by decide⟩
theorem RoundTrip.fsyn : RoundTrip.Statement .fsyn := ⟨rfl, by decide⟩
theorem RoundTrip.fdec : RoundTrip.Statement .fdec := ⟨rfl, by decide⟩
theorem RoundTrip.ecnt : RoundTrip.Statement .ecnt := ⟨rfl, by decide⟩
theorem RoundTrip.esc : RoundTrip.Statement .esc := ⟨rfl, by decide⟩
theorem RoundTrip.unesc : RoundTrip.Statement .unesc := ⟨rfl, by decide⟩

end Sys2Proof.Laws
end

