-- ==== Sys2Proof/Tests/Slice0.lean ====
section
/-! SUPPORT. Tests: the refusals of each well-formedness check, decoding of words written out from
30_encoding R92, one or two small steps per command with the results of 95_test_vectors, and, for
every statement with hypotheses, a concrete witness that meets them. -/

namespace Sys2Proof.Tests

set_option Elab.async false

open Sys2Proof.Machine

/-! ### Well-formedness: each check refuses an ill-formed term -/

theorem test_word_zero_field_refused : wordWellFormed 0x00000111 = false := by decide
theorem test_word_opcode_refused : wordWellFormed 0x00000003 = false := by decide
theorem test_word_of_zeros_refused : wordWellFormed 0 = false := by decide
theorem test_word_accepted : wordWellFormed 0x00000022 = true := by decide
theorem test_offset_not_multiple_of_4_refused :
    (Transaction.hostWrite 0x02 0).wellFormed 0x10000 = false := by decide
theorem test_offset_outside_space_refused :
    (Transaction.hostRead 0x1000).wellFormed 0x10000 = false := by decide
theorem test_write_address_outside_refused :
    (Transaction.memWrite 0x10000 0).wellFormed 0x10000 = false := by decide
theorem test_read_address_outside_refused :
    (Transaction.memRead 0x10000).wellFormed 0x10000 = false := by decide
theorem test_memsize_zero_refused :
    Config.memSizeLegal { Config.default with memSize := 0 } = false := by decide
theorem test_memsize_too_large_refused :
    Config.memSizeLegal { Config.default with memSize := 2 ^ 32 + 1 } = false := by decide
/-- 0x11B is irreducible but not primitive. -/
theorem test_polynomial_not_primitive_refused :
    Config.wellFormed { Config.default with primPoly := 0x11B } = false := by decide +kernel
theorem test_polynomial_without_bit_8_refused : gfprimitive 0x01D = false := by decide +kernel
theorem test_default_config_accepted : Config.default.wellFormed = true := by decide +kernel
theorem test_constants_accepted :
    Config.constantsWellFormed Config.rsN Config.rsK Config.nroots Config.rsT Config.symbits
      Config.sync Config.escape Config.escapeSync = true := by decide
theorem test_constants_unequal_length_refused :
    Config.constantsWellFormed 255 224 32 16 8 0xAB 0x54 0x9F = false := by decide
theorem test_constants_same_marker_refused :
    Config.constantsWellFormed 255 223 32 16 8 0x54 0x54 0x9F = false := by decide

/-! ### Decoding: the words of 30_encoding R92, written out bit by bit -/

theorem test_decode_hash : decode 0b00000000000000000000000000000001#32 = .ok .hash := by rfl
theorem test_decode_cbound : decode 0b00000000000000000000000000000010#32 = .ok .cbound := by rfl
theorem test_decode_fsize : decode 0b00000000000000000000000000010000#32 = .ok .fsize := by rfl
theorem test_decode_fenc : decode 0b00000000000000000000000000010001#32 = .ok .fenc := by rfl
theorem test_decode_fsyn : decode 0b00000000000000000000000000010010#32 = .ok .fsyn := by rfl
theorem test_decode_fdec : decode 0b00000000000000000000000000010011#32 = .ok .fdec := by rfl
theorem test_decode_ecnt : decode 0b00000000000000000000000000100000#32 = .ok .ecnt := by rfl
theorem test_decode_esc : decode 0b00000000000000000000000000100001#32 = .ok .esc := by rfl
theorem test_decode_unesc : decode 0b00000000000000000000000000100010#32 = .ok .unesc := by rfl
/-- 95 F1-3: bits 7:0 are FENC's, bit 8 is set. -/
theorem test_decode_rejects_zero_field : decode 0x111#32 = .error .zeroFieldSet := by rfl
/-- 95 F1-2. -/
theorem test_decode_rejects_opcode : decode 0x003#32 = .error (.unassignedOpcode 3) := by rfl
theorem test_table_word : decodeTableWord 32 0x13 = some .fdec := by rfl

/-! ### Steps: results of 95_test_vectors -/

/-- The state a step ends in, if it does. -/
def next? : Host.Outcome State Fault Refusal → Option State
  | .next s => some s
  | .fault _ => none
  | .refused _ => none

/-- STATUS, RES_LEN, RES_AUX, ERR_INFO, as 95_test_vectors prints them. -/
def results (s : State) : Word × Word × Word × Word := (s.status, s.resLen, s.resAux, s.errInfo)

/-- An idle block with the operand registers set and bytes placed at 0x1000. -/
def placed (bytes : List Byte) (src len dst cap aux auxCap : Word) : State :=
  { State.resetWith Config.default (Memory.writeBytes [] 0x1000 bytes) with
    src := src, srcLen := len, dst := dst, dstCap := cap, aux := aux, auxCap := auxCap }

/-- The same with command `i` started. -/
def started (i : Instr) (bytes : List Byte) (src len dst cap aux auxCap : Word) : State :=
  (placed bytes src len dst cap aux auxCap).startCommand (encode i)

/-- What the engine's step reports. -/
def stepResults (s : State) : Option (Word × Word × Word × Word) := (next? (step s)).map results

/-- The bytes at an address after the engine's step. -/
def stepBytes (s : State) (a n : Nat) : Option (List Byte) :=
  (next? (step s)).map fun t => t.mem.readBytes a n

/-- 95 H-4, the document's example: MD5("AB"). -/
theorem test_hash_AB :
    stepBytes (started .hash [0x41, 0x42] 0x1000 2 0x2000 16 0 0) 0x2000 16 =
      some [0xB8, 0x6F, 0xC6, 0xB0, 0x51, 0xF6, 0x3D, 0x73,
            0xDE, 0x26, 0x2D, 0x4C, 0x34, 0xE3, 0xA0, 0xA9] := by decide +kernel
/-- 95 F3-8: an empty destination overlaps nothing, then DstOverflow. -/
theorem test_hash_dst_overflow :
    stepResults (started .hash [] 0x1000 5 0x1002 0 0 0) = some (0x406, 0, 0, 16) := by
  decide +kernel
/-- 41_hash R152, trace of "AB": the working words after step `i = 0` (95 H-4). -/
theorem test_md5_first_step :
    md5Step (md5Words (md5Pad [0x41, 0x42])) md5Init 0 =
      { a := 0x10325476, b := 0xE54107F4, c := 0xEFCDAB89, d := 0x98BADCFE } := by decide +kernel
/-- 95 CB-11. -/
theorem test_cbound_largest :
    stepResults (started .cbound [] 0 4293656835 0 0 0 0) = some (2, 4294967295, 0, 0) := by
  decide +kernel
/-- 95 CB-12. -/
theorem test_cbound_overflow :
    stepResults (started .cbound [] 0 4293656836 0 0 0 0) = some (0x506, 0, 0, 0) := by
  decide +kernel
/-- 95 FS-7. -/
theorem test_fsize_largest :
    stepResults (started .fsize [] 0 3755991007 0 0 0 0) =
      some (2, 4294967295, 16843009, 0) := by decide +kernel
/-- 95 FS-8. -/
theorem test_fsize_overflow :
    stepResults (started .fsize [] 0 3755991008 0 0 0 0) = some (0x506, 0, 0, 0) := by
  decide +kernel
/-- 95 FENC-2: the parity of the message that ends in 01 (the zeros before it leave the register at
0) is `G[31], .., G[0]`. -/
theorem test_fenc_parity :
    parityOf 0x11D (generatorTaps 0x11D) [0x00, 0x01] =
      [0xE8, 0x1D, 0xBD, 0x32, 0x8E, 0xF6, 0xE8, 0x0F, 0x2B, 0x52, 0xA4, 0xEE, 0x01, 0x9E, 0x0D,
       0x77, 0x9E, 0xE0, 0x86, 0xE3, 0xD2, 0xA3, 0x32, 0x6B, 0x28, 0x1B, 0x68, 0xFD, 0x18, 0xEF,
       0xD8, 0x2D] := by decide +kernel
/-- 95 FENC-10. -/
theorem test_fenc_dst_overflow :
    stepResults (started .fenc [] 0x1000 5 0x2000 254 0 0) = some (0x406, 0, 0, 255) := by
  decide +kernel
/-- 43_fec R177: the polynomial `0x01 x + 0x05` at `ALPHA^3 = 0x08`, first byte highest. -/
theorem test_fsyn_horner : polyEvalHigh 0x11D [0x01, 0x05] 0x08 = 0x0D := by decide +kernel
/-- 95 FSYN-8. -/
theorem test_fsyn_dst_overflow :
    stepResults (started .fsyn [] 0x1000 255 0x2000 31 0 0) = some (0x406, 0, 0, 32) := by
  decide +kernel
/-- 95 F6-4: BadLength before Overlap. -/
theorem test_fdec_bad_length :
    stepResults (started .fdec [] 0x1000 5 0x1000 5 0x1000 5) = some (0x606, 0, 0, 5) := by
  decide +kernel
/-- 95 F2-7: the report region is checked although there is no codeword. -/
theorem test_fdec_report_range :
    stepResults (started .fdec [] 0x1000 0 0x2000 0 0xFFFF 2) = some (0x206, 0, 0, 2) := by
  decide +kernel
/-- 95 ES-1 (count). -/
theorem test_ecnt :
    stepResults (started .ecnt [0x41, 0xAB, 0x54, 0x9F, 0x42] 0x1000 5 0 0 0 0) =
      some (2, 2, 0, 0) := by decide +kernel
/-- 95 F2-6: an empty region is in range at any base. -/
theorem test_ecnt_empty :
    stepResults (started .ecnt [] 0xFFFFFFFF 0 0 0 0 0) = some (2, 0, 0, 0) := by decide +kernel
/-- 95 ES-1. -/
theorem test_esc :
    stepBytes (started .esc [0x41, 0xAB, 0x54, 0x9F, 0x42] 0x1000 5 0x2000 7 0 0) 0x2000 7 =
      some [0x41, 0x54, 0x9F, 0x54, 0x54, 0x9F, 0x42] := by decide +kernel
/-- 95 F3-3: overlap is tested at full capacity. -/
theorem test_esc_overlap :
    stepResults (started .esc [0x41, 0xAB, 0x54, 0x9F, 0x42] 0x1000 5 0x0FF0 17 0 0) =
      some (0x306, 0, 0, 0) := by decide +kernel
/-- 95 UN-1. -/
theorem test_unesc :
    stepBytes (started .unesc [0x41, 0x54, 0x9F, 0x54, 0x54, 0x9F, 0x42] 0x1000 7 0x2000 8 0 0)
      0x2000 5 = some [0x41, 0xAB, 0x54, 0x9F, 0x42] := by decide +kernel
/-- 95 UN-9. -/
theorem test_unesc_malformed :
    stepResults (started .unesc [0x54, 0x54, 0x54] 0x1000 3 0x2000 8 0 0) =
      some (0x806, 0, 0, 2) := by decide +kernel
/-- 95 F1-3. -/
theorem test_illegal_word :
    stepResults ((placed [] 0 0 0 0 0 0).startCommand 0x111) = some (0x106, 0, 0, 273) := by
  decide +kernel
/-- The word of a table row placed by `withFetchWord` runs as the first instruction after reset. -/
theorem test_fetch_word_runs :
    stepResults (State.reset.withFetchWord 32 0x10) = some (2, 0, 0, 0) := by decide +kernel
/-- 30_encoding R98: `GO FENC` is `(0x00, 0x00000011)`, `WR SRC_LEN, 2` is `(0x0C, 0x00000002)`. -/
theorem test_script_encoding :
    scriptTransactions [.wr .srcLen 2, .go .fenc] =
      [.hostWrite 0x0C 2, .hostWrite 0x00 0x00000011] := by decide
/-- 95 P4 lines 8 and 9: a write while BUSY is ignored. -/
theorem test_busy_write_ignored :
    ((next? ((started .fsize [] 0 447 0 0 0 0).perform (.hostWrite 0x0C 1))).map
      fun t => t.srcLen) = some 447 := by decide +kernel
/-- 95 GF-4, GF-10, GF-11. -/
theorem test_gf_values :
    gfmul 0x11D 0xFF 0xFF = 0xE2 ∧ gfinv 0x11D 0xFF = 0xFD ∧ gflog 0x11D 0xAB = 178 := by
  decide +kernel

/-! ### Witnesses: a concrete state for the hypotheses of each statement -/

/-- The payload of 95 P1. -/
def payload : List Byte := [0x41, 0xAB, 0x54, 0x9F, 0x42]

/-- A busy state the host has reached: ESC of the payload. -/
def busyEsc : State := started .esc payload 0x1000 5 0x2000 7 0 0

/-- The same with a script. -/
def busyEscThen (ts : List Transaction) : State := { busyEsc with script := ts }

/-- An idle state with a script. -/
def idleThen (ts : List Transaction) : State :=
  { placed payload 0x1000 5 0x2000 7 0 0 with script := ts }

theorem witness_busyEsc_inv : busyEsc.Inv :=
  { statusLegal := by decide +kernel, memWf := by decide +kernel, memInside := by decide +kernel,
    memSizeLegal := by decide, resultsZero := fun _ => by decide +kernel,
    windowOpen := fun _ => by decide +kernel,
    unbroken := fun h => by simp [busyEsc, started] at h }

theorem witness_StepRunsTheDecodedCommand :
    (busyEscThen [.completion]).busy = true ∧ (busyEscThen [.completion]).broken = false ∧
      decode (busyEscThen [.completion]).pending = .ok .esc ∧
      (busyEscThen [.completion]).script = .completion :: [] ∧
      busyEsc.script = [] := ⟨rfl, rfl, rfl, rfl, rfl⟩

/-- Both kinds of illegal word: bits 31:8 set, and an unassigned OPCODE at a boundary of its range. -/
theorem witness_IllegalWordEndsInIllegalCommand :
    (∃ s : State, s.busy = true ∧ s.broken = false ∧ s.pending.toNat / 256 ≠ 0 ∧
      s.script = .completion :: []) ∧
    ∃ s : State, s.busy = true ∧ s.broken = false ∧
      ¬ s.pending.toNat % 256 ∈ [0x01, 0x02, 0x10, 0x11, 0x12, 0x13, 0x20, 0x21, 0x22] ∧
      s.script = .completion :: [] :=
  ⟨⟨(idleThen [.completion]).startCommand 0x100, rfl, rfl, by decide, rfl⟩,
   ⟨(idleThen [.completion]).startCommand 0x23, rfl, rfl, by decide, rfl⟩⟩

theorem witness_IdleBlockKeepsItsState :
    (idleThen []).busy = false ∧ (idleThen []).script = [] := ⟨rfl, rfl⟩

theorem witness_CommandStartLatchesTheWord :
    (idleThen [.hostWrite 0x00 0x21]).busy = false ∧
      (idleThen [.hostWrite 0x00 0x21]).script = .hostWrite 0x00 0x21 :: [] := ⟨rfl, rfl⟩

/-- CMD, the first and last operand registers, and the last reserved offset. -/
theorem witness_HostWriteReachesOnlyOperandRegisters :
    ∀ off ∈ [0x00, 0x08, 0x1C, 0xFFC], (idleThen [.hostWrite off 7]).busy = false ∧
      off % 4 = 0 ∧ off ≤ 0xFFC ∧ (idleThen [.hostWrite off 7]).script = .hostWrite off 7 :: [] := by
  decide +kernel

/-- The three clauses: an ignored write, the registers, the refusals at the edges. -/
theorem witness_BusyRegistersIgnoreWritesAndReadZeroResults :
    (busyEscThen [.hostWrite 0xFFC 7]).busy = true ∧ (0xFFC % 4 = 0 ∧ 0xFFC < 0x1000) ∧
      (busyEscThen [.hostWrite 0xFFC 7]).script = .hostWrite 0xFFC 7 :: [] ∧
      ¬ (0x1000 % 4 = 0 ∧ 0x1000 < 0x1000) ∧ ¬ (0x02 % 4 = 0 ∧ 0x02 < 0x1000) ∧
      (busyEscThen [.hostRead 0x1000]).script = .hostRead 0x1000 :: [] := by decide +kernel

theorem windowOf_script (s : State) (ts : List Transaction) (w : Word) :
    ({ s with script := ts } : State).windowOf w = s.windowOf w := by
  unfold State.windowOf
  split
  · rename_i i _; cases i <;> rfl
  · rfl

theorem witness_busyEscThen_inv (ts : List Transaction) : (busyEscThen ts).Inv :=
  { statusLegal := witness_busyEsc_inv.statusLegal, memWf := witness_busyEsc_inv.memWf,
    memInside := witness_busyEsc_inv.memInside, memSizeLegal := witness_busyEsc_inv.memSizeLegal,
    resultsZero := witness_busyEsc_inv.resultsZero,
    windowOpen := fun h => (witness_busyEsc_inv.windowOpen h).trans
      (congrArg some (windowOf_script busyEsc ts _).symm),
    unbroken := witness_busyEsc_inv.unbroken }

/-- Every register of the map and both ends of the reserved offsets. -/
theorem witness_HostReadReturnsTheRegisterAndChangesNothing :
    ∀ off ∈ [0x00, 0x04, 0x08, 0x0C, 0x10, 0x14, 0x18, 0x1C, 0x20, 0x24, 0x28, 0x2C, 0xFFC],
      off % 4 = 0 ∧ off ≤ 0xFFC ∧ (idleThen [.hostRead off]).script = .hostRead off :: [] := by
  decide +kernel

theorem witness_ResultsPersistUntilTheNextStartOrReset :
    let s := idleThen [.memWrite 0x3000 7]
    ∃ t, s.busy = false ∧ step s = .next t ∧ s.script.head? ≠ some .reset ∧
      (∀ w, s.script.head? ≠ some (.hostWrite 0x00 w)) ∧
      ∀ a b, s.script.head? = some (.memWrite a b) → ∀ w ∈ s.windows, w.touches a = false :=
  ⟨_, rfl, rfl, by decide +kernel, by simp [idleThen],
    by simp [idleThen, placed, State.resetWith]⟩

theorem witness_HostReadsBackTheByteItWrote :
    let s := idleThen [.memWrite 0xFFFF 7, .memRead 0xFFFF]
    0xFFFF < s.cfg.memSize ∧ (∀ w ∈ s.windows, w.touches 0xFFFF = false) ∧
      s.script = .memWrite 0xFFFF 7 :: .memRead 0xFFFF :: [] := by decide +kernel

/-- The first source byte of a running command, and the last byte of an idle block's memory. -/
theorem witness_HostReadsBackTheByteItWrote_read :
    (let s := busyEscThen [.memRead 0x1000]
     0x1000 < s.cfg.memSize ∧ (∀ w ∈ s.windows, ∀ r ∈ w.outputs, r.has 0x1000 = false) ∧
       (∃ w ∈ s.windows, w.touches 0x1000 = true) ∧ s.script = .memRead 0x1000 :: []) ∧
    (let s := idleThen [.memRead 0xFFFF]
     0xFFFF < s.cfg.memSize ∧ (∀ w ∈ s.windows, ∀ r ∈ w.outputs, r.has 0xFFFF = false) ∧
       s.script = .memRead 0xFFFF :: []) := by decide +kernel

/-- Both clauses at their boundary values. -/
theorem witness_TransactionsOutsideTheSpacesStop :
    ((idleThen [.memRead 0x10000]).cfg.memSize ≤ 0x10000 ∧
      (idleThen [.memRead 0x10000]).script = .memRead 0x10000 :: []) ∧
    (¬ (0x1000 % 4 = 0 ∧ 0x1000 < 0x1000) ∧
      (idleThen [.hostRead 0x1000]).script = .hostRead 0x1000 :: []) := by decide +kernel

theorem witness_ResetClearsEveryRegister :
    (busyEscThen [.reset]).script = .reset :: [] ∧ (idleThen [.reset]).script = .reset :: [] ∧
      (idleThen [.reset]).busy = false := ⟨rfl, rfl, rfl⟩

/-- An address just past the destination region, and a running illegal word. -/
theorem witness_ResetDuringACommandTouchesOnlyItsOutputs :
    ((busyEscThen [.reset]).Inv ∧ (busyEscThen [.reset]).busy = true ∧
      (busyEscThen [.reset]).script = .reset :: [] ∧
      decode (busyEscThen [.reset]).pending = .ok .esc ∧
      ¬ (busyEscThen [.reset]).destination.has 0x2007) ∧
    ∃ e, decode ((idleThen [.reset]).startCommand 0x23).pending = .error e :=
  ⟨⟨witness_busyEscThen_inv _, rfl, rfl, rfl, by decide +kernel⟩, ⟨_, rfl⟩⟩

/-- The last byte of the destination region of a running command. -/
theorem witness_BusyWindowReadsReturnAFreeByte :
    let s := busyEscThen [.memRead 0x2006]
    0x2006 < s.cfg.memSize ∧ (∃ w ∈ s.windows, ∃ r ∈ w.outputs, r.has 0x2006 = true) ∧
      s.script = .memRead 0x2006 :: [] := by decide +kernel

/-- A broken window in a state that meets the invariant, and an address outside its outputs. -/
theorem witness_BrokenCommandsStillEnd :
    let s : State := { busyEsc with broken := true }
    s.busy = true ∧ s.Inv ∧ s.broken = true ∧ ¬ s.destination.has 0x1FFF ∧ ¬ s.report.has 0x1FFF :=
  ⟨rfl,
    { statusLegal := witness_busyEsc_inv.statusLegal, memWf := witness_busyEsc_inv.memWf,
      memInside := witness_busyEsc_inv.memInside, memSizeLegal := witness_busyEsc_inv.memSizeLegal,
      resultsZero := witness_busyEsc_inv.resultsZero, windowOpen := witness_busyEsc_inv.windowOpen,
      unbroken := fun h => absurd h (by decide +kernel) },
    rfl, by decide +kernel, by decide +kernel⟩

/-- ESC has ended and the host has not read DONE: its window is still open. -/
def endedEsc (ts : List Transaction) : State := { (busyEsc.finish 7 2) with script := ts }

/-- A write to the first source byte and to the last destination byte of a running command, and to a
source byte of one that has ended unread: clauses of each kind. -/
theorem witness_BrokenCommandsStillEnd_write :
    (let s := busyEscThen [.memWrite 0x1000 7]
     s.busy = true ∧ 0x1000 < s.cfg.memSize ∧ (∃ w ∈ s.windows, w.touches 0x1000 = true) ∧
       s.windows.head?.any (·.touches 0x1000) = true ∧ s.script = .memWrite 0x1000 7 :: []) ∧
    (let s := busyEscThen [.memWrite 0x2006 7]
     s.busy = true ∧ 0x2006 < s.cfg.memSize ∧ (∃ w ∈ s.windows, w.touches 0x2006 = true) ∧
       (∃ w ∈ s.windows, w.touches 0x2006 = true ∧ ∃ r ∈ w.outputs, r.has 0x2000 = true) ∧
       (∀ w ∈ s.windows, w.touches 0x2006 = true → ∀ r ∈ w.outputs, r.has 0x2007 = false)) ∧
    (let s := endedEsc [.memWrite 0x1004 7]
     s.busy = false ∧ (∃ w ∈ s.windows, w.touches 0x1004 = true) ∧
       s.windows.head?.any (·.touches 0x1004) = true) ∧
    (let s : State := { endedEsc [] with
       windows := { source := [], outputs := [] } :: (endedEsc []).windows }
     (∃ w ∈ s.windows, w.touches 0x1004 = true) ∧
       s.windows.head?.any (·.touches 0x1004) = false) := by decide +kernel

/-- The host's write into the source region of a running command breaks its window. -/
theorem test_write_breaks_the_window :
    ((next? (step (busyEscThen [.memWrite 0x1004 7]))).map fun t => t.broken) = some true := by
  decide +kernel

theorem witness_StartedCommandsEnd :
    let s := busyEscThen [.hostRead 0x04, .memRead 0x1000]
    s.busy = true ∧ ∀ tr ∈ s.script, tr.wellFormed s.cfg.memSize = true ∧ tr ≠ .reset := by
  decide +kernel

theorem witness_RunStatementPerformsTheCommand :
    (let s := idleThen ((Stmt.run .esc 0x1000 5 0x2000 7).transactions ++ [.reset])
     s.busy = false ∧ s.script = (Stmt.run .esc 0x1000 5 0x2000 7).transactions ++ [.reset]) ∧
    (let s := idleThen ((Stmt.runAux .fdec 0x1000 255 0x2000 223 0x3000 1).transactions ++ [])
     s.busy = false ∧
       s.script = (Stmt.runAux .fdec 0x1000 255 0x2000 223 0x3000 1).transactions ++ []) :=
  ⟨⟨rfl, rfl⟩, ⟨rfl, rfl⟩⟩

/-! ### The end of a run (70_reset_and_hazards R269) -/

/-- The record of a whole script. -/
def record? (s : State) : Option RunRecord :=
  match s.runScript with
  | .next p => some p.2
  | .fault _ => none
  | .refused _ => none

/-- 95 FSIZE example: the script ends as expected; with another result expected it does not. -/
theorem test_run_ends_as_expected :
    let s := idleThen (scriptTransactions [.wr .srcLen 2, .go .fsize, .wait])
    let e : State := { s with srcLen := 2, status := 2, resLen := 255, resAux := 1 }
    s.endsAsExpected e [] = true ∧ s.endsAsExpected { e with resAux := 2 } [] = false := by
  decide +kernel
/-- A fault of the first of two commands makes the script go wrong, unless it is expected. -/
theorem test_run_unexpected_fault :
    let s := idleThen (scriptTransactions
      [.wr .srcLen 3755991008, .go .fsize, .wait, .wr .srcLen 0, .go .fsize, .wait])
    (record? s).map (fun r => (r.endings, r.goneWrong [], r.goneWrong [0])) =
      some ([0x506, 2], true, false) := by decide +kernel
/-- A read of a destination byte before DONE has been read makes the script go wrong; the same read
after it does not. -/
theorem test_run_breach :
    ((record? (busyEscThen [.memRead 0x2000])).map fun r => r.goneWrong []) = some true ∧
    ((record? (busyEscThen (waitTransactions ++ [.memRead 0x2000]))).map fun r =>
      r.goneWrong []) = some false := by decide +kernel

theorem witness_StepKeepsTheInvariant : ∃ t, busyEsc.Inv ∧ step busyEsc = .next t :=
  ⟨_, witness_busyEsc_inv, rfl⟩

theorem witness_StepKeepsTheConfiguration : ∃ t, step busyEsc = .next t := ⟨_, rfl⟩

/-- Each command's checks pass on some state, at the least capacities. -/
theorem witness_CommandsCompleteWhenTheirChecksPass :
    ChecksPass (placed payload 0x1000 5 0x2000 16 0 0) .hash ∧
    ChecksPass (placed payload 0 4293656835 0 0 0 0) .cbound ∧
    ChecksPass (placed payload 0 3755991007 0 0 0 0) .fsize ∧
    ChecksPass (placed payload 0x1000 5 0x2000 255 0 0) .fenc ∧
    ChecksPass (placed payload 0x1000 255 0x2000 32 0 0) .fsyn ∧
    ChecksPass (placed payload 0x1000 255 0x2000 223 0x3000 1) .fdec ∧
    ChecksPass (placed payload 0x1000 5 0 0 0 0) .ecnt ∧
    ChecksPass (placed payload 0x1000 5 0x2000 7 0 0) .esc ∧
    ChecksPass (placed [0x54, 0x9F] 0x1000 2 0x2000 1 0 0) .unesc := by
  refine ⟨?_, ?_, ?_, ?_, ?_, ?_, ?_, ?_, ?_⟩
  · unfold ChecksPass; decide +kernel
  · unfold ChecksPass; decide +kernel
  · unfold ChecksPass; decide +kernel
  · unfold ChecksPass; decide +kernel
  · unfold ChecksPass; decide +kernel
  · unfold ChecksPass; decide +kernel
  · unfold ChecksPass; decide +kernel
  · unfold ChecksPass; decide +kernel
  · exact ⟨by decide +kernel, [0xAB], 1, by decide +kernel, by decide +kernel⟩

theorem witness_CommandsNeverModifyTheOperandRegisters :
    ∃ t, exec .esc (placed payload 0x1000 5 0x2000 7 0 0) = .next t := ⟨_, rfl⟩

theorem witness_CommandsWriteOnlyTheirOutputs :
    ∃ t, exec .esc (placed payload 0x1000 5 0x2000 7 0 0) = .next t ∧
      t.mem.read 0x2006 ≠ (placed payload 0x1000 5 0x2000 7 0 0).mem.read 0x2006 :=
  ⟨_, rfl, by decide +kernel⟩

/-- Two states that differ in a register ESC does not use, in a byte outside the source, and in the
results of an earlier command. -/
theorem witness_CommandsArePureFunctionsOfOperandsAndSource :
    let s1 := placed payload 0x1000 5 0x2000 7 0 0
    let s2 : State := { placed (payload ++ [0x11]) 0x1000 5 0x2000 7 9 9 with resLen := 77 }
    ∃ t1 t2, s1.cfg = s2.cfg ∧ s1.srcLen = s2.srcLen ∧ s1.src = s2.src ∧
      (∀ a, s1.source.has a = true → s1.mem.read a = s2.mem.read a) ∧ s1.dst = s2.dst ∧
      s1.dstCap = s2.dstCap ∧ exec .esc s1 = .next t1 ∧ exec .esc s2 = .next t2 := by
  refine ⟨_, _, rfl, rfl, rfl, ?_, rfl, rfl, rfl, rfl⟩
  intro a ha
  have hb := (Region.has_iff _ a).1 ha
  simp only [State.source, placed] at hb
  have h5 : ∀ i, i < 5 → (placed payload 0x1000 5 0x2000 7 0 0).mem.read (0x1000 + i) =
      (placed (payload ++ [0x11]) 0x1000 5 0x2000 7 9 9).mem.read (0x1000 + i) := by decide +kernel
  have h := h5 (a - 0x1000) (by simp at hb; omega)
  rwa [show 0x1000 + (a - 0x1000) = a by simp at hb; omega] at h

theorem witness_FaultsArePrecise :
    ∃ t, exec .esc (placed payload 0x1000 5 0x2000 6 0 0) = .next t ∧ t.err = true ∧
      t.errcode ≠ 7 := ⟨_, rfl, by decide +kernel, by decide +kernel⟩

/-- Each branch of HASH's rule, at a boundary of its range. -/
theorem witness_HashStoresTheDigest_branches :
    (let s := placed [] 0xFFFF 2 0x2000 16 0 0; ¬ InRange s s.source) ∧
    (let s := placed [] 0x1000 5 0xFFF1 16 0 0; InRange s s.source ∧ ¬ InRange s s.destination) ∧
    (let s := placed [] 0x1000 5 0x1004 16 0 0; InRange s s.destination ∧
      Overlapping s.source s.destination) ∧
    (let s := placed [] 0x1000 5 0x1005 15 0 0; PairPasses s ∧ s.dstCap.toNat < 16) ∧
    (let s := placed [] 0x1000 5 0xFFF0 16 0 0; PairPasses s ∧ ¬ s.dstCap.toNat < 16) := by
  decide +kernel

/-- Both branches of CBOUND and FSIZE at the edge, and both of ECNT. -/
theorem witness_size_branches :
    cboundFn .deflate 4293656836 > 2 ^ 32 - 1 ∧ ¬ cboundFn .deflate 4293656835 > 2 ^ 32 - 1 ∧
    255 * chunksOf 3755991008 > 2 ^ 32 - 1 ∧ ¬ 255 * chunksOf 3755991007 > 2 ^ 32 - 1 ∧
    (let s := placed [] 0xFFFF 2 0 0 0 0; ¬ InRange s s.source) ∧
    (let s := placed [] 0xFFFE 2 0 0 0 0; InRange s s.source) := by decide +kernel

/-- A memory of 2^32 bytes, so that a source can be long enough to overflow. -/
def large (src len dst cap : Word) : State :=
  { placed [] src len dst cap 0 0 with cfg := { Config.default with memSize := 2 ^ 32 } }

/-- The branches of FENC's rule after the region checks. -/
theorem witness_FencStoresTheCodewords_branches :
    (let s := large 0 3755991008 0xFFFFFFF0 0; PairPasses s ∧
      255 * chunksOf s.srcLen.toNat > 2 ^ 32 - 1) ∧
    (let s := placed [] 0x1000 5 0x2000 254 0 0; PairPasses s ∧
      s.dstCap.toNat < 255 * chunksOf s.srcLen.toNat) ∧
    (let s := placed [] 0x1000 5 0x2000 255 0 0; PairPasses s ∧
      ¬ s.dstCap.toNat < 255 * chunksOf s.srcLen.toNat) := by decide +kernel

/-- The branches of FSYN's rule that are its own. -/
theorem witness_FsynStoresTheSyndromes_branches :
    (placed [] 0x1000 254 0x2000 32 0 0).srcLen.toNat % 255 ≠ 0 ∧
    (let s := placed [] 0x1000 255 0x2000 31 0 0; PairPasses s ∧ s.srcLen.toNat % 255 = 0 ∧
      s.dstCap.toNat < 32 * (s.srcLen.toNat / 255)) ∧
    (let s := placed [] 0x1000 255 0x2000 32 0 0; PairPasses s ∧ s.srcLen.toNat % 255 = 0 ∧
      ¬ s.dstCap.toNat < 32 * (s.srcLen.toNat / 255)) := by decide +kernel

/-- The branches of FDEC's rule that are its own. -/
theorem witness_FdecStoresMessagesAndReport_branches :
    (let s := placed [] 0x1000 0 0x2000 0 0xFFFF 2; PairPasses s ∧ ¬ InRange s s.report) ∧
    (let s := placed [] 0x1000 0 0x2000 10 0x2009 1; PairPasses s ∧ InRange s s.report ∧
      Overlapping s.destination s.report) ∧
    (let s := placed [] 0x1000 255 0x2000 222 0x2100 1; PairPasses s ∧
      s.dstCap.toNat < 223 * (s.srcLen.toNat / 255)) ∧
    (let s := placed [] 0x1000 255 0x2000 223 0x2100 0; PairPasses s ∧
      s.auxCap.toNat < s.srcLen.toNat / 255) := by decide +kernel

/-- The branches of ESC's and UNESC's rules after the region checks. -/
theorem witness_EscStoresTheEscapedStream_branches :
    (let s := placed payload 0x1000 5 0x2000 6 0 0; PairPasses s ∧
      s.dstCap.toNat < s.srcLen.toNat + escCount s.sourceBytes) ∧
    (let s := placed payload 0x1000 5 0x2000 7 0 0; PairPasses s ∧
      ¬ s.dstCap.toNat < s.srcLen.toNat + escCount s.sourceBytes) ∧
    unescapeBytes [0x54] = .malformed 0 ∧ unescapeBytes [0x54, 0x9F] = .ok [0xAB] 1 := by
  decide +kernel

/-- A source so long that its escaped length does not fit a word: every byte of it reserved. -/
theorem witness_EscStoresTheEscapedStream_overflow :
    ∃ (len cnt : Nat), cnt ≤ len ∧ len ≤ 2 ^ 32 - 1 ∧ len + cnt > 2 ^ 32 - 1 :=
  ⟨2 ^ 31, 2 ^ 31, by decide, by decide, by decide⟩

theorem witness_SoundBoundCoversTheCompressedLength :
    let s := placed [] 0 102 0 0 0 0
    ∃ t, CBoundSound (cboundFn s.cfg.cbound) (fun bytes => bytes ++ [0]) ∧
      exec .cbound s = .next t ∧ t.status = 0x00000002 ∧
      ([] : List Byte).length ≤ s.srcLen.toNat := by
  refine ⟨_, ?_, rfl, by decide +kernel, by decide⟩
  intro bytes
  simp only [List.length_append, List.length_cons, List.length_nil, placed, State.resetWith,
    Config.default, cboundFn, cboundDeflate]
  omega

theorem witness_GfmulIsACommutativeRingProduct : (0x11D#9).getLsbD 8 = true := by decide

theorem witness_primitive : gfprimitive 0x11D = true := by decide +kernel

theorem witness_ExpTableListsTheNonzeroBytes :
    gfprimitive 0x11D = true ∧ (0 : Nat) < 254 ∧ (254 : Nat) ≤ 254 ∧ (0xFF : Byte) ≠ 0 :=
  ⟨witness_primitive, by decide, by decide, by decide⟩

theorem witness_GfinvIsTheInverse : gfprimitive 0x11D = true ∧ (0x02 : Byte) ≠ 0 :=
  ⟨witness_primitive, by decide⟩

theorem witness_RsEncodeGivesASystematicCodeword :
    gfprimitive 0x11D = true ∧ (List.replicate 223 (0x41 : Byte)).length = 223 :=
  ⟨witness_primitive, List.length_replicate⟩

theorem witness_RsEncodeIsLinear :
    (List.replicate 223 (0x41 : Byte)).length = 223 ∧
      (List.replicate 223 (0x42 : Byte)).length = 223 :=
  ⟨List.length_replicate, List.length_replicate⟩

theorem witness_SyndromeOfASingleError :
    gfprimitive 0x11D = true ∧ (254 : Nat) < 255 ∧ (31 : Nat) < 32 :=
  ⟨witness_primitive, by decide, by decide⟩

theorem gfmul_zero_left (poly : BitVec 9) (v : Byte) : gfmul poly 0 v = 0 := by
  have h : ∀ v : Byte, gfproduct 0 v = 0 := by decide +kernel
  rw [gfmul, h]
  simp [gfreduce, List.range, List.range.loop]

theorem polyEvalHigh_zeros (poly : BitVec 9) (v : Byte) (n : Nat) :
    polyEvalHigh poly (List.replicate n 0) v = 0 := by
  unfold polyEvalHigh
  induction n with
  | zero => rfl
  | succ n ih =>
    rw [List.replicate_succ, List.foldl_cons, gfmul_zero_left]
    exact ih

/-- The all-zero word is a codeword (95 FENC-1). -/
theorem zero_word_is_clean : allZero (syndrome 0x11D (List.replicate 255 0)) = true := by
  rw [allZero, List.all_eq_true]
  intro x hx
  obtain ⟨e, _, rfl⟩ := List.mem_map.1 hx
  rw [polyEvalHigh_zeros]
  rfl

/-- The all-zero word is a codeword, so the decoder corrects it to itself. -/
theorem witness_DecodeReturnsACodewordWithinSixteen :
    (List.replicate 255 (0 : Byte)).length = 255 ∧
      decodeCW 0x11D (List.replicate 255 0) = .corrected (List.replicate 255 0) 0 := by
  refine ⟨List.length_replicate, ?_⟩
  rw [decodeCW, if_pos zero_word_is_clean]

/-- The last bytes of a word whose only nonzero syndrome is `S_31`: `g(x) / (x + ALPHA^32)`, highest
degree first. -/
def beyondTail : List Byte :=
  [0x01, 0x75, 0x35, 0x01, 0xAF, 0x99, 0xE7, 0xF7, 0x35, 0x97, 0xB6, 0x97, 0x0A, 0xBA, 0x7F, 0x9E,
   0x92, 0xA9, 0x9E, 0x63, 0x87, 0x13, 0x3C, 0x8F, 0x36, 0x2E, 0xA4, 0x59, 0x4D, 0xC3, 0xF4, 0x58]

/-- A 255-byte word further than 16 from every codeword. -/
def beyondRadius : List Byte := List.replicate 223 0 ++ beyondTail

theorem syndrome_zeros_append (poly : BitVec 9) (n : Nat) (w : List Byte) :
    syndrome poly (List.replicate n 0 ++ w) = syndrome poly w := by
  unfold syndrome
  refine List.map_congr_left fun e _ => ?_
  have h := polyEvalHigh_zeros poly (gfalphaPow poly e) n
  unfold polyEvalHigh at h ⊢
  rw [List.foldl_append, h]

theorem syndrome_beyondTail :
    syndrome 0x11D beyondTail = List.replicate 31 0 ++ [0x42] := by decide +kernel

theorem decode_beyondRadius : decodeCW 0x11D beyondRadius = .uncorrectable := by
  have h : syndrome 0x11D beyondRadius = List.replicate 31 0 ++ [0x42] :=
    (syndrome_zeros_append ..).trans syndrome_beyondTail
  unfold decodeCW
  rw [h]
  decide +kernel

/-- A word of each kind. -/
theorem witness_ReportBytesAreCountsOrTheMark :
    decodeCW 0x11D (List.replicate 255 (0 : Byte)) = .corrected (List.replicate 255 0) 0 ∧
      decodeCW 0x11D beyondRadius = .uncorrectable :=
  ⟨witness_DecodeReturnsACodewordWithinSixteen.2, decode_beyondRadius⟩

/-- The two branches of the end of FDEC: no codeword at all, and one that is uncorrectable. -/
theorem witness_FdecStoresMessagesAndReport_ends :
    firstUncorrectable 0x11D 0 [] = none ∧ firstUncorrectable 0x11D 1 beyondRadius = some 0 := by
  refine ⟨rfl, ?_⟩
  have h : codewordAt beyondRadius 0 = beyondRadius := by decide +kernel
  show (List.range 1).find? _ = some 0
  simp [List.range, List.range.loop, h]
  exact decode_beyondRadius

/-- A word of each kind: a codeword, and one that is none (95 FSYN-2). -/
theorem witness_DecodeLeavesExactlyTheCodewordsAlone :
    (List.replicate 255 (0 : Byte)).length = 255 ∧
      ((List.replicate 255 (0 : Byte)).set 254 1).length = 255 :=
  ⟨List.length_replicate, (List.length_set ..).trans List.length_replicate⟩

theorem witness_DecodeIsBoundedDistanceDecoding :
    gfprimitive 0x11D = true ∧ (List.replicate 255 (0 : Byte)).length = 255 :=
  ⟨witness_primitive, List.length_replicate⟩

/-- FENC of the payload, whose codeword lies at 0x2000. -/
def encoded : State := placed payload 0x1000 5 0x2000 255 0 0

theorem witness_FsynOfFencOutputIsZero :
    ∃ t u : State, gfprimitive encoded.cfg.primPoly = true ∧ exec .fenc encoded = .next t ∧
      t.status = 0x00000002 ∧ u.cfg = t.cfg ∧ u.mem = t.mem ∧ u.src = t.dst ∧
      u.srcLen = t.resLen ∧ PairPasses u ∧ 32 * t.resAux.toNat ≤ u.dstCap.toNat :=
  ⟨(encoded.store encoded.dst (fecEncode encoded.cfg.primPoly encoded.sourceBytes)).finish 255 1,
   { placed [] 0x2000 255 0x4000 32 0 0 with
     mem := (encoded.store encoded.dst (fecEncode encoded.cfg.primPoly encoded.sourceBytes)).mem },
   witness_primitive, rfl, rfl, rfl, rfl, rfl, rfl,
   ⟨.inr (show 0x2000 + 255 ≤ 0x10000 by decide), .inr (show 0x4000 + 32 ≤ 0x10000 by decide),
    fun h => absurd (show (0x4000 : Nat) < 0x2000 + 255 from h.2.2.2) (by decide)⟩,
   show 32 * 1 ≤ 32 by decide⟩

/-- The codeword FENC writes for `encoded`. -/
def encodedWord : List Byte := fecEncode encoded.cfg.primPoly encoded.sourceBytes

/-- `Mem` after FENC of `encoded`. -/
def encodedMem : Memory := encoded.mem.writeBytes 0x2000 encodedWord

/-- The same with 16 bytes of the codeword changed: the most that is always corrected. -/
def corruptedMem : Memory := encodedMem.writeBytes 0x2000 (List.replicate 16 0xFF)

theorem length_encodedWord : encodedWord.length = 255 :=
  (length_fecEncode _ _).trans (by decide +kernel)

theorem encodedMem_read (i : Nat) (h : i < 255) :
    encodedMem.read (0x2000 + i) = encodedWord.getD i 0 :=
  Memory.read_writeBytes_inside _ _ _ _ (length_encodedWord.symm ▸ h)

theorem corruptedMem_read_changed (i : Nat) (h : i < 16) :
    corruptedMem.read (0x2000 + i) = 0xFF := by
  rw [corruptedMem, Memory.read_writeBytes_inside _ _ _ _ (by rwa [List.length_replicate])]
  exact List.getD_replicate _ h

theorem corruptedMem_read_kept (i : Nat) (h : 16 ≤ i) :
    corruptedMem.read (0x2000 + i) = encodedMem.read (0x2000 + i) :=
  Memory.read_writeBytes_outside _ _ _ _ (.inr (by rw [List.length_replicate]; omega))

/-- Exactly the first 16 bytes of the codeword differ. -/
theorem corrupted_changes_sixteen :
    ((List.range 255).countP fun i =>
      decide (corruptedMem.read (0x2000 + 255 * 0 + i) ≠
        encodedMem.read (0x2000 + 255 * 0 + i))) = 16 := by
  have hword : ∀ i, i < 16 → encodedWord.getD i 0 ≠ 0xFF := by decide +kernel
  have hiff : ∀ i, decide (corruptedMem.read (0x2000 + i) ≠ encodedMem.read (0x2000 + i)) =
      decide (i < 16) := by
    intro i
    rw [decide_eq_decide]
    rcases Nat.lt_or_ge i 16 with h | h
    · rw [corruptedMem_read_changed i h, encodedMem_read i (by omega)]
      exact iff_of_true (hword i h).symm h
    · rw [corruptedMem_read_kept i h]
      exact iff_of_false (fun hne => hne rfl) (by omega)
  rw [Nat.mul_zero, Nat.add_zero, funext hiff]
  decide +kernel

/-- The end of FENC of `encoded`. -/
def encodedEnd : State := (encoded.store encoded.dst encodedWord).finish 255 1

/-- FDEC of the corrupted codeword. -/
def corrupted : State := { placed [] 0x2000 255 0x4000 223 0x5000 1 with mem := corruptedMem }

theorem encodedEnd_dst : encodedEnd.dst.toNat = 0x2000 := rfl
theorem encodedEnd_mem : encodedEnd.mem = encodedMem := by
  rw [encodedEnd, State.finish_mem, State.store_mem, encodedMem,
    show encoded.dst.toNat = 0x2000 from rfl]
theorem corrupted_mem : corrupted.mem = corruptedMem := by rw [corrupted]
theorem corrupted_src : corrupted.src.toNat = 0x2000 := rfl

theorem witness_FdecOfFencOutputReturnsTheSource :
    ∃ t u : State, gfprimitive encoded.cfg.primPoly = true ∧ exec .fenc encoded = .next t ∧
      t.status = 0x00000002 ∧ u.cfg = t.cfg ∧ u.srcLen = t.resLen ∧ ChecksPass u .fdec ∧
      t.resAux.toNat = 1 ∧
      ((List.range 255).countP fun i =>
        decide (u.mem.read (u.src.toNat + 255 * 0 + i) ≠
          t.mem.read (t.dst.toNat + 255 * 0 + i))) = 16 :=
  ⟨encodedEnd, corrupted, witness_primitive, rfl, rfl, rfl, rfl,
   ⟨show 255 % 255 = 0 by decide,
    ⟨.inr (show 0x2000 + 255 ≤ 0x10000 by decide), .inr (show 0x4000 + 223 ≤ 0x10000 by decide),
     fun h => absurd (show (0x4000 : Nat) < 0x2000 + 255 from h.2.2.2) (by decide)⟩,
    .inr (show 0x5000 + 1 ≤ 0x10000 by decide),
    fun h => absurd (show (0x5000 : Nat) < 0x2000 + 255 from h.2.2.2) (by decide),
    fun h => absurd (show (0x5000 : Nat) < 0x4000 + 223 from h.2.2.2) (by decide),
    show 223 * (255 / 255) ≤ 223 by decide, show 255 / 255 ≤ 1 by decide⟩,
   rfl, by
     rw [encodedEnd_mem, encodedEnd_dst, corrupted_mem, corrupted_src]
     exact corrupted_changes_sixteen⟩

theorem witness_FdecCorrectsNothingIffFsynIsClean :
    let s := placed payload 0x1000 255 0x2000 32 0 0
    let u := placed payload 0x1000 255 0x3000 223 0x4000 1
    u.cfg = s.cfg ∧ u.mem = s.mem ∧ u.src = s.src ∧ u.srcLen = s.srcLen ∧ ChecksPass s .fsyn ∧
      ChecksPass u .fdec ∧ (∃ t, exec .fsyn s = .next t) ∧ ∃ v, exec .fdec u = .next v := by
  refine ⟨rfl, rfl, rfl, rfl, ?_, ?_, ⟨_, rfl⟩, ?_⟩
  · unfold ChecksPass; decide +kernel
  · unfold ChecksPass; decide +kernel
  · obtain ⟨t, ht, _⟩ : ∃ t, exec .fdec (placed payload 0x1000 255 0x3000 223 0x4000 1) =
        .next t ∧ True := by
      simp only [exec, execFdec]
      repeat' split
      all_goals exact ⟨_, rfl, trivial⟩
    exact ⟨t, ht⟩

/-- A source of zero bytes, a codeword: FSYN counts none. -/
theorem witness_FdecCorrectsNothingIffFsynIsClean_clean :
    let s := placed [] 0x1000 255 0x2000 32 0 0
    ChecksPass s .fsyn ∧ ChecksPass { s with dst := 0x3000, dstCap := 223, aux := 0x4000, auxCap := 1 }
      .fdec ∧ ∃ t, exec .fsyn s = .next t ∧ t.resAux = 0 := by
  refine ⟨by unfold ChecksPass; decide +kernel, by unfold ChecksPass; decide +kernel, _, rfl, ?_⟩
  have hsrc : splitCodewords 1 (placed [] 0x1000 255 0x2000 32 0 0).sourceBytes =
      [List.replicate 255 0] := by decide +kernel
  have hz := zero_word_is_clean
  show toWord (((splitCodewords 1 (placed [] 0x1000 255 0x2000 32 0 0).sourceBytes).map
    (syndrome 0x11D)).countP fun b => !allZero b) = 0
  rw [hsrc, List.map_singleton, List.countP_singleton, hz]
  rfl

/-- Both ways an ESCAPE byte is bad, and an input that unescapes. -/
theorem witness_MalformedIndexIsABadEscape :
    unescapeBytes [0x41, 0x54] = .malformed 1 ∧ unescapeBytes [0x54, 0xAB] = .malformed 0 ∧
      unescapeBytes [0xAB, 0x54, 0x9F, 0xAB] = .ok [0xAB, 0xAB, 0xAB] 1 := by
  decide +kernel

theorem witness_EscLengthIsSourcePlusEcnt :
    let s := placed payload 0x1000 5 0x2000 7 0 0
    let u := placed payload 0x1000 5 0 0 0 0
    u.cfg = s.cfg ∧ u.mem = s.mem ∧ u.src = s.src ∧ u.srcLen = s.srcLen ∧
      ∃ v t, exec .ecnt u = .next v ∧ exec .esc s = .next t ∧ t.status = 0x00000002 :=
  ⟨rfl, rfl, rfl, rfl, _, _, rfl, rfl, by decide +kernel⟩

theorem witness_UnescOfEscOutputRestoresTheSource :
    let s := placed payload 0x1000 5 0x2000 7 0 0
    ∃ t u : State, exec .esc s = .next t ∧ t.status = 0x00000002 ∧ u.cfg = t.cfg ∧
      u.mem = t.mem ∧ u.src = t.dst ∧ u.srcLen = t.resLen ∧ PairPasses u ∧
      s.srcLen.toNat ≤ u.dstCap.toNat :=
  ⟨_, { placed [] 0x2000 7 0x3000 5 0 0 with
        mem := Memory.writeBytes (Memory.writeBytes [] 0x1000 payload) 0x2000
          (escapeBytes payload) },
    rfl, by decide +kernel, by decide +kernel, by decide +kernel, by decide +kernel,
    by decide +kernel, by decide +kernel, by decide +kernel⟩

end Sys2Proof.Tests
end

section
/-! PROOFS. The host's register accesses (10_state R22 to R25, R31) and the reset state (R41): what the
register map returns, what a step that takes a register transaction is, and the statements that
follow. -/

namespace Sys2Proof.Machine

/-! ### The register map (10_state R22) -/

/-- Every offset from 0x2C on is reserved (10_state R22). -/
theorem State.readRegister_reserved (s : State) {off : Nat} (h : 0x2C ≤ off) :
    s.readRegister off = 0 := by
  unfold State.readRegister
  repeat rw [if_neg (by omega)]

/-- A read returns one of the ten stored registers, or 0 (10_state R22, R23). -/
theorem State.readRegister_mem (s : State) (off : Nat) :
    s.readRegister off ∈ [s.status, s.src, s.srcLen, s.dst, s.dstCap, s.aux, s.auxCap,
      s.resLen, s.resAux, s.errInfo, 0] := by
  unfold State.readRegister
  repeat' split
  all_goals simp

/-- Right after reset no register holds anything but 0 (10_state R41). -/
@[simp] theorem State.resetWith_readRegister (cfg : Config) (mem : Memory) (off : Nat) :
    (State.resetWith cfg mem).readRegister off = 0 := by
  simpa using (State.resetWith cfg mem).readRegister_mem off

/-! ### STATUS right after a command's start -/

@[simp] theorem State.startCommand_err (s : State) (w : Word) : (s.startCommand w).err = false := by
  simp [State.err]

@[simp] theorem State.startCommand_errcode (s : State) (w : Word) :
    (s.startCommand w).errcode = 0 := by
  simp [State.errcode]

/-! ### Register transactions (10_state R23, R24) -/

/-- The two spellings of the register space's upper end, the last word's offset and the size. -/
theorem registerOffset_of_le {off : Nat} (haligned : off % 4 = 0) (hle : off ≤ 0xFFC) :
    registerOffset off = true := by
  simp only [registerOffset, Bool.and_eq_true, decide_eq_true_eq]
  omega

theorem step_of_hostWrite {s : State} {off : Nat} {v : Word} {rest : List Transaction}
    (hscript : s.script = .hostWrite off v :: rest) (hoff : registerOffset off = true) :
    step s = .next ((s.takeScript rest).hostWrite off v) := by
  simp [step, hscript, State.perform, hoff]

theorem step_of_hostRead {s : State} {off : Nat} {rest : List Transaction}
    (hscript : s.script = .hostRead off :: rest) (hoff : registerOffset off = true) :
    step s = .next ((s.takeScript rest).hostRead off) := by
  simp [step, hscript, State.perform, hoff]

theorem State.hostWrite_idle_cmd {s : State} (hidle : s.busy = false) (v : Word) :
    s.hostWrite 0x00 v = s.startCommand v := by
  simp [State.hostWrite, hidle]

theorem State.hostWrite_idle_of_ne_cmd {s : State} (hidle : s.busy = false) {off : Nat}
    (hoff : off ≠ 0x00) (v : Word) : s.hostWrite off v = s.writeOperand off v := by
  simp [State.hostWrite, hidle, hoff]

/-- The step by which an idle block starts a command (10_state R31). -/
theorem step_of_commandStart {s : State} {w : Word} {rest : List Transaction}
    (hidle : s.busy = false) (hscript : s.script = .hostWrite 0x00 w :: rest) :
    step s = .next ((s.takeScript rest).startCommand w) := by
  rw [step_of_hostWrite hscript rfl,
    State.hostWrite_idle_cmd ((s.takeScript_busy rest).trans hidle)]

/-- The step by which an idle block takes a write at any other offset (10_state R24). -/
theorem step_of_operandWrite {s : State} {off : Nat} {v : Word} {rest : List Transaction}
    (hidle : s.busy = false) (hoff : registerOffset off = true) (hcmd : off ≠ 0x00)
    (hscript : s.script = .hostWrite off v :: rest) :
    step s = .next ((s.takeScript rest).writeOperand off v) := by
  rw [step_of_hostWrite hscript hoff,
    State.hostWrite_idle_of_ne_cmd ((s.takeScript_busy rest).trans hidle) hcmd]

/-! ### The statements -/

/-- Settles O7: the step is `State.startCommand`, whose fields are known one by one; the word `w` is
latched without being looked at. -/
theorem commandStartLatchesTheWord : Obligations.CommandStartLatchesTheWord := by
  intro s w rest hidle hscript
  exact ⟨(s.takeScript rest).startCommand w, step_of_commandStart hidle hscript, by simp⟩

/-- Settles O8, by cases on whether the offset is that of CMD. -/
theorem hostWriteReachesOnlyOperandRegisters :
    Obligations.HostWriteReachesOnlyOperandRegisters := by
  intro s off v rest hidle haligned hle hscript
  by_cases hcmd : off = 0x00
  · subst hcmd
    exact ⟨_, step_of_commandStart hidle hscript, fun _ => rfl, fun h => absurd rfl h⟩
  · have hstep := step_of_operandWrite hidle (registerOffset_of_le haligned hle) hcmd hscript
    refine ⟨_, hstep, fun h => absurd h hcmd, fun _ => ?_⟩
    simp [State.writeOperand_src, State.writeOperand_srcLen, State.writeOperand_dst,
      State.writeOperand_dstCap, State.writeOperand_aux, State.writeOperand_auxCap]

/-- Settles O10: the word returned is `State.readRegister`'s, taken row by row of the map, and
`State.hostRead` changes only the model's own fields. -/
theorem hostReadReturnsTheRegisterAndChangesNothing :
    Obligations.HostReadReturnsTheRegisterAndChangesNothing := by
  intro s off rest haligned hle hscript
  have hstep := step_of_hostRead hscript (registerOffset_of_le haligned hle)
  refine ⟨(s.takeScript rest).hostRead off, s.readRegister off, hstep, rfl, ?_, ?_, ?_, ?_, ?_, ?_,
    ?_, ?_, ?_, ?_, ?_, s.readRegister_reserved, by simp⟩
  all_goals rintro rfl; rfl

/-- Settles O16: `State.reset` is a `State.resetWith`, and its STATUS is 0. -/
theorem resetStateReadsZero : Obligations.ResetStateReadsZero :=
  ⟨State.resetWith_readRegister Config.default [], rfl, rfl, rfl, rfl⟩

end Sys2Proof.Machine
end

section
/-! PROOFS. Decoding the command word (30_encoding R90 to R93): a word decodes to a command iff it is
the word of that command, and so iff it matches that command's row of the opcode table. -/

namespace Sys2Proof

/-! ### The two fields (30_encoding R90) -/

/-- ZERO and OPCODE are the whole word. -/
theorem zeroField_append_opcodeField (w : Word) : zeroField w ++ opcodeField w = w :=
  BitVec.extractLsb'_append_extractLsb'_eq_extractLsb' (by rfl) |>.trans BitVec.extractLsb'_eq_self

theorem word_ext_fields {v w : Word} (hzero : zeroField v = zeroField w)
    (hop : opcodeField v = opcodeField w) : v = w := by
  rw [← zeroField_append_opcodeField v, ← zeroField_append_opcodeField w, hzero, hop]

/-! ### Decoding is the inverse of encoding (30_encoding R91, R92) -/

@[simp] theorem zeroField_encode (i : Instr) : zeroField (encode i) = 0 := by
  cases i <;> rfl

@[simp] theorem decodeOpcode_opcodeField_encode (i : Instr) :
    decodeOpcode (opcodeField (encode i)) = .ok i := by
  cases i <;> rfl

/-- An OPCODE that decodes to a command is that of its row, branch by branch of the lookup. -/
theorem opcodeField_encode_of_decodeOpcode {op : Byte} {i : Instr}
    (h : decodeOpcode op = .ok i) : op = opcodeField (encode i) := by
  unfold decodeOpcode at h
  repeat' split at h
  all_goals cases h
  all_goals assumption

theorem decode_eq_ok_iff_fields (w : Word) (i : Instr) :
    decode w = .ok i ↔ zeroField w = 0 ∧ decodeOpcode (opcodeField w) = .ok i := by
  by_cases hzero : zeroField w = 0
  · rw [decode, if_neg (not_not.2 hzero), and_iff_right hzero]
  · rw [decode, if_pos hzero]
    exact iff_of_false nofun fun h => hzero h.1

/-- The one word that decodes to `i` is `encode i`. -/
theorem decode_eq_ok_iff (w : Word) (i : Instr) : decode w = .ok i ↔ w = encode i := by
  rw [decode_eq_ok_iff_fields]
  constructor
  · rintro ⟨hzero, hop⟩
    exact word_ext_fields (hzero.trans (zeroField_encode i).symm)
      (opcodeField_encode_of_decodeOpcode hop)
  · rintro rfl
    exact ⟨zeroField_encode i, decodeOpcode_opcodeField_encode i⟩

/-! ### The opcode table (30_encoding R92) -/

/-- The commands in the order of the table. -/
def tableCommands : List Instr :=
  [.hash, .cbound, .fsize, .fenc, .fsyn, .fdec, .ecnt, .esc, .unesc]

theorem mem_tableCommands (i : Instr) : i ∈ tableCommands := by
  cases i <;> decide

/-- The row of `i`: the command, its `match` and its `mask`. -/
def tableRow (i : Instr) : Instr × Word × Word := (i, encode i, encodingMask i)

/-- Every mask is all ones, so masking keeps the word. -/
@[simp] theorem and_encodingMask (w : Word) (i : Instr) : w &&& encodingMask i = w := by
  have hmask : encodingMask i = BitVec.allOnes 32 := by cases i <;> rfl
  rw [hmask, BitVec.and_allOnes]

/-- A word matches a row of command `i` iff it is the word of `i`: each command has one row. -/
theorem exists_tableRow_match_iff (w : Word) (i : Instr) :
    (∃ row ∈ tableCommands.map tableRow, row.1 = i ∧ w &&& row.2.2 = row.2.1) ↔
      w = encode i := by
  simp [tableRow, mem_tableCommands]

/-! ### The statement -/

/-- Settles O1: the rows written out are those of `tableRow`, and both sides say that `w` is
`encode i`. -/
theorem decodeAcceptsExactlyTheTableRows : Obligations.DecodeAcceptsExactlyTheTableRows := by
  intro w i
  exact (decode_eq_ok_iff w i).trans (exists_tableRow_match_iff w i).symm

end Sys2Proof
end

section
/-! PROOFS. The field of a primitive `PRIM_POLY` (40_arith_gf256 R122 to R126). A byte stands for a
polynomial over GF(2), and a symbol for its class modulo `PRIM_POLY` (`symbolClass`): an injective map
that turns `gfmul` into the product of a commutative ring. ALPHA becomes the ring's root, of order
255, so its powers are the 255 nonzero bytes and the inverse of a power is the power that completes
it to 255. -/

namespace Sys2Proof.Machine

open Polynomial

/-! ### Bit vectors as polynomials over GF(2) (40_arith_gf256 R122) -/

/-- The polynomial whose coefficient of `x^i` is bit `i`. -/
noncomputable def bitPoly {n : Nat} (x : BitVec n) : (ZMod 2)[X] :=
  ∑ i ∈ Finset.range n, if x.getLsbD i then X ^ i else 0

theorem coeff_bitPoly {n : Nat} (x : BitVec n) (k : Nat) :
    (bitPoly x).coeff k = if x.getLsbD k then 1 else 0 := by
  have hterm : ∀ i, (if x.getLsbD i then X ^ i else 0 : (ZMod 2)[X]).coeff k =
      if k = i then (if x.getLsbD i then 1 else 0) else 0 := by
    intro i
    split <;> simp [coeff_X_pow]
  simp only [bitPoly, finsetSum_coeff, hterm, Finset.sum_ite_eq, Finset.mem_range]
  by_cases hk : k < n
  · rw [if_pos hk]
  · rw [if_neg hk, BitVec.getLsbD_of_ge x k (Nat.le_of_not_lt hk), if_neg Bool.false_ne_true]

theorem bitPoly_zero {n : Nat} : bitPoly (0 : BitVec n) = 0 := by
  ext k
  simp [coeff_bitPoly]

/-- Exclusive-or adds (40_arith_gf256 R123). -/
theorem bitPoly_xor {n : Nat} (x y : BitVec n) : bitPoly (x ^^^ y) = bitPoly x + bitPoly y := by
  ext k
  rw [coeff_add, coeff_bitPoly, coeff_bitPoly, coeff_bitPoly, BitVec.getLsbD_xor]
  cases x.getLsbD k <;> cases y.getLsbD k <;> decide

/-- A change of width that drops no set bit. -/
theorem bitPoly_setWidth {n m : Nat} {x : BitVec n} (hx : ∀ k, m ≤ k → x.getLsbD k = false) :
    bitPoly (x.setWidth m) = bitPoly x := by
  ext k
  rw [coeff_bitPoly, coeff_bitPoly, BitVec.getLsbD_setWidth]
  by_cases hk : k < m
  · simp [hk]
  · simp [hx k (Nat.le_of_not_lt hk)]

/-- A shift with room for every bit multiplies by a power of `x`. -/
theorem bitPoly_setWidth_shiftLeft {n m : Nat} (x : BitVec n) {i : Nat} (hroom : n + i ≤ m) :
    bitPoly (x.setWidth m <<< i) = X ^ i * bitPoly x := by
  ext k
  rw [coeff_X_pow_mul', coeff_bitPoly, coeff_bitPoly, BitVec.getLsbD_shiftLeft,
    BitVec.getLsbD_setWidth]
  by_cases hik : i ≤ k
  · rw [if_pos hik]
    by_cases hkm : k < m
    · simp [hkm, Nat.not_lt.2 hik, show k - i < m by omega]
    · simp [hkm, BitVec.getLsbD_of_ge x (k - i) (by omega)]
  · simp [hik, Nat.lt_of_not_le hik]

theorem degree_bitPoly_lt {n : Nat} (x : BitVec n) : (bitPoly x).degree < n := by
  rw [degree_lt_iff_coeff_zero]
  intro k hk
  rw [coeff_bitPoly, BitVec.getLsbD_of_ge x k hk, if_neg Bool.false_ne_true]

theorem le_degree_bitPoly {n k : Nat} {x : BitVec n} (hk : x.getLsbD k = true) :
    (k : WithBot Nat) ≤ (bitPoly x).degree := by
  refine le_degree_of_ne_zero ?_
  rw [coeff_bitPoly, if_pos hk]
  exact one_ne_zero

theorem bitPoly_eq_zero_iff {n : Nat} {x : BitVec n} : bitPoly x = 0 ↔ x = 0 := by
  constructor
  · intro h
    refine BitVec.eq_of_getLsbD_eq fun k _ => ?_
    have hcoeff := coeff_bitPoly x k
    rw [h, coeff_zero] at hcoeff
    cases hbit : x.getLsbD k
    · simp
    · simp [hbit] at hcoeff
  · rintro rfl
    exact bitPoly_zero

/-! ### The two loops of `gfmul` (40_arith_gf256 R124) -/

/-- One step of the first loop. -/
def gfproductStep (a b : Byte) (p : SymbolProduct) (i : Nat) : SymbolProduct :=
  if b.getLsbD i then p ^^^ (a.setWidth _ <<< i) else p

theorem gfproduct_eq_foldl (a b : Byte) :
    gfproduct a b = (List.range 8).foldl (gfproductStep a b) 0 := rfl

/-- The first loop up to bit `n` multiplies by the part of `b` below `x^n`. -/
theorem bitPoly_foldl_gfproductStep (a b : Byte) {n : Nat} (hn : n ≤ 8) :
    bitPoly ((List.range n).foldl (gfproductStep a b) 0) =
      bitPoly a * ∑ i ∈ Finset.range n, if b.getLsbD i then X ^ i else 0 := by
  induction n with
  | zero => exact bitPoly_zero.trans (mul_zero _).symm
  | succ n ih =>
    rw [List.range_succ, List.foldl_concat, Finset.sum_range_succ, mul_add, ← ih (by omega),
      gfproductStep]
    split
    · rw [bitPoly_xor, bitPoly_setWidth_shiftLeft a (by omega), mul_comm (X ^ n)]
    · rw [mul_zero, add_zero]

theorem bitPoly_gfproduct (a b : Byte) : bitPoly (gfproduct a b) = bitPoly a * bitPoly b := by
  rw [gfproduct_eq_foldl]
  exact bitPoly_foldl_gfproductStep a b le_rfl

/-- One step of the second loop. -/
def gfreduceStep (poly : PrimPoly) (p : SymbolProduct) (i : Nat) : SymbolProduct :=
  if p.getLsbD (i + 8) then p ^^^ (poly.setWidth _ <<< i) else p

theorem gfreduce_eq_foldl (poly : PrimPoly) (p : SymbolProduct) :
    gfreduce poly p = (List.range 7).reverse.foldl (gfreduceStep poly) p := rfl

theorem dvd_bitPoly_gfreduceStep_sub (poly : PrimPoly) (p : SymbolProduct) {i : Nat} (hi : i < 7) :
    bitPoly poly ∣ bitPoly (gfreduceStep poly p i) - bitPoly p := by
  unfold gfreduceStep
  split
  · rw [bitPoly_xor, bitPoly_setWidth_shiftLeft poly (by omega), add_sub_cancel_left]
    exact dvd_mul_left _ _
  · simp

/-- The step for bit `i + 8` clears it, where the polynomial's top bit stands. -/
theorem getLsbD_gfreduceStep {poly : PrimPoly} (htop : poly.getLsbD 8 = true) {p : SymbolProduct}
    {i : Nat} (hi : i < 7) (hp : ∀ k, i + 9 ≤ k → p.getLsbD k = false) {k : Nat} (hk : i + 8 ≤ k) :
    (gfreduceStep poly p i).getLsbD k = false := by
  unfold gfreduceStep
  rcases Nat.eq_or_lt_of_le hk with rfl | hlt
  · split
    next hbit =>
      rw [BitVec.getLsbD_xor, BitVec.getLsbD_shiftLeft, BitVec.getLsbD_setWidth, hbit]
      simp [htop, show i + 8 < 15 by omega]
    next hbit => exact Bool.eq_false_iff.2 hbit
  · split
    · rw [BitVec.getLsbD_xor, BitVec.getLsbD_shiftLeft, BitVec.getLsbD_setWidth, hp k hlt,
        BitVec.getLsbD_of_ge poly (k - i) (by omega)]
      simp
    · exact hp k hlt

/-- The second loop from bit `n + 7` down keeps the class and leaves at most eight bits. -/
theorem foldl_gfreduceStep {poly : PrimPoly} (htop : poly.getLsbD 8 = true) {n : Nat} (hn : n ≤ 7)
    (p : SymbolProduct) (hp : ∀ k, n + 8 ≤ k → p.getLsbD k = false) :
    let r := (List.range n).reverse.foldl (gfreduceStep poly) p
    bitPoly poly ∣ bitPoly r - bitPoly p ∧ ∀ k, 8 ≤ k → r.getLsbD k = false := by
  induction n generalizing p with
  | zero => exact ⟨by simp, by simpa using hp⟩
  | succ n ih =>
    rw [List.range_succ, List.reverse_concat, List.foldl_cons]
    obtain ⟨hdvd, hbits⟩ := ih (by omega) (gfreduceStep poly p n) fun k hk =>
      getLsbD_gfreduceStep htop (by omega) (fun j hj => hp j (by omega)) hk
    refine ⟨?_, hbits⟩
    have hstep := dvd_bitPoly_gfreduceStep_sub poly p (i := n) (by omega)
    simpa using dvd_add hdvd hstep

/-- `gfmul` is the product modulo `PRIM_POLY`. -/
theorem dvd_bitPoly_gfmul_sub {poly : PrimPoly} (htop : poly.getLsbD 8 = true) (a b : Byte) :
    bitPoly poly ∣ bitPoly (gfmul poly a b) - bitPoly a * bitPoly b := by
  obtain ⟨hdvd, hbits⟩ := foldl_gfreduceStep htop le_rfl (gfproduct a b) fun k hk =>
    BitVec.getLsbD_of_ge _ k hk
  rw [← gfreduce_eq_foldl, bitPoly_gfproduct] at hdvd
  rw [← gfreduce_eq_foldl] at hbits
  rwa [gfmul, bitPoly_setWidth hbits]

/-! ### Symbols as classes modulo `PRIM_POLY` -/

/-- The class of a symbol modulo `PRIM_POLY`. -/
noncomputable def symbolClass (poly : PrimPoly) (a : Byte) : AdjoinRoot (bitPoly poly) :=
  AdjoinRoot.mk (bitPoly poly) (bitPoly a)

theorem symbolClass_zero (poly : PrimPoly) : symbolClass poly 0 = 0 := by
  rw [symbolClass, bitPoly_zero, map_zero]

theorem symbolClass_one (poly : PrimPoly) : symbolClass poly 1 = 1 := by
  have hone : bitPoly (1 : Byte) = 1 := by simp [bitPoly]
  rw [symbolClass, hone, map_one]

theorem symbolClass_alpha (poly : PrimPoly) :
    symbolClass poly Config.alpha = AdjoinRoot.root (bitPoly poly) := by
  have halpha : bitPoly Config.alpha = X := by simp [bitPoly, Finset.sum_range_succ, Config.alpha]
  rw [symbolClass, halpha, AdjoinRoot.mk_X]

theorem symbolClass_gfmul {poly : PrimPoly} (htop : poly.getLsbD 8 = true) (a b : Byte) :
    symbolClass poly (gfmul poly a b) = symbolClass poly a * symbolClass poly b := by
  rw [symbolClass, symbolClass, symbolClass, ← map_mul, AdjoinRoot.mk_eq_mk]
  exact dvd_bitPoly_gfmul_sub htop a b

/-- A symbol's polynomial has a smaller degree than `PRIM_POLY`, so no two are congruent. -/
theorem symbolClass_injective {poly : PrimPoly} (htop : poly.getLsbD 8 = true) :
    Function.Injective (symbolClass poly) := by
  intro a b hab
  have hdvd : bitPoly poly ∣ bitPoly (a ^^^ b) := by
    rw [bitPoly_xor, ← CharTwo.sub_eq_add]
    exact AdjoinRoot.mk_eq_mk.1 hab
  have hzero := eq_zero_of_dvd_of_degree_lt hdvd
    ((degree_bitPoly_lt (a ^^^ b)).trans_le (le_degree_bitPoly htop))
  exact BitVec.xor_eq_zero_iff.1 (bitPoly_eq_zero_iff.1 hzero)

/-! ### The powers of ALPHA (40_arith_gf256 R125) -/

@[simp] theorem length_gfpowers (poly : PrimPoly) (n : Nat) (x : Byte) :
    (gfpowers poly n x).length = n := by
  induction n generalizing x with
  | zero => rfl
  | succ n ih => rw [gfpowers, List.length_cons, ih]

theorem symbolClass_getElem_gfpowers {poly : PrimPoly} (htop : poly.getLsbD 8 = true) {n i : Nat}
    (x : Byte) (hi : i < (gfpowers poly n x).length) :
    symbolClass poly (gfpowers poly n x)[i] =
      symbolClass poly x * AdjoinRoot.root (bitPoly poly) ^ i := by
  induction n generalizing x i with
  | zero => exact absurd hi (Nat.not_lt_zero i)
  | succ n ih =>
    cases i with
    | zero => simp [gfpowers]
    | succ i =>
      simp only [gfpowers, List.getElem_cons_succ]
      rw [ih, symbolClass_gfmul htop, symbolClass_alpha, pow_succ', mul_assoc]

@[simp] theorem length_gfexpTable (poly : PrimPoly) : (gfexpTable poly).length = 255 :=
  length_gfpowers poly 255 1

theorem gfalphaPow_eq_getElem (poly : PrimPoly) {i : Nat} (hi : i < 255) :
    gfalphaPow poly i = (gfexpTable poly)[i]'(by simpa using hi) := by
  have hmod : i % Config.rsN = i := Nat.mod_eq_of_lt hi
  rw [gfalphaPow, hmod, List.getD_eq_getElem]

theorem symbolClass_gfalphaPow_of_lt {poly : PrimPoly} (htop : poly.getLsbD 8 = true) {i : Nat}
    (hi : i < 255) :
    symbolClass poly (gfalphaPow poly i) = AdjoinRoot.root (bitPoly poly) ^ i := by
  rw [gfalphaPow_eq_getElem poly hi]
  exact (symbolClass_getElem_gfpowers htop 1 _).trans (by rw [symbolClass_one, one_mul])

/-! ### Primitive polynomials (00_scope R4, 40_arith_gf256 R125) -/

theorem gfprimitive_iff (poly : PrimPoly) :
    gfprimitive poly = true ↔ poly.getLsbD 8 = true ∧ poly.getLsbD 0 = true ∧
      (∀ i, 0 < i → i < 255 → gfalphaPow poly i ≠ 1) ∧
      gfmul poly (gfalphaPow poly 254) Config.alpha = 1 := by
  have htail : (∀ x ∈ (gfexpTable poly).tail, x ≠ 1) ↔
      ∀ i, 0 < i → i < 255 → gfalphaPow poly i ≠ 1 := by
    rw [List.forall_mem_iff_forall_getElem]
    simp only [List.length_tail, length_gfexpTable, List.getElem_tail]
    constructor
    · intro h i hpos hi
      obtain ⟨j, rfl⟩ := Nat.exists_eq_succ_of_ne_zero hpos.ne'
      rw [gfalphaPow_eq_getElem poly hi]
      exact h j (by omega)
    · intro h j hj
      rw [← gfalphaPow_eq_getElem poly (by omega)]
      exact h (j + 1) (by omega) (by omega)
  simp only [gfprimitive, Bool.and_eq_true, List.all_eq_true, decide_eq_true_eq, htail, and_assoc]
  rfl

section Primitive

variable {poly : PrimPoly} (hprim : gfprimitive poly = true)

include hprim

theorem getLsbD_eight_of_gfprimitive : poly.getLsbD 8 = true :=
  ((gfprimitive_iff poly).1 hprim).1

/-- ALPHA has multiplicative order 255. -/
theorem orderOf_root_of_gfprimitive : orderOf (AdjoinRoot.root (bitPoly poly)) = 255 := by
  obtain ⟨htop, -, hne, hlast⟩ := (gfprimitive_iff poly).1 hprim
  refine (orderOf_eq_iff (by omega)).2 ⟨?_, fun i hi hpos hone => hne i hpos hi ?_⟩
  · calc AdjoinRoot.root (bitPoly poly) ^ 255
        = symbolClass poly (gfmul poly (gfalphaPow poly 254) Config.alpha) := by
          rw [symbolClass_gfmul htop, symbolClass_gfalphaPow_of_lt htop (by omega),
            symbolClass_alpha, ← pow_succ]
      _ = 1 := by rw [hlast, symbolClass_one]
  · apply symbolClass_injective htop
    rw [symbolClass_gfalphaPow_of_lt htop hi, hone, symbolClass_one]

theorem symbolClass_gfalphaPow (e : Nat) :
    symbolClass poly (gfalphaPow poly e) = AdjoinRoot.root (bitPoly poly) ^ e := by
  have hmod : gfalphaPow poly e = gfalphaPow poly (e % 255) := by
    rw [gfalphaPow, gfalphaPow, Config.rsN, Nat.mod_mod]
  rw [hmod, symbolClass_gfalphaPow_of_lt (getLsbD_eight_of_gfprimitive hprim)
    (Nat.mod_lt e (by omega)), ← orderOf_root_of_gfprimitive hprim, pow_mod_orderOf]

/-- Products of powers add their exponents. -/
theorem gfmul_gfalphaPow (i j : Nat) :
    gfmul poly (gfalphaPow poly i) (gfalphaPow poly j) = gfalphaPow poly (i + j) := by
  have htop := getLsbD_eight_of_gfprimitive hprim
  apply symbolClass_injective htop
  rw [symbolClass_gfmul htop, symbolClass_gfalphaPow hprim, symbolClass_gfalphaPow hprim,
    symbolClass_gfalphaPow hprim, pow_add]

theorem gfalphaPow_injOn : Set.InjOn (gfalphaPow poly) (Set.Iio 255) := by
  intro i hi j hj hij
  rw [← orderOf_root_of_gfprimitive hprim] at hi hj
  apply pow_injOn_Iio_orderOf hi hj
  simp only [← symbolClass_gfalphaPow hprim, hij]

theorem gfalphaPow_ne_zero (e : Nat) : gfalphaPow poly e ≠ 0 := by
  intro h
  have hone_zero : symbolClass poly 1 = symbolClass poly 0 :=
    calc symbolClass poly 1
        = AdjoinRoot.root (bitPoly poly) ^ (e * 255) := by
          rw [symbolClass_one, mul_comm, pow_mul, ← orderOf_root_of_gfprimitive hprim,
            pow_orderOf_eq_one, one_pow]
      _ = symbolClass poly (gfalphaPow poly e) ^ 255 := by
          rw [symbolClass_gfalphaPow hprim, pow_mul]
      _ = symbolClass poly 0 := by rw [h, symbolClass_zero, zero_pow (by omega)]
  exact absurd (symbolClass_injective (getLsbD_eight_of_gfprimitive hprim) hone_zero) (by decide)

/-- Every nonzero byte is a power of ALPHA: there are 255 of each. -/
theorem exists_gfalphaPow_eq {a : Byte} (ha : a ≠ 0) : ∃ i < 255, gfalphaPow poly i = a := by
  have hmem : ∀ b : Byte, b ≠ 0 → b.toNat ∈ Finset.Ico 1 256 := fun b hb =>
    Finset.mem_Ico.2 ⟨Nat.pos_of_ne_zero fun h => hb (BitVec.eq_of_toNat_eq h), b.isLt⟩
  have hsurj : Set.SurjOn (fun i => (gfalphaPow poly i).toNat) (Finset.range 255)
      (Finset.Ico 1 256) := by
    refine Finset.surjOn_of_injOn_of_card_le _ (fun i _ => hmem _ (gfalphaPow_ne_zero hprim i)) ?_
      (by simp)
    rw [Finset.coe_range]
    exact fun i hi j hj hij => gfalphaPow_injOn hprim hi hj (BitVec.eq_of_toNat_eq hij)
  obtain ⟨i, hi, hia⟩ := hsurj (hmem a ha)
  exact ⟨i, Finset.mem_range.1 hi, BitVec.eq_of_toNat_eq hia⟩

/-- The logarithm of a nonzero byte. -/
theorem gfalphaPow_gflog {a : Byte} (ha : a ≠ 0) :
    gflog poly a < 255 ∧ gfalphaPow poly (gflog poly a) = a := by
  obtain ⟨i, hi, rfl⟩ := exists_gfalphaPow_eq hprim ha
  have hmem : gfalphaPow poly i ∈ gfexpTable poly := by
    rw [gfalphaPow_eq_getElem poly hi]
    exact List.getElem_mem _
  rw [gflog, if_neg ha]
  have hlt : (gfexpTable poly).idxOf (gfalphaPow poly i) < 255 := by
    simpa using List.idxOf_lt_length_of_mem hmem
  exact ⟨hlt, by rw [gfalphaPow_eq_getElem poly hlt, List.getElem_idxOf]⟩

/-! ### The inverse (40_arith_gf256 R126) -/

omit hprim in
theorem gfinv_of_ne_zero {a : Byte} (ha : a ≠ 0) :
    gfinv poly a = gfalphaPow poly ((255 - gflog poly a) % 255) := by
  rw [gfinv, if_neg ha, Config.rsN]

theorem gfmul_gfinv {a : Byte} (ha : a ≠ 0) : gfmul poly a (gfinv poly a) = 1 := by
  obtain ⟨hlt, hpow⟩ := gfalphaPow_gflog hprim ha
  have hsum : (gflog poly a + (255 - gflog poly a) % 255) % 255 = 0 := by omega
  calc gfmul poly a (gfinv poly a)
      = gfmul poly (gfalphaPow poly (gflog poly a))
          (gfalphaPow poly ((255 - gflog poly a) % 255)) := by rw [hpow, gfinv_of_ne_zero ha]
    _ = gfalphaPow poly (gflog poly a + (255 - gflog poly a) % 255) := gfmul_gfalphaPow hprim _ _
    _ = 1 := by
      rw [gfalphaPow, Config.rsN, hsum]
      rfl

/-- Inverses are unique, as in any commutative ring. -/
theorem gfmul_eq_one_iff {a : Byte} (ha : a ≠ 0) (b : Byte) :
    gfmul poly a b = 1 ↔ b = gfinv poly a := by
  have htop := getLsbD_eight_of_gfprimitive hprim
  have hinv := congrArg (symbolClass poly) (gfmul_gfinv hprim ha)
  rw [symbolClass_gfmul htop, symbolClass_one] at hinv
  constructor
  · intro hb
    have hb := congrArg (symbolClass poly) hb
    rw [symbolClass_gfmul htop, symbolClass_one, mul_comm] at hb
    exact symbolClass_injective htop (left_inv_eq_right_inv hb hinv)
  · rintro rfl
    exact gfmul_gfinv hprim ha

theorem gfinv_eq_of_gfmul_eq_one {a b : Byte} (ha : a ≠ 0) (h : gfmul poly a b = 1) :
    gfinv poly a = b :=
  ((gfmul_eq_one_iff hprim ha b).1 h).symm

end Primitive

/-! ### The statement -/

theorem gfprimitive_0x11D : gfprimitive 0x11D = true := by decide +kernel

/-- Settles O37: `gfinv` multiplies to 1 and inverses are unique. By that uniqueness the two examples
are products that are 1. -/
theorem gfinvIsTheInverse : Obligations.GfinvIsTheInverse := by
  refine ⟨fun poly hprim a b ha => ⟨gfmul_eq_one_iff hprim ha b, gfinv_of_ne_zero ha⟩, ?_, ?_⟩
  · exact gfinv_eq_of_gfmul_eq_one gfprimitive_0x11D (by decide) (by decide)
  · exact gfinv_eq_of_gfmul_eq_one gfprimitive_0x11D (by decide) (by decide)

end Sys2Proof.Machine
end

section
/-! PROOFS. How a command ends, in the terms of the statements: a raise, a normal end, one store; and
HASH's rule as one chain of its checks (41_hash R154). -/

namespace Sys2Proof.Machine

/-! ### The two ends of a command and one store -/

/-- A store and a normal end leave the rest of the state alone (10_state R26, R33). -/
theorem State.keepsRest_finish_store (s : State) (base : Word) (v : List Byte) (len aux : Nat) :
    KeepsRest s ((s.store base v).finish len aux) := by
  constructor <;> rfl

/-- So does a fault (60_exceptions R236). -/
theorem State.keepsRest_raise (s : State) (f : FaultKind) (info : Nat) :
    KeepsRest s (s.raise f info) := by
  constructor <;> rfl

/-- `raise F(info)` is the faulting end of the statements (60_exceptions R222). -/
theorem State.endedFaulting_raise (s : State) (f : FaultKind) {info : Nat}
    (hinfo : info ≤ Config.maxWord) : EndedFaulting s (s.raise f info) f.code.toNat info where
  status := statusFault_toNat f
  errInfo := toWord_toNat hinfo
  resLen := rfl
  resAux := rfl
  mem := rfl
  rest := s.keepsRest_raise f info

/-- `finish(len, aux)` after a store is the normal end of the statements (10_state R33). -/
theorem State.endedNormally_finish_store (s : State) (base : Word) (v : List Byte) {len aux : Nat}
    (hlen : len ≤ Config.maxWord) (haux : aux ≤ Config.maxWord) :
    EndedNormally s ((s.store base v).finish len aux) len aux where
  status := statusDone_eq
  resLen := toWord_toNat hlen
  resAux := toWord_toNat haux
  errInfo := rfl
  rest := s.keepsRest_finish_store base v len aux

/-- A store changes exactly the bytes it names (00_scope R7). -/
theorem State.stored_finish_store (s : State) (base : Word) (v : List Byte) (len aux : Nat) :
    Stored s ((s.store base v).finish len aux) base.toNat v :=
  ⟨Memory.read_writeBytes_inside s.mem base.toNat v,
    Memory.read_writeBytes_outside s.mem base.toNat v⟩

/-! ### HASH (41_hash R154) -/

/-- The end of HASH whose checks all pass. -/
def State.hashEnd (s : State) : State :=
  (s.store s.dst (digestFn s.cfg.digest s.sourceBytes)).finish Config.digestBytes 0

/-- HASH's checks, in their order. -/
theorem exec_hash (s : State) :
    exec .hash s = .next
      (if ¬ InRange s s.source then s.raise .addrRange 0
      else if ¬ InRange s s.destination then s.raise .addrRange 1
      else if Overlapping s.source s.destination then s.raise .overlap 0
      else if s.dstCap.toNat < 16 then s.raise .dstOverflow 16
      else s.hashEnd) := by
  simp only [exec, execHash, hashWith, regionFault_pair, Config.digestBytes]
  by_cases hsrc : InRange s s.source
  · by_cases hdst : InRange s s.destination
    · by_cases hover : Overlapping s.source s.destination
      · simp [hsrc, hdst, if_pos hover]
      · simp only [hsrc, hdst, if_neg hover, not_true, if_false]
        exact (apply_ite _ _ _ _).symm
    · simp [hsrc, hdst]
  · simp [hsrc]

/-- Settles O30, by the branches of HASH's rule: four of them raise, the last stores and finishes. -/
theorem hashStoresTheDigest : Obligations.HashStoresTheDigest := by
  intro s
  refine ⟨_, exec_hash s, ?_⟩
  split_ifs with hsrc hdst hover hcap
  · exact s.endedFaulting_raise .overlap (by decide)
  · exact s.endedFaulting_raise .dstOverflow (by decide)
  · exact ⟨s.endedNormally_finish_store s.dst _ (by decide) (by decide),
      s.stored_finish_store s.dst _ _ _, length_digestFn _ _⟩
  · exact s.endedFaulting_raise .addrRange (by decide)
  · exact s.endedFaulting_raise .addrRange (by decide)

end Sys2Proof.Machine
end

section
/-! PROOFS. The default `DIGEST_FN`, MD5 (41_hash R150 to R153): bytes and words least significant
byte first, the padding, the 64 steps of a block, the chaining over the blocks, the output. -/

namespace Sys2Proof.Machine

/-! ### Bytes and words, least significant byte first -/

/-- Byte `i` of a number. -/
theorem toNat_getD_leBytes {n i : Nat} (v : Nat) (hi : i < n) :
    ((leBytes n v).getD i 0).toNat = (v >>> (8 * i)) &&& 0xFF := by
  induction n generalizing v i with
  | zero => exact absurd hi (Nat.not_lt_zero i)
  | succ n ih =>
    cases i with
    | zero => simpa [leBytes] using (Nat.and_two_pow_sub_one_eq_mod v 8).symm
    | succ i =>
      have hshift : (v / 2 ^ Config.symbits) >>> (8 * i) = v >>> (8 * (i + 1)) := by
        rw [← Nat.shiftRight_eq_div_pow, ← Nat.shiftRight_add, Config.symbits, Nat.mul_succ,
          Nat.add_comm]
      rw [leBytes, List.getD_cons_succ, ih _ (by omega), hshift]

/-- Byte `4 * w + i` of a sequence of words is byte `i` of word `w`. -/
theorem getD_flatMap_leBytes {ws : List Word} {w i : Nat} (hw : w < ws.length) (hi : i < 4) :
    (ws.flatMap fun x => leBytes 4 x.toNat).getD (4 * w + i) 0 =
      (leBytes 4 (ws.getD w 0).toNat).getD i 0 := by
  induction ws generalizing w with
  | nil => exact absurd hw (Nat.not_lt_zero w)
  | cons x ws ih =>
    rw [List.flatMap_cons]
    cases w with
    | zero =>
      rw [Nat.mul_zero, Nat.zero_add, List.getD_cons_zero]
      exact List.getD_append _ _ _ _ (by rwa [length_leBytes])
    | succ w =>
      rw [List.getD_append_right _ _ _ _ (by rw [length_leBytes]; omega), length_leBytes,
        show 4 * (w + 1) + i - 4 = 4 * w + i by omega, List.getD_cons_succ]
      exact ih (by simpa using hw)

theorem toNat_leWord (b0 b1 b2 b3 : Byte) :
    (leWord b0 b1 b2 b3).toNat =
      b0.toNat + b1.toNat * 2 ^ 8 + b2.toNat * 2 ^ 16 + b3.toNat * 2 ^ 24 := by
  have h0 := b0.isLt
  have h1 := b1.isLt
  have h2 := b2.isLt
  simp only [leWord, BitVec.toNat_append]
  rw [← Nat.shiftLeft_add_eq_or_of_lt h2, ← Nat.shiftLeft_add_eq_or_of_lt h1,
    ← Nat.shiftLeft_add_eq_or_of_lt h0]
  simp only [Nat.shiftLeft_eq]
  omega

/-- The words `M[j]` of a block (41_hash R152). -/
theorem getD_md5Words {block : List Byte} {j : Nat} (hj : 4 * j + 4 ≤ block.length) :
    (md5Words block).getD j 0 = leWord (block.getD (4 * j) 0) (block.getD (4 * j + 1) 0)
      (block.getD (4 * j + 2) 0) (block.getD (4 * j + 3) 0) := by
  induction block using md5Words.induct generalizing j with
  | case1 b0 b1 b2 b3 rest ih =>
    cases j with
    | zero => rfl
    | succ j => exact ih (by simp only [List.length_cons] at hj; omega)
  | case2 block hshort =>
    match block, hshort, hj with
    | b0 :: b1 :: b2 :: b3 :: rest, hshort, _ => exact absurd rfl (hshort b0 b1 b2 b3 rest)

/-! ### The padding (41_hash R150) -/

theorem md5ZeroCount_spec (len : Nat) : (len + 1 + md5ZeroCount len) % 64 = 56 := by
  unfold md5ZeroCount
  omega

theorem md5ZeroCount_le {len z : Nat} (hz : (len + 1 + z) % 64 = 56) : md5ZeroCount len ≤ z := by
  unfold md5ZeroCount
  omega

theorem length_md5Pad (m : List Byte) : (md5Pad m).length = 64 * ((m.length + 8) / 64 + 1) := by
  have hsum : (md5Pad m).length = m.length + 1 + md5ZeroCount m.length + 8 := by
    simp only [md5Pad, List.length_append, List.length_singleton, List.length_replicate,
      length_leBytes]
  rw [hsum, md5ZeroCount]
  omega

/-! ### The steps of a block (41_hash R152) -/

theorem rotl32_eq_rotateLeft (w : Word) {s : Nat} (hs : s < 32) :
    rotl32 w s = w.rotateLeft s := by
  rw [BitVec.rotateLeft_def, Nat.mod_eq_of_lt hs]
  rfl

theorem md5Shift_lt {i : Nat} (hi : i < 64) : md5Shift i < 32 := by
  revert i
  decide

/-- The assignment to `b`, with the rotation of the bit vectors. -/
theorem md5Step_b (ms : List Word) (st : Md5State) {i : Nat} (hi : i < 64) :
    (md5Step ms st i).b = st.b + BitVec.rotateLeft
      (st.a + md5F i st.b st.c st.d + md5Table.getD i 0 + ms.getD (md5G i) 0) (md5Shift i) :=
  congrArg (st.b + ·) (rotl32_eq_rotateLeft _ (md5Shift_lt hi))

section Groups

variable (ms : List Word) (st : Md5State) {i : Nat}

theorem md5Step_b_group0 (hi : i < 16) :
    (md5Step ms st i).b = st.b + BitVec.rotateLeft
      (st.a + ((st.b &&& st.c) ||| (~~~st.b &&& st.d)) + md5Table.getD i 0 + ms.getD i 0)
      ([7, 12, 17, 22].getD (i % 4) 0) := by
  have hgroup : i / 16 = 0 := by omega
  rw [md5Step_b ms st (by omega), md5F, md5G, md5Shift, hgroup]
  simp only [hi, if_true]
  rfl

theorem md5Step_b_group1 (hlo : 16 ≤ i) (hi : i < 32) :
    (md5Step ms st i).b = st.b + BitVec.rotateLeft
      (st.a + ((st.d &&& st.b) ||| (~~~st.d &&& st.c)) + md5Table.getD i 0 +
        ms.getD ((5 * i + 1) % 16) 0) ([5, 9, 14, 20].getD (i % 4) 0) := by
  have hgroup : i / 16 = 1 := by omega
  rw [md5Step_b ms st (by omega), md5F, md5G, md5Shift, hgroup]
  simp only [hlo.not_gt, hi, if_true, if_false]
  rfl

theorem md5Step_b_group2 (hlo : 32 ≤ i) (hi : i < 48) :
    (md5Step ms st i).b = st.b + BitVec.rotateLeft
      (st.a + (st.b ^^^ st.c ^^^ st.d) + md5Table.getD i 0 + ms.getD ((3 * i + 5) % 16) 0)
      ([4, 11, 16, 23].getD (i % 4) 0) := by
  have hgroup : i / 16 = 2 := by omega
  rw [md5Step_b ms st (by omega), md5F, md5G, md5Shift, hgroup]
  simp only [show ¬ i < 16 by omega, hlo.not_gt, hi, if_true, if_false]
  rfl

theorem md5Step_b_group3 (hlo : 48 ≤ i) (hi : i < 64) :
    (md5Step ms st i).b = st.b + BitVec.rotateLeft
      (st.a + (st.c ^^^ (st.b ||| ~~~st.d)) + md5Table.getD i 0 + ms.getD ((7 * i) % 16) 0)
      ([6, 10, 15, 21].getD (i % 4) 0) := by
  have hgroup : i / 16 = 3 := by omega
  rw [md5Step_b ms st hi, md5F, md5G, md5Shift, hgroup]
  simp only [show ¬ i < 16 by omega, show ¬ i < 32 by omega, hlo.not_gt, if_false]
  rfl

end Groups

/-! ### The chaining and the output (41_hash R152, R153) -/

/-- Block `n` is the last of the first `n + 1`. -/
theorem md5Blocks_succ (n : Nat) (st : Md5State) (p : List Byte) :
    md5Blocks (n + 1) st p = md5Block (md5Blocks n st p) ((p.drop (64 * n)).take 64) := by
  induction n generalizing st p with
  | zero => rfl
  | succ n ih =>
    rw [md5Blocks, ih, List.drop_drop, Nat.add_comm 64, ← Nat.mul_succ 64 n]
    rfl

/-- The chaining words after the first `n` blocks of the padded message. -/
def md5Chain (m : List Byte) (n : Nat) : Md5State := md5Blocks n md5Init (md5Pad m)

theorem md5Chain_succ (m : List Byte) (n : Nat) :
    md5Chain m (n + 1) = md5Block (md5Chain m n) (((md5Pad m).drop (64 * n)).take 64) :=
  md5Blocks_succ n md5Init (md5Pad m)

/-- The four words in the order of the output. -/
def Md5State.words (st : Md5State) : List Word := [st.a, st.b, st.c, st.d]

theorem digestFn_md5 (m : List Byte) :
    digestFn .md5 m =
      (md5Chain m ((m.length + 8) / 64 + 1)).words.flatMap fun x => leBytes 4 x.toNat := by
  simp [digestFn, md5, md5Chain, Md5State.words, length_md5Pad]

/-- Byte `i` of output word `w`. -/
theorem toNat_getD_digestFn_md5 (m : List Byte) {w i : Nat} (hw : w < 4) (hi : i < 4) :
    ((digestFn .md5 m).getD (4 * w + i) 0).toNat =
      (((md5Chain m ((m.length + 8) / 64 + 1)).words.getD w 0).toNat >>> (8 * i)) &&& 0xFF := by
  rw [digestFn_md5, getD_flatMap_leBytes hw hi, toNat_getD_leBytes _ hi]

/-! ### The two digests the rules give (41_hash R152, R153) -/

theorem digestFn_md5_AB :
    digestFn .md5 [0x41, 0x42] =
      [0xB8, 0x6F, 0xC6, 0xB0, 0x51, 0xF6, 0x3D, 0x73, 0xDE, 0x26, 0x2D, 0x4C, 0x34, 0xE3, 0xA0,
       0xA9] := by decide +kernel

theorem digestFn_md5_nil :
    digestFn .md5 [] =
      [0xD4, 0x1D, 0x8C, 0xD9, 0x8F, 0x00, 0xB2, 0x04, 0xE9, 0x80, 0x09, 0x98, 0xEC, 0xF8, 0x42,
       0x7E] := by decide +kernel

/-- Settles O31, part by part; the chaining words are `md5Chain`. -/
theorem md5PaddingFillsWholeBlocks : Obligations.Md5PaddingFillsWholeBlocks := by
  refine ⟨fun m => ?padding, ⟨rfl, rfl, rfl, rfl⟩, fun block j hlen hj => ?words,
    fun ms st i hi => ?steps, fun m => ?chaining, digestFn_md5_AB, digestFn_md5_nil⟩
  case padding =>
    exact ⟨md5ZeroCount m.length, leBytes 8 ((8 * m.length) % 2 ^ 64), rfl,
      md5ZeroCount_spec _, fun _ => md5ZeroCount_le, length_leBytes _ _,
      fun _ => toNat_getD_leBytes _, length_md5Pad m⟩
  case words => rw [getD_md5Words (by omega), toNat_leWord]
  case steps =>
    exact ⟨rfl, rfl, rfl, md5Step_b_group0 ms st, md5Step_b_group1 ms st,
      md5Step_b_group2 ms st, fun hlo => md5Step_b_group3 ms st hlo hi⟩
  case chaining =>
    refine ⟨md5Chain m, rfl, fun blk _ => ⟨_, rfl, ?_⟩, length_digestFn .md5 m,
      fun w i => toNat_getD_digestFn_md5 m⟩
    rw [md5Chain_succ]
    exact ⟨rfl, rfl, rfl, rfl⟩

end Sys2Proof.Machine
end

section
/-! PROOFS. CBOUND and the default `CBOUND_FN` (42_cbound R161, R162). -/

namespace Sys2Proof.Machine

/-! ### A normal end that stores nothing (10_state R33) -/

/-- `finish(len, aux)` of a command that does not write `Mem`, as after a store of no bytes. -/
theorem State.endedNormally_finish (s : State) {len aux : Nat} (hlen : len ≤ Config.maxWord)
    (haux : aux ≤ Config.maxWord) : EndedNormally s (s.finish len aux) len aux :=
  s.endedNormally_finish_store 0 [] hlen haux

/-! ### The default `CBOUND_FN` (42_cbound R161) -/

/-- The formula, each `>>` of the rule being a division by a power of 2. -/
theorem cboundFn_deflate (n : Nat) :
    cboundFn .deflate n = n + n / 2 ^ 12 + n / 2 ^ 14 + n / 2 ^ 25 + 13 := by
  simp only [cboundFn, cboundDeflate, Nat.shiftRight_eq_div_pow]

/-- Each term of the formula is monotone. -/
theorem monotone_cboundFn_deflate : Monotone (cboundFn .deflate) := by
  intro n m h
  have hdiv (k : Nat) : n / 2 ^ k ≤ m / 2 ^ k := Nat.div_le_div_right h
  rw [cboundFn_deflate, cboundFn_deflate]
  exact Nat.add_le_add_right
    (Nat.add_le_add (Nat.add_le_add (Nat.add_le_add h (hdiv 12)) (hdiv 14)) (hdiv 25)) 13

theorem lt_cboundFn_deflate (n : Nat) : n < cboundFn .deflate n := by
  rw [cboundFn_deflate]
  omega

/-- Settles O33: the formula gives the two laws, and the ten values are computed. -/
theorem defaultBoundIsMonotoneAndAboveItsArgument :
    Obligations.DefaultBoundIsMonotoneAndAboveItsArgument :=
  ⟨cboundFn_deflate, fun _ _ h => monotone_cboundFn_deflate h, lt_cboundFn_deflate, by decide⟩

/-! ### The command (42_cbound R162) -/

/-- CBOUND's one check. -/
theorem exec_cbound (s : State) :
    exec .cbound s = .next
      (if cboundFn s.cfg.cbound s.srcLen.toNat > 2 ^ 32 - 1 then s.raise .sizeOverflow 0
      else s.finish (cboundFn s.cfg.cbound s.srcLen.toNat) 0) :=
  (apply_ite _ _ _ _).symm

/-- Settles O32, by CBOUND's check: a bound above the largest word raises, any other is reported. -/
theorem cboundReportsTheBound : Obligations.CboundReportsTheBound := by
  intro s
  refine ⟨_, exec_cbound s, ?_⟩
  split_ifs with hbound
  · exact s.endedFaulting_raise .sizeOverflow (by decide)
  · exact ⟨s.endedNormally_finish (Nat.le_of_not_gt hbound) (by decide), rfl⟩

end Sys2Proof.Machine
end

section
/-! PROOFS. The field of symbols (40_arith_gf256 R122): a primitive `PRIM_POLY` is irreducible, so
the classes modulo it are a field. -/

namespace Sys2Proof.Machine

open Polynomial

/-! ### A primitive polynomial is irreducible -/

/-- The byte of the low eight coefficients of a polynomial over GF(2). -/
noncomputable def byteOfPoly (p : (ZMod 2)[X]) : Byte :=
  BitVec.ofFnLE fun i : Fin 8 => decide (p.coeff i = 1)

theorem bitPoly_byteOfPoly {p : (ZMod 2)[X]} (hp : p.natDegree < 8) :
    bitPoly (byteOfPoly p) = p := by
  have hbit : ∀ c : ZMod 2, (if decide (c = 1) = true then 1 else 0) = c := by decide
  ext k
  rw [coeff_bitPoly, byteOfPoly, BitVec.getLsbD_ofFnLE]
  by_cases hk : k < 8
  · simpa [hk] using hbit (p.coeff k)
  · simp [hk, coeff_eq_zero_of_natDegree_lt (show p.natDegree < k by omega)]

section Primitive

variable {poly : PrimPoly} (hprim : gfprimitive poly = true)

include hprim

theorem natDegree_bitPoly_of_gfprimitive : (bitPoly poly).natDegree = 8 := by
  have hle : (bitPoly poly).natDegree < 9 :=
    (natDegree_lt_iff_degree_lt fun h => by
      simpa [h, getLsbD_eight_of_gfprimitive hprim] using coeff_bitPoly poly 8).2
      (degree_bitPoly_lt poly)
  have hge := le_natDegree_of_ne_zero (p := bitPoly poly) (n := 8)
    (by rw [coeff_bitPoly, getLsbD_eight_of_gfprimitive hprim]; decide)
  omega

/-- A nonzero polynomial of degree below 8 is that of a nonzero byte, a power of ALPHA. -/
theorem isUnit_mk_of_natDegree_lt {p : (ZMod 2)[X]} (hp : p ≠ 0) (hdeg : p.natDegree < 8) :
    IsUnit (AdjoinRoot.mk (bitPoly poly) p) := by
  have hpoly := bitPoly_byteOfPoly hdeg
  have hbyte : byteOfPoly p ≠ 0 := fun h => hp (by rw [← hpoly, h, bitPoly_zero])
  obtain ⟨i, -, hi⟩ := exists_gfalphaPow_eq hprim hbyte
  have hmk : AdjoinRoot.mk (bitPoly poly) p = AdjoinRoot.root (bitPoly poly) ^ i := by
    rw [← symbolClass_gfalphaPow hprim, hi, symbolClass, hpoly]
  have hroot : IsUnit (AdjoinRoot.root (bitPoly poly)) :=
    IsUnit.of_pow_eq_one (n := 255)
      (by rw [← orderOf_root_of_gfprimitive hprim]; exact pow_orderOf_eq_one _) (by decide)
  exact hmk ▸ hroot.pow i

/-- A factor of degree 1 to 7 would be both a unit and a divisor of zero modulo `PRIM_POLY`. -/
theorem irreducible_bitPoly_of_gfprimitive : Irreducible (bitPoly poly) := by
  have hdeg := natDegree_bitPoly_of_gfprimitive hprim
  have hne : bitPoly poly ≠ 0 := fun h => by simp [h] at hdeg
  refine irreducible_iff.2 ⟨not_isUnit_of_natDegree_pos _ (by omega), fun p q hpq => ?_⟩
  obtain ⟨hp, hq⟩ := mul_ne_zero_iff.1 (hpq ▸ hne)
  have hsum : p.natDegree + q.natDegree = 8 := by rw [← natDegree_mul hp hq, ← hpq, hdeg]
  by_cases hq8 : q.natDegree < 8
  · have hzero : AdjoinRoot.mk (bitPoly poly) p * AdjoinRoot.mk (bitPoly poly) q = 0 := by
      rw [← map_mul, ← hpq, AdjoinRoot.mk_self]
    have hdvd : bitPoly poly ∣ p := AdjoinRoot.mk_eq_zero.1
      ((isUnit_mk_of_natDegree_lt hprim hq hq8).mul_left_eq_zero.1 hzero)
    have hp8 := natDegree_le_of_dvd hdvd hp
    exact .inr (isUnit_iff_degree_eq_zero.2 (by
      rw [degree_eq_natDegree hq]; exact_mod_cast (by omega : q.natDegree = 0)))
  · exact .inl (isUnit_iff_degree_eq_zero.2 (by
      rw [degree_eq_natDegree hp]; exact_mod_cast (by omega : p.natDegree = 0)))

end Primitive

/-! ### The sum of symbols (40_arith_gf256 R123) -/

theorem symbolClass_gfadd (poly : PrimPoly) (a b : Byte) :
    symbolClass poly (gfadd a b) = symbolClass poly a + symbolClass poly b := by
  rw [symbolClass, gfadd, bitPoly_xor, map_add]
  rfl

theorem symbolClass_add_self (poly : PrimPoly) (a : Byte) :
    symbolClass poly a + symbolClass poly a = 0 := by
  rw [← symbolClass_gfadd, gfadd, BitVec.xor_self]
  exact symbolClass_zero poly

end Sys2Proof.Machine
end

section
/-! PROOFS. The decoder's algebra, over any field (43_fec R183). The syndromes of an error pattern
are power sums of its locators. Berlekamp-Massey's loop keeps an invariant (`Massey`); with at most
half as many errors as syndromes it makes the loop's polynomial the locator polynomial. Forney's
formula gives the values. -/

namespace Sys2Proof.Machine

open Polynomial

section Decoding

variable {F ι : Type*} [Field F]

/-! ### The product of a polynomial and a sequence -/

/-- Coefficient `n` of the product of `p` and the series with the coefficients `s 0, s 1, ..`: the
discrepancy of `p` at `n`. -/
noncomputable def productCoeff (p : F[X]) (s : Nat → F) (n : Nat) : F :=
  ∑ j ∈ Finset.range (n + 1), p.coeff j * s (n - j)

theorem productCoeff_add_C_mul (p q : F[X]) (c : F) (s : Nat → F) (n : Nat) :
    productCoeff (p + C c * q) s n = productCoeff p s n + c * productCoeff q s n := by
  simp only [productCoeff, coeff_add, coeff_C_mul, add_mul, mul_assoc, Finset.sum_add_distrib,
    Finset.mul_sum]

theorem productCoeff_X_mul_succ (p : F[X]) (s : Nat → F) (n : Nat) :
    productCoeff (X * p) s (n + 1) = productCoeff p s n := by
  rw [productCoeff, Finset.sum_range_succ']
  simp [productCoeff, coeff_X_mul, mul_coeff_zero]

/-- The discrepancy at `n`, from a polynomial whose coefficients above `len` are 0. -/
theorem productCoeff_eq_sum_range {p : F[X]} {len n : Nat} (hp : p.natDegree ≤ len) (hn : len ≤ n)
    (s : Nat → F) :
    productCoeff p s n =
      p.coeff 0 * s n + ∑ j ∈ Finset.range len, p.coeff (j + 1) * s (n - (j + 1)) := by
  rw [productCoeff, Finset.sum_range_succ', add_comm, Nat.sub_zero]
  congr 1
  refine (Finset.sum_subset (Finset.range_mono hn) fun j _ hj => ?_).symm
  rw [Finset.mem_range, Nat.not_lt] at hj
  rw [coeff_eq_zero_of_natDegree_lt (by omega), zero_mul]

theorem productCoeff_pow {p : F[X]} {n : Nat} (hp : p.natDegree ≤ n) {x : F} (hx : x ≠ 0) :
    productCoeff p (x ^ ·) n = x ^ n * p.eval x⁻¹ := by
  rw [productCoeff, eval_eq_sum_range' (Nat.lt_succ_of_le hp), Finset.mul_sum]
  refine Finset.sum_congr rfl fun j hj => ?_
  rw [pow_sub₀ x hx (Nat.lt_succ_iff.1 (Finset.mem_range.1 hj)), inv_pow]
  ring

/-- Dividing by `1 - x X` multiplies by the geometric series of `x`. -/
theorem productCoeff_one_sub_mul (q : F[X]) (x : F) (n : Nat) :
    productCoeff ((1 - C x * X) * q) (x ^ ·) n = q.coeff n := by
  have hsplit : (1 - C x * X) * q = q + C (-x) * (X * q) := by rw [C_neg]; ring
  rw [hsplit, productCoeff_add_C_mul]
  cases n with
  | zero => simp [productCoeff]
  | succ n =>
    have hlast : productCoeff q (x ^ ·) (n + 1) =
        x * productCoeff q (x ^ ·) n + q.coeff (n + 1) := by
      rw [productCoeff, Finset.sum_range_succ, Nat.sub_self, pow_zero, mul_one, productCoeff,
        Finset.mul_sum]
      congr 1
      refine Finset.sum_congr rfl fun j hj => ?_
      rw [Nat.succ_sub (Nat.lt_succ_iff.1 (Finset.mem_range.1 hj)), pow_succ]
      ring
    rw [productCoeff_X_mul_succ, hlast]
    ring

/-! ### Power sums of an error pattern (43_fec R177) -/

/-- Errors at the positions `I`, with locators `x` and weights `y`. -/
structure ErrorPattern (I : Finset ι) (x y : ι → F) : Prop where
  injOn : Set.InjOn x I
  locator_ne_zero : ∀ i ∈ I, x i ≠ 0
  weight_ne_zero : ∀ i ∈ I, y i ≠ 0

/-- Syndrome `n` of the pattern. -/
def powerSum (I : Finset ι) (x y : ι → F) (n : Nat) : F := ∑ i ∈ I, y i * x i ^ n

theorem productCoeff_powerSum (p : F[X]) (I : Finset ι) (x y : ι → F) (n : Nat) :
    productCoeff p (powerSum I x y) n = ∑ i ∈ I, y i * productCoeff p (x i ^ ·) n := by
  simp only [productCoeff, powerSum, Finset.mul_sum]
  rw [Finset.sum_comm]
  exact Finset.sum_congr rfl fun i _ => Finset.sum_congr rfl fun j _ => by ring

/-- Vandermonde: weights whose first `|I|` power sums vanish are 0. -/
theorem eq_zero_of_powerSum_eq_zero {I : Finset ι} {x w : ι → F} (hx : Set.InjOn x I)
    (h : ∀ k < I.card, powerSum I x w k = 0) : ∀ i ∈ I, w i = 0 := by
  have hzero := Matrix.eq_zero_of_forall_pow_sum_mul_pow_eq_zero
    (f := fun j => x (I.equivFin.symm j)) (v := fun j => w (I.equivFin.symm j))
    (fun j k hjk => I.equivFin.symm.injective
      (Subtype.ext (hx (I.equivFin.symm j).2 (I.equivFin.symm k).2 hjk)))
    (fun k => by
      rw [Equiv.sum_comp I.equivFin.symm fun i : I => w i * x i ^ (k : Nat),
        Finset.sum_coe_sort I fun i => w i * x i ^ (k : Nat)]
      exact h k k.2)
  intro i hi
  simpa using congrFun hzero (I.equivFin ⟨i, hi⟩)

/-- A polynomial without discrepancy at `|I|` consecutive syndromes from its length on vanishes at
every inverse locator. -/
theorem ErrorPattern.eval_inv_eq_zero {I : Finset ι} {x y : ι → F} (hE : ErrorPattern I x y)
    {p : F[X]} {len n : Nat} (hp : p.natDegree ≤ len) (hn : len + I.card ≤ n)
    (hgen : ∀ k, len ≤ k → k < n → productCoeff p (powerSum I x y) k = 0) :
    ∀ i ∈ I, p.eval (x i)⁻¹ = 0 := by
  have hweights := eq_zero_of_powerSum_eq_zero (w := fun i => y i * x i ^ len * p.eval (x i)⁻¹)
    hE.injOn fun k hk => by
      rw [← hgen (len + k) (by omega) (by omega), productCoeff_powerSum, powerSum]
      refine Finset.sum_congr rfl fun i hi => ?_
      rw [productCoeff_pow (by omega) (hE.locator_ne_zero i hi), pow_add]
      ring
  intro i hi
  simpa [hE.weight_ne_zero i hi, hE.locator_ne_zero i hi] using hweights i hi

/-! ### The invariant of Berlekamp-Massey's loop (43_fec R183 step 1) -/

/-- After `n` syndromes of `s`, a sequence of `ν` locators: `p` is the current polynomial, of length
`len`, without discrepancy from `len` to `n`; `q` is the previous polynomial times `x^m`, whose only
discrepancy up to `n` is `b`, at `n`. (While `len = 0` there is no previous polynomial.) -/
structure Massey (s : Nat → F) (ν n : Nat) (p q : F[X]) (len : Nat) (b : F) : Prop where
  coeff_zero : p.coeff 0 = 1
  natDegree_le : p.natDegree ≤ len
  len_le : len ≤ n
  len_le_locators : len ≤ ν
  generates : ∀ k, len ≤ k → k < n → productCoeff p s k = 0
  prev_coeff_zero : q.coeff 0 = 0
  prev_natDegree_le : q.natDegree ≤ n + 1 - len
  prev_generates : ∀ k, n + 1 - len ≤ k → k < n → productCoeff q s k = 0
  prev_discrepancy : len ≠ 0 → productCoeff q s n = b
  prev_discrepancy_ne_zero : b ≠ 0

theorem massey_start (s : Nat → F) (ν : Nat) : Massey s ν 0 1 X 0 1 where
  coeff_zero := coeff_one_zero
  natDegree_le := by simp
  len_le := le_rfl
  len_le_locators := Nat.zero_le ν
  generates := by simp
  prev_coeff_zero := by simp
  prev_natDegree_le := by simp
  prev_generates := by simp
  prev_discrepancy := by simp
  prev_discrepancy_ne_zero := one_ne_zero

section Step

variable {s : Nat → F} {ν n len : Nat} {p q : F[X]} {b c : F}

/-- The previous polynomial, shifted once more. -/
theorem Massey.prev_shift (h : Massey s ν n p q len b) {p' : F[X]} (h0 : p'.coeff 0 = 1)
    (hdeg : p'.natDegree ≤ len) (hgen : ∀ k, len ≤ k → k < n + 1 → productCoeff p' s k = 0) :
    Massey s ν (n + 1) p' (X * q) len b where
  coeff_zero := h0
  natDegree_le := hdeg
  len_le := Nat.le_succ_of_le h.len_le
  len_le_locators := h.len_le_locators
  generates := hgen
  prev_coeff_zero := by simp
  prev_natDegree_le := by
    have hq := h.prev_natDegree_le
    have hlen := h.len_le
    have hX := natDegree_mul_le (p := X) (q := q)
    rw [natDegree_X] at hX
    omega
  prev_generates := by
    intro k hk hkn
    have hlen := h.len_le
    obtain ⟨j, rfl⟩ := Nat.exists_eq_add_one_of_ne_zero (show k ≠ 0 by omega)
    rw [productCoeff_X_mul_succ]
    exact h.prev_generates j (by omega) (by omega)
  prev_discrepancy := fun hlen => (productCoeff_X_mul_succ q s n).trans (h.prev_discrepancy hlen)
  prev_discrepancy_ne_zero := h.prev_discrepancy_ne_zero

/-- Adding the multiple of the previous polynomial that cancels the discrepancy. -/
theorem Massey.generates_add (h : Massey s ν n p q len b) (hc : productCoeff p s n + c * b = 0)
    {k : Nat} (hlen : len ≤ k) (hprev : n + 1 - len ≤ k) (hk : k < n + 1) :
    productCoeff (p + C c * q) s k = 0 := by
  rw [productCoeff_add_C_mul]
  rcases Nat.lt_succ_iff_lt_or_eq.1 hk with hlt | rfl
  · rw [h.generates k hlen hlt, h.prev_generates k hprev hlt, mul_zero, add_zero]
  · rwa [h.prev_discrepancy (by omega)]

theorem Massey.natDegree_correction_le (h : Massey s ν n p q len b) :
    (p + C c * q).natDegree ≤ max len (n + 1 - len) :=
  (natDegree_add_le _ _).trans
    (max_le_max h.natDegree_le ((natDegree_C_mul_le c q).trans h.prev_natDegree_le))

/-- No discrepancy: only the shift. -/
theorem Massey.keep (h : Massey s ν n p q len b) (hd : productCoeff p s n = 0) :
    Massey s ν (n + 1) p (X * q) len b :=
  h.prev_shift h.coeff_zero h.natDegree_le fun k hlen hk => by
    rcases Nat.lt_succ_iff_lt_or_eq.1 hk with hlt | rfl
    · exact h.generates k hlen hlt
    · exact hd

/-- The correction without a change of length. -/
theorem Massey.correct (h : Massey s ν n p q len b) (hc : productCoeff p s n + c * b = 0)
    (hlen : n < 2 * len) :
    Massey s ν (n + 1) (p + C c * q) (X * q) len b :=
  h.prev_shift (by simp [h.coeff_zero, h.prev_coeff_zero])
    (h.natDegree_correction_le.trans (max_le le_rfl (by omega)))
    fun k hk hkn => h.generates_add hc hk (by omega) hkn

/-- The correction with a change of length. -/
theorem Massey.grow (h : Massey s ν n p q len b) (hd : productCoeff p s n ≠ 0)
    (hc : productCoeff p s n + c * b = 0) (hlen : 2 * len ≤ n) (hν : n + 1 - len ≤ ν) :
    Massey s ν (n + 1) (p + C c * q) (X * p) (n + 1 - len) (productCoeff p s n) where
  coeff_zero := by simp [h.coeff_zero, h.prev_coeff_zero]
  natDegree_le := h.natDegree_correction_le.trans (max_le (by omega) le_rfl)
  len_le := by omega
  len_le_locators := hν
  generates := fun k hk hkn => h.generates_add hc (by omega) hk hkn
  prev_coeff_zero := by simp
  prev_natDegree_le := by
    have hp := h.natDegree_le
    have hX := natDegree_mul_le (p := X) (q := p)
    rw [natDegree_X] at hX
    omega
  prev_generates := by
    intro k hk hkn
    obtain ⟨j, rfl⟩ := Nat.exists_eq_add_one_of_ne_zero (show k ≠ 0 by omega)
    rw [productCoeff_X_mul_succ]
    exact h.generates j (by omega) (by omega)
  prev_discrepancy := fun _ => productCoeff_X_mul_succ p s n
  prev_discrepancy_ne_zero := hd

end Step

/-- Massey's bound: a discrepancy at `n` means that there are more than `n - len` locators; with no
more, the polynomial would vanish at every inverse locator and have no discrepancy. -/
theorem ErrorPattern.length_bound {I : Finset ι} {x y : ι → F} (hE : ErrorPattern I x y)
    {n len : Nat} {p q : F[X]} {b : F} (h : Massey (powerSum I x y) I.card n p q len b)
    (hd : productCoeff p (powerSum I x y) n ≠ 0) : n + 1 - len ≤ I.card := by
  by_contra hcard
  have hlen := h.len_le
  have hroot := hE.eval_inv_eq_zero h.natDegree_le (by omega) h.generates
  refine hd ?_
  rw [productCoeff_powerSum]
  refine Finset.sum_eq_zero fun i hi => ?_
  rw [productCoeff_pow (h.natDegree_le.trans hlen) (hE.locator_ne_zero i hi), hroot i hi, mul_zero,
    mul_zero]

/-! ### The locator polynomial -/

/-- The polynomial with constant term 1 that vanishes at the inverse locators. -/
noncomputable def locatorPoly (I : Finset ι) (x : ι → F) : F[X] := ∏ i ∈ I, (1 - C (x i) * X)

theorem locatorPoly_coeff_zero (I : Finset ι) (x : ι → F) : (locatorPoly I x).coeff 0 = 1 := by
  simp [coeff_zero_eq_eval_zero, locatorPoly, eval_prod]

theorem natDegree_one_sub_C_mul_X {a : F} (ha : a ≠ 0) : (1 - C a * X : F[X]).natDegree = 1 := by
  rw [← natDegree_neg, neg_sub, ← C_1, natDegree_sub_C, natDegree_C_mul_X a ha]

theorem ErrorPattern.natDegree_locatorPoly {I : Finset ι} {x y : ι → F}
    (hE : ErrorPattern I x y) : (locatorPoly I x).natDegree = I.card := by
  have hone : ∀ i ∈ I, (1 - C (x i) * X : F[X]).natDegree = 1 := fun i hi =>
    natDegree_one_sub_C_mul_X (hE.locator_ne_zero i hi)
  rw [locatorPoly, natDegree_prod _ _ fun i hi h => by simpa [h] using hone i hi,
    Finset.sum_congr rfl hone, Finset.sum_const, smul_eq_mul, mul_one]

theorem natDegree_locatorPoly_le (I : Finset ι) (x : ι → F) :
    (locatorPoly I x).natDegree ≤ I.card := by
  refine (natDegree_prod_le _ _).trans ((Finset.sum_le_card_nsmul _ _ 1 fun i _ => ?_).trans_eq
    (by rw [smul_eq_mul, mul_one]))
  rw [← natDegree_neg, neg_sub, ← C_1, natDegree_sub_C]
  exact (natDegree_C_mul_le _ _).trans natDegree_X_le

theorem eval_inv_locatorPoly_eq_zero_iff {I : Finset ι} {x : ι → F} {a : F} (ha : a ≠ 0) :
    (locatorPoly I x).eval a⁻¹ = 0 ↔ ∃ i ∈ I, x i = a := by
  simp only [locatorPoly, eval_prod, Finset.prod_eq_zero_iff, eval_sub, eval_one, eval_mul, eval_C,
    eval_X, sub_eq_zero]
  refine exists_congr fun i => and_congr_right fun _ => ?_
  rw [eq_mul_inv_iff_mul_eq₀ ha, one_mul, eq_comm]

/-- A polynomial of no larger degree, with constant term 1, that vanishes there is the locator
polynomial: the two agree at one point more than their degree. -/
theorem ErrorPattern.eq_locatorPoly {I : Finset ι} {x y : ι → F} (hE : ErrorPattern I x y)
    {p : F[X]} (h0 : p.coeff 0 = 1) (hdeg : p.natDegree ≤ I.card)
    (hroot : ∀ i ∈ I, p.eval (x i)⁻¹ = 0) : p = locatorPoly I x := by
  classical
  have hinj : Set.InjOn (fun i => (x i)⁻¹) I := fun i hi j hj hij =>
    hE.injOn hi hj (inv_injective hij)
  have hcard : (insert 0 (I.image fun i => (x i)⁻¹)).card = I.card + 1 := by
    rw [Finset.card_insert_of_notMem, Finset.card_image_of_injOn hinj]
    simpa using hE.locator_ne_zero
  refine eq_of_degrees_lt_of_eval_finset_eq (insert 0 (I.image fun i => (x i)⁻¹)) ?_ ?_ ?_
  · rw [hcard]
    exact degree_le_natDegree.trans_lt (by exact_mod_cast Nat.lt_succ_of_le hdeg)
  · rw [hcard]
    exact degree_le_natDegree.trans_lt
      (by exact_mod_cast Nat.lt_succ_of_le hE.natDegree_locatorPoly.le)
  · intro a ha
    rcases Finset.mem_insert.1 ha with rfl | ha
    · rw [← coeff_zero_eq_eval_zero, ← coeff_zero_eq_eval_zero, h0, locatorPoly_coeff_zero]
    · obtain ⟨i, hi, rfl⟩ := Finset.mem_image.1 ha
      rw [hroot i hi, eq_comm, eval_inv_locatorPoly_eq_zero_iff (hE.locator_ne_zero i hi)]
      exact ⟨i, hi, rfl⟩

/-- With at least twice as many syndromes as errors the loop ends with the locator polynomial. -/
theorem ErrorPattern.massey_end {I : Finset ι} {x y : ι → F} (hE : ErrorPattern I x y)
    {n len : Nat} {p q : F[X]} {b : F} (h : Massey (powerSum I x y) I.card n p q len b)
    (hn : 2 * I.card ≤ n) : p = locatorPoly I x ∧ len = I.card := by
  have hlen := h.len_le_locators
  have hp := hE.eq_locatorPoly h.coeff_zero (h.natDegree_le.trans hlen)
    (hE.eval_inv_eq_zero h.natDegree_le (by omega) h.generates)
  refine ⟨hp, le_antisymm hlen ?_⟩
  rw [← hE.natDegree_locatorPoly, ← hp]
  exact h.natDegree_le

/-! ### Forney's formula (43_fec R183 step 3) -/

section Forney

variable [DecidableEq ι]

/-- The locator polynomial without the factor of position `i`. -/
theorem locatorPoly_eq_mul_erase {I : Finset ι} (x : ι → F) {i : ι} (hi : i ∈ I) :
    locatorPoly I x = (1 - C (x i) * X) * locatorPoly (I.erase i) x :=
  (Finset.mul_prod_erase I _ hi).symm

/-- The product of the locator polynomial and the syndromes is a polynomial. -/
theorem productCoeff_locatorPoly (I : Finset ι) (x y : ι → F) (n : Nat) :
    productCoeff (locatorPoly I x) (powerSum I x y) n =
      (∑ i ∈ I, C (y i) * locatorPoly (I.erase i) x).coeff n := by
  rw [productCoeff_powerSum, finsetSum_coeff]
  refine Finset.sum_congr rfl fun i hi => ?_
  rw [locatorPoly_eq_mul_erase x hi, productCoeff_one_sub_mul, coeff_C_mul]

theorem ErrorPattern.eval_inv_erase_ne_zero {I : Finset ι} {x y : ι → F}
    (hE : ErrorPattern I x y) {k : ι} (hk : k ∈ I) :
    (locatorPoly (I.erase k) x).eval (x k)⁻¹ ≠ 0 := by
  rw [Ne, eval_inv_locatorPoly_eq_zero_iff (hE.locator_ne_zero k hk)]
  rintro ⟨i, hi, hik⟩
  exact Finset.ne_of_mem_erase hi (hE.injOn (Finset.mem_of_mem_erase hi) hk hik)

/-- The evaluator at an inverse locator: only its own position's term is left. -/
theorem ErrorPattern.eval_evaluator {I : Finset ι} {x y : ι → F} (hE : ErrorPattern I x y) {k : ι}
    (hk : k ∈ I) :
    (∑ i ∈ I, C (y i) * locatorPoly (I.erase i) x).eval (x k)⁻¹ =
      y k * (locatorPoly (I.erase k) x).eval (x k)⁻¹ := by
  rw [eval_finsetSum, Finset.sum_eq_single_of_mem k hk, eval_mul, eval_C]
  intro i _ hik
  rw [eval_mul, (eval_inv_locatorPoly_eq_zero_iff (hE.locator_ne_zero k hk)).2
    ⟨k, Finset.mem_erase.2 ⟨hik.symm, hk⟩, rfl⟩, mul_zero]

theorem ErrorPattern.eval_derivative_locatorPoly {I : Finset ι} {x y : ι → F}
    (hE : ErrorPattern I x y) {k : ι} (hk : k ∈ I) :
    (Polynomial.derivative (locatorPoly I x)).eval (x k)⁻¹ =
      -x k * (locatorPoly (I.erase k) x).eval (x k)⁻¹ := by
  have hx := hE.locator_ne_zero k hk
  rw [locatorPoly_eq_mul_erase x hk, derivative_mul]
  simp [hx]

end Forney

/-- The quotient of the two is the error, up to its sign. -/
theorem evaluator_div_derivative {e x q : F} (hx : x ≠ 0) (hq : q ≠ 0) :
    e * x * q * (-x * q)⁻¹ = -e := by
  field_simp

end Decoding

end Sys2Proof.Machine
end

section
/-! PROOFS. Lists of symbols as polynomials over their field (40_arith_gf256 R128), and the
syndromes of a received word as the power sums of its errors (43_fec R177). -/

namespace Sys2Proof.Machine

open Polynomial

/-! ### Inverses and sums of symbols -/

theorem gfadd_eq_zero_iff {a b : Byte} : gfadd a b = 0 ↔ a = b := BitVec.xor_eq_zero_iff

theorem symbolClass_eq_zero_iff {poly : PrimPoly} (htop : poly.getLsbD 8 = true) {a : Byte} :
    symbolClass poly a = 0 ↔ a = 0 := by
  rw [← symbolClass_zero poly, (symbolClass_injective htop).eq_iff]

theorem symbolClass_gfinv {poly : PrimPoly} [Fact (Irreducible (bitPoly poly))]
    (hprim : gfprimitive poly = true) {a : Byte} (ha : a ≠ 0) :
    symbolClass poly (gfinv poly a) = (symbolClass poly a)⁻¹ := by
  refine eq_inv_of_mul_eq_one_right ?_
  rw [← symbolClass_gfmul (getLsbD_eight_of_gfprimitive hprim), gfmul_gfinv hprim ha,
    symbolClass_one]

/-- A loop that adds `f 0, f 1, ..` to a symbol. -/
theorem symbolClass_foldl_gfadd (poly : PrimPoly) (f : Nat → Byte) (a : Byte) (n : Nat) :
    symbolClass poly ((List.range n).foldl (fun d j => gfadd d (f j)) a) =
      symbolClass poly a + ∑ j ∈ Finset.range n, symbolClass poly (f j) := by
  induction n with
  | zero => simp
  | succ n ih =>
    rw [List.range_succ, List.foldl_concat, symbolClass_gfadd, ih, Finset.sum_range_succ, add_assoc]

/-! ### A list as a polynomial (40_arith_gf256 R128) -/

/-- The polynomial whose coefficients are listed lowest degree first. -/
noncomputable def symbolPoly (poly : PrimPoly) : List Byte → (AdjoinRoot (bitPoly poly))[X]
  | [] => 0
  | a :: l => C (symbolClass poly a) + X * symbolPoly poly l

theorem coeff_symbolPoly (poly : PrimPoly) (l : List Byte) (k : Nat) :
    (symbolPoly poly l).coeff k = symbolClass poly (l.getD k 0) := by
  induction l generalizing k with
  | nil => exact (symbolClass_zero poly).symm
  | cons a l ih =>
    cases k with
    | zero => simp [symbolPoly, mul_coeff_zero]
    | succ k => simp [symbolPoly, ih]

/-- Horner's rule evaluates that polynomial. -/
theorem symbolClass_polyEval {poly : PrimPoly} (htop : poly.getLsbD 8 = true) (l : List Byte)
    (v : Byte) :
    symbolClass poly (polyEval poly l v) = (symbolPoly poly l).eval (symbolClass poly v) := by
  rw [polyEval, polyEvalHigh, List.foldl_reverse]
  induction l with
  | nil => exact (symbolClass_zero poly).trans eval_zero.symm
  | cons a l ih =>
    rw [List.foldr_cons, symbolClass_gfadd, symbolClass_gfmul htop, ih]
    simp [symbolPoly]
    ring

/-- Horner's rule on coefficients listed highest degree first. -/
theorem symbolClass_polyEvalHigh {poly : PrimPoly} (htop : poly.getLsbD 8 = true) (l : List Byte)
    (v : Byte) :
    symbolClass poly (polyEvalHigh poly l v) =
      ∑ i ∈ Finset.range l.length,
        symbolClass poly (l.getD i 0) * symbolClass poly v ^ (l.length - 1 - i) := by
  induction l using List.reverseRecOn with
  | nil => exact symbolClass_zero poly
  | append_singleton l a ih =>
    rw [polyEvalHigh, List.foldl_concat, ← polyEvalHigh, symbolClass_gfadd, symbolClass_gfmul htop,
      ih, List.length_append, List.length_singleton, Finset.sum_range_succ, Finset.sum_mul]
    refine congrArg₂ (· + ·) (Finset.sum_congr rfl fun i hi => ?_) ?_
    · have hi := Finset.mem_range.1 hi
      rw [List.getD_append _ _ _ _ hi, mul_assoc, ← pow_succ,
        show l.length - 1 - i + 1 = l.length + 1 - 1 - i by omega]
    · rw [List.getD_append_right _ _ _ _ le_rfl]
      simp

/-! ### Syndromes (43_fec R177) -/

theorem getD_syndrome (poly : PrimPoly) (r : List Byte) {j : Nat} (hj : j < 32) :
    (syndrome poly r).getD j 0 = polyEvalHigh poly r (gfalphaPow poly (j + 1)) := by
  rw [List.getD_eq_getElem _ _ (by rw [length_syndrome]; exact hj)]
  simp [syndrome, rootExponents, Config.gap, Config.fcr, Nat.add_comm]

theorem syndrome_eq_zero_iff (poly : PrimPoly) (r : List Byte) :
    (∀ x ∈ syndrome poly r, x = 0) ↔ ∀ j < 32, (syndrome poly r).getD j 0 = 0 := by
  simp only [List.forall_mem_iff_forall_getElem, length_syndrome, Config.synBytes]
  exact forall₂_congr fun j hj => by rw [List.getD_eq_getElem]

theorem allZero_iff (l : List Byte) : allZero l = true ↔ ∀ x ∈ l, x = 0 := by
  simp [allZero]

/-- `X_i`, the locator of byte index `i` (43_fec R183). -/
noncomputable def locator (poly : PrimPoly) (i : Nat) : AdjoinRoot (bitPoly poly) :=
  AdjoinRoot.root (bitPoly poly) ^ (254 - i)

theorem symbolClass_getD_syndrome {poly : PrimPoly} (hprim : gfprimitive poly = true)
    {r : List Byte} (hr : r.length = 255) {j : Nat} (hj : j < 32) :
    symbolClass poly ((syndrome poly r).getD j 0) =
      ∑ i ∈ Finset.range 255, symbolClass poly (r.getD i 0) * locator poly i ^ (j + 1) := by
  rw [getD_syndrome poly r hj, symbolClass_polyEvalHigh (getLsbD_eight_of_gfprimitive hprim),
    symbolClass_gfalphaPow hprim, hr]
  refine Finset.sum_congr rfl fun i _ => ?_
  rw [locator, ← pow_mul, ← pow_mul, Nat.mul_comm]

/-! ### The errors of a received word -/

/-- The byte indices at which `r` differs from `cw`. -/
def errorPositions (r cw : List Byte) : Finset Nat :=
  (Finset.range 255).filter fun i => r.getD i 0 ≠ cw.getD i 0

theorem mem_errorPositions {r cw : List Byte} {i : Nat} :
    i ∈ errorPositions r cw ↔ i < 255 ∧ r.getD i 0 ≠ cw.getD i 0 := by
  simp [errorPositions]

/-- The error at index `i` times its locator. -/
noncomputable def errorWeight (poly : PrimPoly) (r cw : List Byte) (i : Nat) :
    AdjoinRoot (bitPoly poly) :=
  symbolClass poly (gfadd (r.getD i 0) (cw.getD i 0)) * locator poly i

/-- The syndromes of a received word are the power sums of its errors; the codeword has none. -/
theorem symbolClass_syndrome_eq_powerSum {poly : PrimPoly} [Fact (Irreducible (bitPoly poly))]
    (hprim : gfprimitive poly = true) {r cw : List Byte} (hr : r.length = 255)
    (hcw : IsCodeword poly cw) {j : Nat} (hj : j < 32) :
    symbolClass poly ((syndrome poly r).getD j 0) =
      powerSum (errorPositions r cw) (locator poly) (errorWeight poly r cw) j := by
  obtain ⟨hlen, hzero⟩ := hcw
  have hcwj := symbolClass_getD_syndrome hprim hlen hj
  rw [(syndrome_eq_zero_iff poly cw).1 hzero j hj, symbolClass_zero] at hcwj
  rw [← add_zero (symbolClass poly _), hcwj, symbolClass_getD_syndrome hprim hr hj,
    ← Finset.sum_add_distrib, powerSum, errorPositions, Finset.sum_filter]
  refine Finset.sum_congr rfl fun i _ => ?_
  rw [← add_mul, ← symbolClass_gfadd, errorWeight, pow_succ']
  split_ifs with hne
  · ring
  · rw [gfadd_eq_zero_iff.2 (not_not.1 hne), symbolClass_zero, zero_mul]

theorem locator_ne_zero {poly : PrimPoly} [Fact (Irreducible (bitPoly poly))]
    (hprim : gfprimitive poly = true) (i : Nat) : locator poly i ≠ 0 := by
  rw [locator, ← symbolClass_gfalphaPow hprim, Ne,
    symbolClass_eq_zero_iff (getLsbD_eight_of_gfprimitive hprim)]
  exact gfalphaPow_ne_zero hprim _

theorem locator_injOn {poly : PrimPoly} (hprim : gfprimitive poly = true) :
    Set.InjOn (locator poly) (Set.Iio 255) := by
  intro i hi j hj hij
  have hpow := pow_injOn_Iio_orderOf (x := AdjoinRoot.root (bitPoly poly))
    (by rw [orderOf_root_of_gfprimitive hprim, Set.mem_Iio]; omega)
    (by rw [orderOf_root_of_gfprimitive hprim, Set.mem_Iio]; omega) hij
  have hi : i < 255 := hi
  have hj : j < 255 := hj
  omega

theorem errorPattern {poly : PrimPoly} [Fact (Irreducible (bitPoly poly))]
    (hprim : gfprimitive poly = true) (r cw : List Byte) :
    ErrorPattern (errorPositions r cw) (locator poly) (errorWeight poly r cw) where
  injOn := (locator_injOn hprim).mono fun _ hi => (mem_errorPositions.1 hi).1
  locator_ne_zero := fun i _ => locator_ne_zero hprim i
  weight_ne_zero := fun i hi => mul_ne_zero
    ((symbolClass_eq_zero_iff (getLsbD_eight_of_gfprimitive hprim)).not.2
      (gfadd_eq_zero_iff.not.2 (mem_errorPositions.1 hi).2)) (locator_ne_zero hprim i)

/-! ### Distance (43_fec R180) -/

theorem dist_eq_countP_range {a b : List Byte} (h : a.length = b.length) :
    dist a b = (List.range a.length).countP fun i => decide (a.getD i 0 ≠ b.getD i 0) := by
  induction a generalizing b with
  | nil => simp [dist]
  | cons x a ih =>
    obtain - | ⟨y, b⟩ := b
    · simp at h
    · have ih := ih (b := b) (by simpa using h)
      rw [List.length_cons, List.range_succ_eq_map, List.countP_cons, List.countP_map]
      simpa [dist, List.countP_cons, Function.comp_def] using ih

theorem dist_eq_card_errorPositions {r cw : List Byte} (hr : r.length = 255)
    (hcw : cw.length = 255) : dist r cw = (errorPositions r cw).card := by
  rw [dist_eq_countP_range (hr.trans hcw.symm), hr, List.countP_eq_length_filter, errorPositions,
    Finset.card_def, Finset.filter_val, Finset.range_val, Multiset.range, Multiset.filter_coe,
    Multiset.coe_card]

theorem eq_of_errorPositions_eq_empty {r cw : List Byte} (hr : r.length = 255)
    (hcw : cw.length = 255) (h : errorPositions r cw = ∅) : r = cw := by
  refine List.ext_getElem (hr.trans hcw.symm) fun i hi hi' => ?_
  by_contra hne
  have hmem : i ∈ errorPositions r cw := mem_errorPositions.2
    ⟨hr ▸ hi, by rwa [List.getD_eq_getElem _ _ hi, List.getD_eq_getElem _ _ hi']⟩
  simp [h] at hmem

/-- Minimum distance: a received word without syndrome that is at most 32 errors from a codeword is
that codeword (43_fec R179). -/
theorem eq_of_syndrome_eq_zero {poly : PrimPoly} (hprim : gfprimitive poly = true)
    {r cw : List Byte} (hr : r.length = 255) (hcw : IsCodeword poly cw)
    (hzero : ∀ x ∈ syndrome poly r, x = 0) (hdist : dist r cw ≤ 32) : r = cw := by
  have : Fact (Irreducible (bitPoly poly)) := ⟨irreducible_bitPoly_of_gfprimitive hprim⟩
  have hE := errorPattern hprim r cw
  rw [dist_eq_card_errorPositions hr hcw.1] at hdist
  refine eq_of_errorPositions_eq_empty hr hcw.1 (Finset.eq_empty_of_forall_notMem fun i hi => ?_)
  refine hE.weight_ne_zero i hi (eq_zero_of_powerSum_eq_zero hE.injOn (fun k hk => ?_) i hi)
  rw [← symbolClass_syndrome_eq_powerSum hprim hr hcw (by omega),
    (syndrome_eq_zero_iff poly r).1 hzero k (by omega), symbolClass_zero]

end Sys2Proof.Machine
end

section
/-! PROOFS. Berlekamp-Massey's loop on the syndromes of a received word (43_fec R183 step 1): it
keeps `Massey`, so with at most 16 errors it ends with their locator polynomial. -/

namespace Sys2Proof.Machine

open Polynomial

/-! ### The update of the polynomial -/

theorem length_bmUpdate (poly : PrimPoly) (coef : Byte) (m : Nat) {cp bp : List Byte}
    (h : cp.length ≤ bp.length) : (bmUpdate poly coef m cp bp).length = cp.length := by
  simp only [bmUpdate, List.length_zipWith, List.length_append, List.length_replicate,
    List.length_map]
  omega

theorem symbolClass_getD_shift {poly : PrimPoly} (htop : poly.getLsbD 8 = true) (coef : Byte)
    (m : Nat) (bp : List Byte) (k : Nat) :
    symbolClass poly ((List.replicate m 0 ++ bp.map (gfmul poly coef)).getD k 0) =
      symbolClass poly coef * (X ^ m * symbolPoly poly bp).coeff k := by
  rw [coeff_X_pow_mul', coeff_symbolPoly]
  split_ifs with hk
  · rw [List.getD_append_right _ _ _ _ (by simpa using hk), List.length_replicate,
      ← symbolClass_gfmul htop]
    by_cases hlt : k - m < bp.length
    · rw [List.getD_eq_getElem _ _ (by simpa using hlt), List.getElem_map,
        List.getD_eq_getElem _ _ hlt]
    · rw [List.getD_eq_default _ _ (by simpa using hlt), List.getD_eq_default _ _ (by omega),
        symbolClass_gfmul htop, symbolClass_zero, mul_zero]
  · rw [List.getD_append _ _ _ _ (by simpa using hk), List.getD_replicate _ (by simpa using hk),
      symbolClass_zero, mul_zero]

/-- The update drops nothing: the shifted polynomial has degree at most 32. -/
theorem symbolPoly_bmUpdate {poly : PrimPoly} (htop : poly.getLsbD 8 = true) (coef : Byte)
    {m : Nat} {cp bp : List Byte} (hcp : cp.length = 33) (hbp : bp.length = 33)
    (hdeg : (X ^ m * symbolPoly poly bp).natDegree ≤ 32) :
    symbolPoly poly (bmUpdate poly coef m cp bp) =
      symbolPoly poly cp + C (symbolClass poly coef) * (X ^ m * symbolPoly poly bp) := by
  have hlen := length_bmUpdate poly coef m (hcp.trans hbp.symm).le
  ext k
  rw [coeff_add, coeff_C_mul, ← symbolClass_getD_shift htop, coeff_symbolPoly, coeff_symbolPoly,
    ← symbolClass_gfadd]
  by_cases hk : k < 33
  · have hshift : k < (List.replicate m 0 ++ bp.map (gfmul poly coef)).length := by
      simp only [List.length_append, List.length_replicate, List.length_map]
      omega
    rw [List.getD_eq_getElem _ _ (by omega), List.getD_eq_getElem cp _ (by omega),
      List.getD_eq_getElem _ _ hshift]
    simp only [bmUpdate, List.getElem_zipWith]
  · rw [List.getD_eq_default _ _ (by omega), symbolClass_gfadd, symbolClass_getD_shift htop,
      coeff_eq_zero_of_natDegree_lt (p := X ^ m * _) (by omega),
      List.getD_eq_default cp _ (by omega), symbolClass_zero, mul_zero, add_zero]

theorem symbolPoly_replicate_zero (poly : PrimPoly) (n : Nat) :
    symbolPoly poly (List.replicate n 0) = 0 := by
  induction n with
  | zero => rfl
  | succ n ih => rw [List.replicate_succ, symbolPoly, ih, symbolClass_zero, C_0, mul_zero, add_zero]

theorem symbolPoly_bmOne (poly : PrimPoly) : symbolPoly poly bmOne = 1 := by
  rw [bmOne, symbolPoly, symbolPoly_replicate_zero, symbolClass_one, C_1, mul_zero, add_zero]

section Loop

variable {poly : PrimPoly} [Fact (Irreducible (bitPoly poly))]

/-! ### The loop -/

theorem symbolClass_bmDiscrepancy (htop : poly.getLsbD 8 = true) {syn : List Byte}
    {s : Nat → AdjoinRoot (bitPoly poly)} {n : Nat} (hn : n < 32)
    (hsyn : ∀ j < 32, symbolClass poly (syn.getD j 0) = s j) {st : BmState}
    (h0 : (symbolPoly poly st.cp).coeff 0 = 1) (hdeg : (symbolPoly poly st.cp).natDegree ≤ st.len)
    (hlen : st.len ≤ n) :
    symbolClass poly (bmDiscrepancy poly syn st n) = productCoeff (symbolPoly poly st.cp) s n := by
  rw [bmDiscrepancy, symbolClass_foldl_gfadd, productCoeff_eq_sum_range hdeg hlen, h0, one_mul,
    hsyn n hn]
  refine congrArg (s n + ·) (Finset.sum_congr rfl fun j _ => ?_)
  rw [symbolClass_gfmul htop, coeff_symbolPoly, hsyn _ (by omega)]

/-- The variables of the loop after `n` iterations on the syndromes `s` of `ν` errors. -/
structure BmState.Tracks (poly : PrimPoly) [Fact (Irreducible (bitPoly poly))]
    (s : Nat → AdjoinRoot (bitPoly poly)) (ν n : Nat) (st : BmState) : Prop where
  length_cp : st.cp.length = 33
  length_bp : st.bp.length = 33
  massey : Massey s ν n (symbolPoly poly st.cp) (X ^ st.m * symbolPoly poly st.bp) st.len
    (symbolClass poly st.b)

theorem bmInit_tracks (s : Nat → AdjoinRoot (bitPoly poly)) (ν : Nat) :
    bmInit.Tracks poly s ν 0 where
  length_cp := rfl
  length_bp := rfl
  massey := by
    simp only [bmInit, symbolPoly_bmOne, pow_one, mul_one, symbolClass_one]
    exact massey_start s ν

variable {ι : Type*} {I : Finset ι} {x y : ι → AdjoinRoot (bitPoly poly)}

/-- One iteration, by the three branches of the loop's body. -/
theorem bmStep_tracks (hprim : gfprimitive poly = true) (hE : ErrorPattern I x y)
    {syn : List Byte} (hsyn : ∀ j < 32, symbolClass poly (syn.getD j 0) = powerSum I x y j)
    {n : Nat} (hn : n < 32) {st : BmState} (h : st.Tracks poly (powerSum I x y) I.card n) :
    (bmStep poly syn st n).Tracks poly (powerSum I x y) I.card (n + 1) := by
  obtain ⟨hcp, hbp, hM⟩ := h
  have htop := getLsbD_eight_of_gfprimitive hprim
  have hd := symbolClass_bmDiscrepancy htop hn hsyn hM.coeff_zero hM.natDegree_le hM.len_le
  have hshift : X ^ (st.m + 1) * symbolPoly poly st.bp =
      X * (X ^ st.m * symbolPoly poly st.bp) := by
    rw [pow_succ', mul_assoc]
  have hcancel : productCoeff (symbolPoly poly st.cp) (powerSum I x y) n +
      symbolClass poly (gfmul poly (bmDiscrepancy poly syn st n) (gfinv poly st.b)) *
        symbolClass poly st.b = 0 := by
    rw [symbolClass_gfmul htop,
      symbolClass_gfinv hprim ((symbolClass_eq_zero_iff htop).not.1 hM.prev_discrepancy_ne_zero),
      inv_mul_cancel_right₀ hM.prev_discrepancy_ne_zero, ← hd, symbolClass_add_self]
  unfold bmStep
  dsimp only
  generalize gfmul poly (bmDiscrepancy poly syn st n) (gfinv poly st.b) = coef at hcancel ⊢
  have hlen := (length_bmUpdate poly coef st.m (hcp.trans hbp.symm).le).trans hcp
  have hup := symbolPoly_bmUpdate htop coef hcp hbp
    (hM.prev_natDegree_le.trans (show n + 1 - st.len ≤ 32 by omega))
  split_ifs with hzero hshort
  · refine ⟨hcp, hbp, ?_⟩
    rw [hshift]
    exact hM.keep (by rw [← hd, hzero, symbolClass_zero])
  · have hne := (symbolClass_eq_zero_iff htop).not.2 hzero
    rw [hd] at hne
    refine ⟨hlen, hcp, ?_⟩
    rw [hup, pow_one, hd]
    exact hM.grow hne hcancel hshort (hE.length_bound hM hne)
  · refine ⟨hlen, hbp, ?_⟩
    rw [hup, hshift]
    exact hM.correct hcancel (by omega)

/-- With at most 16 errors the loop finds their number and their locator polynomial. -/
theorem bmRun_eq_locatorPoly (hprim : gfprimitive poly = true) (hE : ErrorPattern I x y)
    {syn : List Byte} (hsyn : ∀ j < 32, symbolClass poly (syn.getD j 0) = powerSum I x y j)
    (hcard : I.card ≤ 16) :
    symbolPoly poly (bmRun poly syn).cp = locatorPoly I x ∧ (bmRun poly syn).len = I.card := by
  have hloop : ∀ n ≤ 32, ((List.range n).foldl (bmStep poly syn) bmInit).Tracks poly
      (powerSum I x y) I.card n := by
    intro n hn
    induction n with
    | zero => exact bmInit_tracks _ _
    | succ n ih =>
      rw [List.range_succ, List.foldl_concat]
      exact bmStep_tracks hprim hE hsyn (by omega) (ih (by omega))
  exact hE.massey_end (hloop 32 le_rfl).massey (by omega)

end Loop

end Sys2Proof.Machine
end

section
/-! PROOFS. Chien's search and Forney's corrections (43_fec R183 steps 2 and 3), and `DecodeCW` as
the bounded-distance decoder of radius 16 (R180). -/

namespace Sys2Proof.Machine

open Polynomial

/-! ### Forney's corrections, position by position -/

/-- The error value at index `i` (43_fec R183 step 3). -/
def forneyValue (poly : PrimPoly) (om lam' : List Byte) (i : Nat) : Byte :=
  gfmul poly (polyEval poly om (inverseLocator poly i))
    (gfinv poly (polyEval poly lam' (inverseLocator poly i)))

theorem forneyCorrect_cons_iff {poly : PrimPoly} {om lam' : List Byte} {k : Nat} {pos : List Nat}
    {r out : List Byte} :
    forneyCorrect poly om lam' (k :: pos) r = some out ↔
      polyEval poly lam' (inverseLocator poly k) ≠ 0 ∧ forneyValue poly om lam' k ≠ 0 ∧
      forneyCorrect poly om lam' pos
        (r.set k (gfadd (r.getD k 0) (forneyValue poly om lam' k))) = some out := by
  simp only [forneyCorrect, forneyValue]
  split_ifs with hden hval
  · exact iff_of_false nofun fun ⟨h, _⟩ => h hden
  · exact iff_of_false nofun fun ⟨_, h, _⟩ => h hval
  · rw [and_iff_right hden, and_iff_right hval]

theorem getD_set {l : List Byte} {k : Nat} (hk : k < l.length) (b : Byte) (i : Nat) :
    (l.set k b).getD i 0 = if i = k then b else l.getD i 0 := by
  rw [List.getD_eq_getElem?_getD, List.getElem?_set]
  split_ifs with hki hik hik
  · rfl
  · exact absurd hki.symm hik
  · exact absurd hik.symm hki
  · exact List.getD_eq_getElem?_getD.symm

theorem gfadd_gfadd_cancel (a b : Byte) : gfadd a (gfadd a b) = b := by
  rw [gfadd, gfadd, ← BitVec.xor_assoc, BitVec.xor_self, BitVec.zero_xor]

theorem eq_zero_of_gfadd_eq_left {a b : Byte} (h : gfadd a b = a) : b = 0 := by
  rw [← gfadd_gfadd_cancel a b, h]
  exact gfadd_eq_zero_iff.2 rfl

/-- The corrections change exactly their positions, each to another byte. -/
theorem getD_forneyCorrect {poly : PrimPoly} {om lam' : List Byte} {pos : List Nat}
    {r out : List Byte} (h : forneyCorrect poly om lam' pos r = some out) (hnodup : pos.Nodup)
    (hlt : ∀ i ∈ pos, i < r.length) (i : Nat) : r.getD i 0 ≠ out.getD i 0 ↔ i ∈ pos := by
  induction pos generalizing r with
  | nil =>
    obtain rfl : r = out := Option.some.inj h
    simp
  | cons k pos ih =>
    obtain ⟨-, hval, hrest⟩ := forneyCorrect_cons_iff.1 h
    obtain ⟨hk, hnodup⟩ := List.nodup_cons.1 hnodup
    have hi := ih hrest hnodup fun j hj =>
      (hlt j (List.mem_cons_of_mem k hj)).trans_eq List.length_set.symm
    rw [getD_set (hlt k List.mem_cons_self)] at hi
    split_ifs at hi with hik
    · subst hik
      rw [← not_not.1 (hi.not.2 hk)]
      exact iff_of_true (fun heq => hval (eq_zero_of_gfadd_eq_left heq.symm)) List.mem_cons_self
    · rw [hi, List.mem_cons, or_iff_right hik]

/-- Where Forney's value is the error at each position left, and there is no error elsewhere, the
corrections give the sent word. -/
theorem forneyCorrect_eq_some {poly : PrimPoly} {om lam' : List Byte} {pos : List Nat}
    {r cw : List Byte} (hlen : r.length = cw.length) (hlt : ∀ i ∈ pos, i < cw.length)
    (hnodup : pos.Nodup) (herr : ∀ i, r.getD i 0 ≠ cw.getD i 0 ↔ i ∈ pos)
    (hden : ∀ i ∈ pos, polyEval poly lam' (inverseLocator poly i) ≠ 0)
    (hval : ∀ i ∈ pos, forneyValue poly om lam' i = gfadd (r.getD i 0) (cw.getD i 0)) :
    forneyCorrect poly om lam' pos r = some cw := by
  induction pos generalizing r with
  | nil =>
    refine congrArg some (List.ext_getElem hlen fun i hi hi' => ?_)
    have heq := not_not.1 ((herr i).not.2 List.not_mem_nil)
    rwa [List.getD_eq_getElem _ _ hi, List.getD_eq_getElem _ _ hi'] at heq
  | cons k pos ih =>
    obtain ⟨hk, hnodup⟩ := List.nodup_cons.1 hnodup
    have hset := getD_set ((hlt k List.mem_cons_self).trans_eq hlen.symm) (cw.getD k 0)
    rw [forneyCorrect_cons_iff, hval k List.mem_cons_self, gfadd_gfadd_cancel]
    refine ⟨hden k List.mem_cons_self,
      gfadd_eq_zero_iff.not.2 ((herr k).2 List.mem_cons_self),
      ih (List.length_set.trans hlen) (fun i hi => hlt i (List.mem_cons_of_mem k hi)) hnodup
        (fun i => ?_) (fun i hi => hden i (List.mem_cons_of_mem k hi)) fun i hi => ?_⟩
    · rw [hset]
      split_ifs with hik
      · subst hik
        exact iff_of_false (not_not.2 rfl) hk
      · rw [herr, List.mem_cons, or_iff_right hik]
    · rw [hset, if_neg (ne_of_mem_of_not_mem hi hk), hval i (List.mem_cons_of_mem k hi)]

/-! ### What `DecodeCW` returns, from its parts (43_fec R183) -/

theorem decodeCW_of_allZero {poly : PrimPoly} {r : List Byte}
    (h : allZero (syndrome poly r) = true) : decodeCW poly r = .corrected r 0 :=
  if_pos h

theorem decodeCW_of_forneyCorrect {poly : PrimPoly} {r cw : List Byte} {bm : BmState}
    (hzero : allZero (syndrome poly r) = false) (hbm : bmRun poly (syndrome poly r) = bm)
    (hlen : bm.len ≤ 16) (hlast : bm.cp.getD bm.len 0 ≠ 0)
    (hpos : (chienPositions poly (bm.cp.take (bm.len + 1))).length = bm.len)
    (hfix : forneyCorrect poly (errorEvaluator poly (syndrome poly r) (bm.cp.take (bm.len + 1)))
      (derivative (bm.cp.take (bm.len + 1))) (chienPositions poly (bm.cp.take (bm.len + 1))) r =
        some cw)
    (hcheck : allZero (syndrome poly cw) = true) : decodeCW poly r = .corrected cw bm.len := by
  have hgo : ¬ (bm.len > Config.rsT ∨ bm.cp.getD bm.len 0 = 0) :=
    not_or.2 ⟨Nat.not_lt.2 hlen, hlast⟩
  unfold decodeCW
  simp only [hzero, hbm, if_neg hgo, hpos, hfix, hcheck]
  simp

theorem nodup_chienPositions (poly : PrimPoly) (lam : List Byte) :
    (chienPositions poly lam).Nodup := List.nodup_range.filter _

theorem lt_of_mem_chienPositions {poly : PrimPoly} {lam : List Byte} {i : Nat}
    (hi : i ∈ chienPositions poly lam) : i < 255 :=
  List.mem_range.1 (List.mem_filter.1 hi).1

/-- Soundness: a corrected word is a codeword at the distance reported, at most 16. -/
theorem isCodeword_of_decodeCW_corrected {poly : PrimPoly} {r cw : List Byte} {e : Nat}
    (hr : r.length = 255) (h : decodeCW poly r = .corrected cw e) :
    IsCodeword poly cw ∧ dist r cw = e ∧ e ≤ 16 := by
  obtain ⟨hlen, he⟩ := decodeCW_corrected_length h
  have hcw : cw.length = 255 := hlen.trans hr
  rcases decodeCW_corrected h with ⟨hzero, rfl, rfl⟩ | ⟨-, -, -, hpos, hfix, hzero⟩
  · refine ⟨⟨hcw, (allZero_iff _).1 hzero⟩, ?_, he⟩
    rw [dist_eq_countP_range rfl]
    simp
  · refine ⟨⟨hcw, (allZero_iff _).1 hzero⟩, ?_, he⟩
    have hchange := getD_forneyCorrect hfix (nodup_chienPositions poly _)
      fun i hi => hr ▸ lt_of_mem_chienPositions hi
    rw [dist_eq_card_errorPositions hr hcw, ← hpos,
      ← List.toFinset_card_of_nodup (nodup_chienPositions poly _)]
    refine congrArg Finset.card (Finset.ext fun i => ?_)
    rw [mem_errorPositions, hchange, List.mem_toFinset, and_iff_right_iff_imp]
    exact lt_of_mem_chienPositions

/-! ### The polynomials of the procedure -/

theorem symbolPoly_take (poly : PrimPoly) {l : List Byte} {n : Nat}
    (hdeg : (symbolPoly poly l).natDegree ≤ n) :
    symbolPoly poly (l.take (n + 1)) = symbolPoly poly l := by
  ext k
  by_cases hk : k < n + 1
  · rw [coeff_symbolPoly, coeff_symbolPoly, List.getD_eq_getElem?_getD, List.getElem?_take_of_lt hk,
      List.getD_eq_getElem?_getD]
  · rw [coeff_eq_zero_of_natDegree_lt (p := symbolPoly poly l) (by omega), coeff_symbolPoly,
      List.getD_eq_default _ _ (by rw [List.length_take]; omega), symbolClass_zero]

section Field

variable {poly : PrimPoly} [Fact (Irreducible (bitPoly poly))]

/-- The formal derivative: in characteristic 2 only the odd powers are left. -/
theorem symbolPoly_derivative (lam : List Byte) :
    symbolPoly poly (derivative lam) = Polynomial.derivative (symbolPoly poly lam) := by
  have htwo : (2 : AdjoinRoot (bitPoly poly)) = 0 := by
    have hself := symbolClass_add_self poly 1
    rwa [symbolClass_one, one_add_one_eq_two] at hself
  ext k
  rw [coeff_derivative, coeff_symbolPoly, coeff_symbolPoly, derivative]
  by_cases hk : k < lam.length - 1
  · rw [List.getD_eq_getElem _ _ (by simpa using hk), List.getElem_map, List.getElem_range]
    split_ifs with hpar
    · obtain ⟨m, rfl⟩ := Nat.dvd_of_mod_eq_zero hpar
      simp [htwo]
    · obtain ⟨m, rfl⟩ : ∃ m, k = 2 * m + 1 := ⟨k / 2, by omega⟩
      rw [symbolClass_zero]
      push_cast
      rw [htwo]
      linear_combination (-symbolClass poly (lam.getD (2 * m + 1 + 1) 0)) * htwo
  · rw [List.getD_eq_default _ _ (by simpa using hk), List.getD_eq_default _ _ (by omega),
      symbolClass_zero, zero_mul]

theorem symbolClass_getD_errorEvaluator (htop : poly.getLsbD 8 = true) {syn : List Byte}
    {s : Nat → AdjoinRoot (bitPoly poly)}
    (hsyn : ∀ j < 32, symbolClass poly (syn.getD j 0) = s j) (lam : List Byte) {t : Nat}
    (ht : t < 32) :
    symbolClass poly ((errorEvaluator poly syn lam).getD t 0) =
      productCoeff (symbolPoly poly lam) s t := by
  rw [List.getD_eq_getElem _ _ (by simpa [errorEvaluator, Config.nroots] using ht)]
  simp only [errorEvaluator, List.getElem_map, List.getElem_range]
  rw [symbolClass_foldl_gfadd, symbolClass_zero, zero_add, productCoeff]
  refine (Finset.sum_congr rfl fun j hj => ?_).trans
    (Finset.sum_subset (Finset.range_mono (by omega)) fun j hj hj' => ?_)
  · rw [symbolClass_gfmul htop, hsyn _ (by omega), coeff_symbolPoly, mul_comm]
  · rw [Finset.mem_range] at hj hj'
    rw [coeff_symbolPoly, List.getD_eq_default _ _ (by omega), symbolClass_zero, zero_mul]

/-- For the locator polynomial, `Om` is the whole product with the syndromes. -/
theorem symbolPoly_errorEvaluator (htop : poly.getLsbD 8 = true) {syn lam : List Byte}
    {I : Finset Nat} {x y : Nat → AdjoinRoot (bitPoly poly)}
    (hsyn : ∀ j < 32, symbolClass poly (syn.getD j 0) = powerSum I x y j)
    (hlam : symbolPoly poly lam = locatorPoly I x) (hcard : I.card ≤ 16) :
    symbolPoly poly (errorEvaluator poly syn lam) =
      ∑ i ∈ I, C (y i) * locatorPoly (I.erase i) x := by
  have hdeg : (∑ i ∈ I, C (y i) * locatorPoly (I.erase i) x).natDegree ≤ 16 :=
    natDegree_sum_le_of_forall_le _ _ fun i _ => (natDegree_C_mul_le _ _).trans
      ((natDegree_locatorPoly_le _ _).trans ((Finset.card_erase_le).trans hcard))
  ext t
  rw [coeff_symbolPoly]
  by_cases ht : t < 32
  · rw [symbolClass_getD_errorEvaluator htop hsyn lam ht, hlam, productCoeff_locatorPoly]
  · rw [List.getD_eq_default _ _ (by simpa [errorEvaluator, Config.nroots] using ht),
      symbolClass_zero, coeff_eq_zero_of_natDegree_lt (by omega)]

theorem symbolClass_inverseLocator (hprim : gfprimitive poly = true) (i : Nat) :
    symbolClass poly (inverseLocator poly i) = (locator poly i)⁻¹ := by
  rw [inverseLocator, symbolClass_gfinv hprim (gfalphaPow_ne_zero hprim _),
    symbolClass_gfalphaPow hprim]
  rfl

/-! ### Few errors are found (43_fec R183 steps 2 and 3) -/

variable {r cw lam : List Byte}

theorem mem_chienPositions_iff (hprim : gfprimitive poly = true)
    (hlam : symbolPoly poly lam = locatorPoly (errorPositions r cw) (locator poly)) {i : Nat} :
    i ∈ chienPositions poly lam ↔ i ∈ errorPositions r cw := by
  have htop := getLsbD_eight_of_gfprimitive hprim
  rw [chienPositions, List.mem_filter, List.mem_range, decide_eq_true_eq,
    ← symbolClass_eq_zero_iff htop, symbolClass_polyEval htop, symbolClass_inverseLocator hprim,
    hlam, eval_inv_locatorPoly_eq_zero_iff (locator_ne_zero hprim i)]
  constructor
  · rintro ⟨hi, k, hk, hki⟩
    exact locator_injOn hprim (mem_errorPositions.1 hk).1 hi hki ▸ hk
  · exact fun hi => ⟨(mem_errorPositions.1 hi).1, i, hi, rfl⟩

theorem length_chienPositions (hprim : gfprimitive poly = true)
    (hlam : symbolPoly poly lam = locatorPoly (errorPositions r cw) (locator poly)) :
    (chienPositions poly lam).length = (errorPositions r cw).card := by
  rw [← List.toFinset_card_of_nodup (nodup_chienPositions poly lam)]
  refine congrArg Finset.card (Finset.ext fun i => ?_)
  rw [List.mem_toFinset, mem_chienPositions_iff hprim hlam]

variable (hprim : gfprimitive poly = true) (hr : r.length = 255) (hcw : IsCodeword poly cw)
  (hlam : symbolPoly poly lam = locatorPoly (errorPositions r cw) (locator poly))

include hprim hlam

theorem symbolClass_polyEval_derivative {i : Nat} (hi : i ∈ errorPositions r cw) :
    symbolClass poly (polyEval poly (derivative lam) (inverseLocator poly i)) =
      -locator poly i *
        (locatorPoly ((errorPositions r cw).erase i) (locator poly)).eval (locator poly i)⁻¹ := by
  rw [symbolClass_polyEval (getLsbD_eight_of_gfprimitive hprim), symbolClass_inverseLocator hprim,
    symbolPoly_derivative, hlam, (errorPattern hprim r cw).eval_derivative_locatorPoly hi]

theorem polyEval_derivative_ne_zero {i : Nat} (hi : i ∈ errorPositions r cw) :
    polyEval poly (derivative lam) (inverseLocator poly i) ≠ 0 := by
  rw [Ne, ← symbolClass_eq_zero_iff (getLsbD_eight_of_gfprimitive hprim),
    symbolClass_polyEval_derivative hprim hlam hi]
  exact mul_ne_zero (neg_ne_zero.2 (locator_ne_zero hprim i))
    ((errorPattern hprim r cw).eval_inv_erase_ne_zero hi)

include hr hcw

/-- Forney's value is the error. -/
theorem forneyValue_eq_error (hcard : (errorPositions r cw).card ≤ 16) {i : Nat}
    (hi : i ∈ errorPositions r cw) :
    forneyValue poly (errorEvaluator poly (syndrome poly r) lam) (derivative lam) i =
      gfadd (r.getD i 0) (cw.getD i 0) := by
  have htop := getLsbD_eight_of_gfprimitive hprim
  have hE := errorPattern hprim r cw
  have hsyn : ∀ j < 32, symbolClass poly ((syndrome poly r).getD j 0) = _ := fun j hj =>
    symbolClass_syndrome_eq_powerSum hprim hr hcw hj
  apply symbolClass_injective htop
  rw [forneyValue, symbolClass_gfmul htop,
    symbolClass_gfinv hprim (polyEval_derivative_ne_zero hprim hlam hi),
    symbolClass_polyEval_derivative hprim hlam hi, symbolClass_polyEval htop,
    symbolClass_inverseLocator hprim, symbolPoly_errorEvaluator htop hsyn hlam hcard,
    hE.eval_evaluator hi, errorWeight,
    evaluator_div_derivative (locator_ne_zero hprim i) (hE.eval_inv_erase_ne_zero hi)]
  exact neg_eq_of_add_eq_zero_left (symbolClass_add_self poly _)

end Field

/-- Completeness: a codeword within 16 errors is found. -/
theorem decodeCW_of_dist_le {poly : PrimPoly} (hprim : gfprimitive poly = true) {r cw : List Byte}
    (hr : r.length = 255) (hcw : IsCodeword poly cw) (hdist : dist r cw ≤ 16) :
    decodeCW poly r = .corrected cw (dist r cw) := by
  have : Fact (Irreducible (bitPoly poly)) := ⟨irreducible_bitPoly_of_gfprimitive hprim⟩
  have hcard := hdist
  rw [dist_eq_card_errorPositions hr hcw.1] at hcard
  have hE := errorPattern hprim r cw
  cases hzero : allZero (syndrome poly r) with
  | true =>
    obtain rfl := eq_of_syndrome_eq_zero hprim hr hcw ((allZero_iff _).1 hzero) (by omega)
    rw [decodeCW_of_allZero hzero, dist_eq_countP_range rfl]
    simp
  | false =>
    obtain ⟨hcp, hlen⟩ := bmRun_eq_locatorPoly hprim hE
      (fun j hj => symbolClass_syndrome_eq_powerSum hprim hr hcw hj) hcard
    have hdeg := hE.natDegree_locatorPoly
    have hlam : symbolPoly poly ((bmRun poly (syndrome poly r)).cp.take
        ((bmRun poly (syndrome poly r)).len + 1)) =
          locatorPoly (errorPositions r cw) (locator poly) := by
      rw [symbolPoly_take poly (by rw [hcp, hdeg, hlen]), hcp]
    rw [dist_eq_card_errorPositions hr hcw.1, ← hlen]
    refine decodeCW_of_forneyCorrect hzero rfl (by omega) ?last ?positions ?fix
      ((allZero_iff _).2 hcw.2)
    case last =>
      rw [Ne, ← symbolClass_eq_zero_iff (getLsbD_eight_of_gfprimitive hprim), ← coeff_symbolPoly,
        hcp, hlen, ← hdeg, coeff_natDegree, leadingCoeff_eq_zero]
      intro h
      simpa [h] using locatorPoly_coeff_zero (errorPositions r cw) (locator poly)
    case positions => rw [length_chienPositions hprim hlam, hlen]
    case fix =>
      refine forneyCorrect_eq_some (hr.trans hcw.1.symm)
        (fun i hi => (lt_of_mem_chienPositions hi).trans_eq hcw.1.symm)
        (nodup_chienPositions poly _) (fun i => ?_) (fun i hi => ?_) (fun i hi => ?_)
      · rw [mem_chienPositions_iff hprim hlam, mem_errorPositions, iff_and_self]
        intro hne
        by_contra hi
        rw [List.getD_eq_default _ _ (by omega),
          List.getD_eq_default _ _ (by have := hcw.1; simp only [Config.rsN] at this; omega)] at hne
        exact hne rfl
      · exact polyEval_derivative_ne_zero hprim hlam ((mem_chienPositions_iff hprim hlam).1 hi)
      · exact forneyValue_eq_error hprim hr hcw hlam hcard
          ((mem_chienPositions_iff hprim hlam).1 hi)

/-! ### The statement -/

/-- Settles O48: soundness for what the decoder returns, completeness for every codeword within 16;
the decoder answers one or the other. -/
theorem decodeIsBoundedDistanceDecoding : Obligations.DecodeIsBoundedDistanceDecoding := by
  intro poly hprim r hr
  refine ⟨fun cw e => ⟨isCodeword_of_decodeCW_corrected hr, ?_⟩, fun h cw hcw => ?_, fun h => ?_⟩
  · rintro ⟨hcw, rfl, he⟩
    exact decodeCW_of_dist_le hprim hr hcw he
  · by_contra hdist
    rw [decodeCW_of_dist_le hprim hr hcw (by omega)] at h
    cases h
  · cases hd : decodeCW poly r with
    | uncorrectable => rfl
    | corrected cw e =>
      obtain ⟨hcw, hdist, he⟩ := isCodeword_of_decodeCW_corrected hr hd
      have := h cw hcw
      omega

end Sys2Proof.Machine
end

section
/-! PROOFS. The commands of the FEC unit (43_fec R175, R176, R178, R184): each as one chain of its
checks, and what the loops over a source region give index by index. -/

namespace Sys2Proof.Machine

/-! ### A source region, index by index (43_fec R170, 20_memory R65) -/

@[simp] theorem State.length_sourceBytes (s : State) : s.sourceBytes.length = s.srcLen.toNat :=
  Memory.length_readBytes _ _ _

/-- What a splitter that drops `n` bytes per part returns, part by part. -/
theorem eq_map_range_of_split {α : Type} {n : Nat} {part : List Byte → α}
    {split : Nat → List Byte → List α} (hzero : ∀ bytes, split 0 bytes = [])
    (hsucc : ∀ k bytes, split (k + 1) bytes = part bytes :: split k (bytes.drop n)) (k : Nat)
    (bytes : List Byte) :
    split k bytes = (List.range k).map fun c => part (bytes.drop (n * c)) := by
  induction k generalizing bytes with
  | zero => rw [hzero, List.range_zero, List.map_nil]
  | succ k ih =>
    rw [hsucc, ih, List.range_succ_eq_map, List.map_cons, List.map_map, Nat.mul_zero,
      List.drop_zero]
    refine congrArg _ (List.map_congr_left fun c _ => ?_)
    rw [List.drop_drop, Function.comp_apply, Nat.mul_succ, Nat.add_comm]

theorem padChunk_drop (src : List Byte) (c : Nat) :
    padChunk (src.drop (223 * c)) = chunkAt src c := by
  refine List.ext_getElem (by simp [chunkAt]) fun i hi hi' => ?_
  have hi : i < 223 := by simpa [Config.rsK] using hi
  simp only [padChunk, chunkAt, List.getElem_map, List.getElem_range, List.getElem_append,
    List.getElem_take, List.getElem_drop, List.getElem_replicate, List.length_take,
    List.length_drop, Config.rsK]
  split_ifs with hin hlt
  · exact (List.getD_eq_getElem _ _ _).symm
  · omega
  · omega
  · rfl

theorem splitChunks_eq (k : Nat) (src : List Byte) :
    splitChunks k src = (List.range k).map (chunkAt src) :=
  (eq_map_range_of_split (fun _ => rfl) (fun _ _ => rfl) k src).trans
    (List.map_congr_left fun c _ => padChunk_drop src c)

theorem take_drop_eq_codewordAt {src : List Byte} {c : Nat} (h : 255 * (c + 1) ≤ src.length) :
    (src.drop (255 * c)).take 255 = codewordAt src c := by
  have hlen : (src.drop (255 * c)).length ≥ 255 := by rw [List.length_drop]; omega
  refine List.ext_getElem (by simp [codewordAt, Config.rsN]; omega) fun i hi hi' => ?_
  simp only [codewordAt, List.getElem_map, List.getElem_range, List.getElem_take,
    List.getElem_drop]
  exact (List.getD_eq_getElem _ _ _).symm

theorem splitCodewords_eq {k : Nat} {src : List Byte} (h : 255 * k ≤ src.length) :
    splitCodewords k src = (List.range k).map (codewordAt src) := by
  refine (eq_map_range_of_split (fun _ => rfl) (fun _ _ => rfl) k src).trans
    (List.map_congr_left fun c hc => take_drop_eq_codewordAt ?_)
  have := List.mem_range.1 hc
  omega

/-! ### The checks on source and destination (60_exceptions R226, R227, R232) -/

/-- The states in which a command with a source and a destination region ends, `t` that after its
region checks. -/
def State.afterPairChecks (s t : State) : State :=
  if ¬ InRange s s.source then s.raise .addrRange 0
  else if ¬ InRange s s.destination then s.raise .addrRange 1
  else if Overlapping s.source s.destination then s.raise .overlap 0
  else t

theorem State.afterPairChecks_eq (s t : State) :
    s.afterPairChecks t =
      (regionFault s.cfg.memSize [s.source, s.destination]).elim t fun f => s.raise f.1 f.2 := by
  rw [regionFault_pair, State.afterPairChecks]
  split_ifs <;> rfl

/-- How such a command ends, check by check; `P` says it of the end whose region checks pass. -/
theorem ends_of_afterPairChecks {s t u : State} {P : Prop} (ht : t = s.afterPairChecks u)
    (hpass : t = u → P) :
    if ¬ InRange s s.source then EndedFaulting s t 2 0
    else if ¬ InRange s s.destination then EndedFaulting s t 2 1
    else if Overlapping s.source s.destination then EndedFaulting s t 3 0
    else P := by
  subst ht
  rw [State.afterPairChecks] at hpass ⊢
  split_ifs at hpass ⊢ with hsrc hdst hover
  · exact s.endedFaulting_raise .overlap (by decide)
  · exact hpass rfl
  · exact s.endedFaulting_raise .addrRange (by decide)
  · exact s.endedFaulting_raise .addrRange (by decide)

/-! ### FSIZE (43_fec R175) -/

theorem exec_fsize (s : State) :
    exec .fsize s = .next
      (if 255 * chunksOf s.srcLen.toNat > 2 ^ 32 - 1 then s.raise .sizeOverflow 0
      else s.finish (255 * chunksOf s.srcLen.toNat) (chunksOf s.srcLen.toNat)) :=
  (apply_ite _ _ _ _).symm

/-- Settles O38, by FSIZE's one check. -/
theorem fsizeReportsTheCodedSize : Obligations.FsizeReportsTheCodedSize := by
  intro s
  refine ⟨_, exec_fsize s, ?_⟩
  split_ifs with hsize
  · exact s.endedFaulting_raise .sizeOverflow (by decide)
  · have hword : 255 * chunksOf s.srcLen.toNat ≤ Config.maxWord := Nat.le_of_not_gt hsize
    exact ⟨s.endedNormally_finish hword (by omega), rfl⟩

/-! ### FENC (43_fec R176) -/

/-- The splitter and the encoder give the stream of the statements. -/
theorem fecEncode_eq (poly : PrimPoly) (src : List Byte) :
    fecEncode poly src = encodedStream poly src := by
  rw [fecEncode, splitChunks_eq, List.map_map, encodedStream, List.flatMap_def]
  rfl

theorem length_encodedStream (s : State) :
    (encodedStream s.cfg.primPoly s.sourceBytes).length = 255 * chunksOf s.srcLen.toNat := by
  rw [← fecEncode_eq, length_fecEncode, s.length_sourceBytes]
  rfl

/-- FENC's checks, in their order. -/
theorem exec_fenc (s : State) :
    exec .fenc s = .next (s.afterPairChecks
      (if 255 * chunksOf s.srcLen.toNat > 2 ^ 32 - 1 then s.raise .sizeOverflow 0
      else if s.dstCap.toNat < 255 * chunksOf s.srcLen.toNat then
        s.raise .dstOverflow (255 * chunksOf s.srcLen.toNat)
      else (s.store s.dst (encodedStream s.cfg.primPoly s.sourceBytes)).finish
        (255 * chunksOf s.srcLen.toNat) (chunksOf s.srcLen.toNat))) := by
  rw [State.afterPairChecks_eq, ← fecEncode_eq, exec, execFenc]
  cases regionFault s.cfg.memSize [s.source, s.destination] with
  | some f => rfl
  | none =>
    exact ((apply_ite _ _ _ _).trans (congrArg (ite _ _) (apply_ite Host.Outcome.next _ _ _))).symm

/-- Settles O39, by FENC's checks: after those on its regions two more raise, and the last end
stores and finishes. -/
theorem fencStoresTheCodewords : Obligations.FencStoresTheCodewords := by
  intro s
  refine ⟨_, exec_fenc s, ends_of_afterPairChecks rfl fun hend => ?_⟩
  rw [hend]
  split_ifs with hsize hcap
  · exact s.endedFaulting_raise .sizeOverflow (by decide)
  · exact s.endedFaulting_raise .dstOverflow (Nat.le_of_not_gt hsize)
  · have hword : 255 * chunksOf s.srcLen.toNat ≤ Config.maxWord := Nat.le_of_not_gt hsize
    exact ⟨s.endedNormally_finish_store s.dst _ hword (by omega), s.stored_finish_store s.dst _ _ _,
      length_encodedStream s⟩

/-! ### FSYN (43_fec R178) -/

/-- Numbers of codewords are words. -/
theorem State.codewords_le (s : State) : 255 * (s.srcLen.toNat / 255) ≤ Config.maxWord := by
  have := s.srcLen.isLt
  simp only [Config.maxWord, Config.xlen]
  omega

theorem fsynAll_eq (s : State) :
    fsynAll s.cfg.primPoly (s.srcLen.toNat / 255) s.sourceBytes =
      (List.range (s.srcLen.toNat / 255)).map fun c =>
        syndrome s.cfg.primPoly (codewordAt s.sourceBytes c) := by
  rw [fsynAll, splitCodewords_eq (by rw [s.length_sourceBytes]; omega), List.map_map]
  rfl

theorem fsynAll_flatten (s : State) :
    (fsynAll s.cfg.primPoly (s.srcLen.toNat / 255) s.sourceBytes).flatten =
      syndromeStream s.cfg.primPoly (s.srcLen.toNat / 255) s.sourceBytes := by
  rw [fsynAll_eq, syndromeStream, List.flatMap_def]

theorem countP_fsynAll (s : State) :
    (fsynAll s.cfg.primPoly (s.srcLen.toNat / 255) s.sourceBytes).countP (fun b => !allZero b) =
      dirtyCount s.cfg.primPoly (s.srcLen.toNat / 255) s.sourceBytes := by
  rw [fsynAll_eq, List.countP_map, dirtyCount]
  rfl

theorem dirtyCount_le (poly : PrimPoly) (k : Nat) (src : List Byte) :
    dirtyCount poly k src ≤ k :=
  List.countP_le_length.trans_eq List.length_range

/-- FSYN's checks, in their order. -/
theorem exec_fsyn (s : State) :
    exec .fsyn s = .next
      (if s.srcLen.toNat % 255 ≠ 0 then s.raise .badLength (s.srcLen.toNat % 255)
      else s.afterPairChecks
        (if s.dstCap.toNat < 32 * (s.srcLen.toNat / 255) then
          s.raise .dstOverflow (32 * (s.srcLen.toNat / 255))
        else (s.store s.dst
          (syndromeStream s.cfg.primPoly (s.srcLen.toNat / 255) s.sourceBytes)).finish
          (32 * (s.srcLen.toNat / 255))
          (dirtyCount s.cfg.primPoly (s.srcLen.toNat / 255) s.sourceBytes))) := by
  rw [State.afterPairChecks_eq, ← fsynAll_flatten, ← countP_fsynAll, exec, execFsyn,
    apply_ite Host.Outcome.next]
  refine congrArg (ite _ _) ?_
  cases regionFault s.cfg.memSize [s.source, s.destination] with
  | some f => rfl
  | none => exact (apply_ite Host.Outcome.next _ _ _).symm

/-- A remainder modulo 255 is a word. -/
theorem mod_le_maxWord (n : Nat) : n % 255 ≤ Config.maxWord :=
  (Nat.mod_lt n (by decide)).le.trans (by decide)

/-- Settles O40, by FSYN's checks: that of the length, those of its regions and that of the capacity
raise, and the last end stores and finishes. -/
theorem fsynStoresTheSyndromes : Obligations.FsynStoresTheSyndromes := by
  intro s
  have hword := s.codewords_le
  have hdirty := dirtyCount_le s.cfg.primPoly (s.srcLen.toNat / 255) s.sourceBytes
  refine ⟨_, exec_fsyn s, ?_⟩
  by_cases hmod : s.srcLen.toNat % 255 ≠ 0
  · rw [if_pos hmod, if_pos hmod]
    exact s.endedFaulting_raise .badLength (mod_le_maxWord _)
  · rw [if_neg hmod, if_neg hmod]
    refine ends_of_afterPairChecks rfl fun hend => ?_
    rw [hend]
    split_ifs with hcap
    · exact s.endedFaulting_raise .dstOverflow (by omega)
    · exact ⟨s.endedNormally_finish_store s.dst _ (by omega) (by omega),
        s.stored_finish_store s.dst _ _ _,
        (congrArg List.length (fsynAll_flatten s)).symm.trans (length_fsynAll _ _ _)⟩

end Sys2Proof.Machine
end

section
/-! PROOFS. FDEC (43_fec R184, R185): its loop over the codewords, its two stores, its two ends. -/

namespace Sys2Proof.Machine

/-! ### The loop (43_fec R184) -/

/-- One codeword, in the terms of the statements. -/
theorem fdecStep_eq (poly : PrimPoly) (run : FdecRun) (c : Nat) (r : List Byte) :
    fdecStep poly run c r =
      { out := run.out ++ decodedMessage poly r, report := run.report ++ [reportByte poly r],
        total := run.total + correctedSymbols poly r,
        firstBad := run.firstBad.or
          (if decodeCW poly r = .uncorrectable then some c else none) } := by
  rw [fdecStep, decodedMessage, reportByte, correctedSymbols]
  cases decodeCW poly r with
  | corrected cw e => simp
  | uncorrectable => cases hbad : run.firstBad <;> simp

/-- The codewords from index `c` on. -/
theorem fdecLoop_eq (poly : PrimPoly) (f : Nat → List Byte) (run : FdecRun) (c k : Nat) :
    fdecLoop poly run c ((List.range' c k).map f) =
      { out := run.out ++ (List.range' c k).flatMap fun i => decodedMessage poly (f i),
        report := run.report ++ (List.range' c k).map fun i => reportByte poly (f i),
        total := run.total + ((List.range' c k).map fun i => correctedSymbols poly (f i)).sum,
        firstBad := run.firstBad.or ((List.range' c k).find? fun i =>
          decide (decodeCW poly (f i) = .uncorrectable)) } := by
  induction k generalizing run c with
  | zero => simp [fdecLoop]
  | succ k ih =>
    rw [List.range'_succ, List.map_cons, fdecLoop, ih, fdecStep_eq]
    simp only [List.flatMap_cons, List.map_cons, List.sum_cons, List.find?_cons,
      List.append_assoc, List.singleton_append, Nat.add_assoc, Option.or_assoc]
    split_ifs with hbad
    · simp [hbad]
    · simp [hbad]

/-- FDEC's run over the source region. -/
def State.fdecRun (s : State) : FdecRun :=
  fdecAll s.cfg.primPoly (s.srcLen.toNat / 255) s.sourceBytes

theorem State.fdecRun_eq (s : State) :
    s.fdecRun =
      { out := (List.range (s.srcLen.toNat / 255)).flatMap fun c =>
          decodedMessage s.cfg.primPoly (codewordAt s.sourceBytes c),
        report := (List.range (s.srcLen.toNat / 255)).map fun c =>
          reportByte s.cfg.primPoly (codewordAt s.sourceBytes c),
        total := ((List.range (s.srcLen.toNat / 255)).map fun c =>
          correctedSymbols s.cfg.primPoly (codewordAt s.sourceBytes c)).sum,
        firstBad := firstUncorrectable s.cfg.primPoly (s.srcLen.toNat / 255) s.sourceBytes } := by
  rw [State.fdecRun, fdecAll, splitCodewords_eq (by rw [s.length_sourceBytes]; omega),
    firstUncorrectable, List.range_eq_range', fdecLoop_eq]
  simp

theorem State.fdecRun_lengths (s : State) :
    s.fdecRun.out.length = 223 * (s.srcLen.toNat / 255) ∧
    s.fdecRun.report.length = s.srcLen.toNat / 255 ∧
    s.fdecRun.total ≤ 16 * (s.srcLen.toNat / 255) :=
  fdecAll_lengths _ _ _ (by rw [s.length_sourceBytes, Config.rsN]; omega)

theorem State.lt_of_fdecRun_firstBad {s : State} {c : Nat} (h : s.fdecRun.firstBad = some c) :
    c < s.srcLen.toNat / 255 := by
  rw [State.fdecRun_eq] at h
  exact List.mem_range.1 (List.mem_of_find?_eq_some h)

/-! ### The two stores (43_fec R184) -/

/-- The two `MemWrite`s of FDEC. -/
def State.storeTwice (s : State) (base1 : Word) (out1 : List Byte) (base2 : Word)
    (out2 : List Byte) : State :=
  (s.store base1 out1).store base2 out2

/-- Two stores that name no byte twice. -/
theorem State.read_storeTwice {s t : State} {base1 base2 : Word} {out1 out2 : List Byte}
    (ht : t.mem = (s.storeTwice base1 out1 base2 out2).mem)
    (hdisjoint : out1.length = 0 ∨ out2.length = 0 ∨
      base1.toNat + out1.length ≤ base2.toNat ∨ base2.toNat + out2.length ≤ base1.toNat) :
    StoredTwice s t base1.toNat out1 base2.toNat out2 := by
  rw [StoredTwice, ht]
  refine ⟨fun i hi => ?_, fun i hi => Memory.read_writeBytes_inside _ _ _ i hi,
    fun a ha1 ha2 => ?_⟩
  · exact (Memory.read_writeBytes_outside _ _ _ _ (by omega)).trans
      (Memory.read_writeBytes_inside _ _ _ i hi)
  · exact (Memory.read_writeBytes_outside _ _ _ _ ha2).trans
      (Memory.read_writeBytes_outside _ _ _ _ ha1)

/-- Parts of two regions that do not overlap name no byte twice. -/
theorem disjoint_of_not_overlapping {r1 r2 : Region} {n1 n2 : Nat} (h : ¬ Overlapping r1 r2)
    (h1 : n1 ≤ r1.len.toNat) (h2 : n2 ≤ r2.len.toNat) :
    n1 = 0 ∨ n2 = 0 ∨ r1.base.toNat + n1 ≤ r2.base.toNat ∨
      r2.base.toNat + n2 ≤ r1.base.toNat := by
  simp only [Overlapping] at h
  omega

/-! ### The command (43_fec R184) -/

/-- The states in which a command with all three regions ends, `t` that after its region checks. -/
def State.afterTripleChecks (s t : State) : State :=
  if ¬ InRange s s.source then s.raise .addrRange 0
  else if ¬ InRange s s.destination then s.raise .addrRange 1
  else if ¬ InRange s s.report then s.raise .addrRange 2
  else if Overlapping s.source s.destination ∨ Overlapping s.source s.report ∨
      Overlapping s.destination s.report then s.raise .overlap 0
  else t

theorem State.afterTripleChecks_eq (s t : State) :
    s.afterTripleChecks t =
      (regionFault s.cfg.memSize [s.source, s.destination, s.report]).elim t
        fun f => s.raise f.1 f.2 := by
  rw [regionFault_triple, State.afterTripleChecks]
  split_ifs <;> rfl

/-- How such a command ends, check by check; `P` says it of the end whose region checks pass. -/
theorem ends_of_afterTripleChecks {s t u : State} {P : Prop} (ht : t = s.afterTripleChecks u)
    (hpass : ¬ Overlapping s.destination s.report → t = u → P) :
    if ¬ InRange s s.source then EndedFaulting s t 2 0
    else if ¬ InRange s s.destination then EndedFaulting s t 2 1
    else if ¬ InRange s s.report then EndedFaulting s t 2 2
    else if Overlapping s.source s.destination ∨ Overlapping s.source s.report ∨
        Overlapping s.destination s.report then EndedFaulting s t 3 0
    else P := by
  subst ht
  rw [State.afterTripleChecks] at hpass ⊢
  split_ifs at hpass ⊢ with hsrc hdst haux hover
  · exact s.endedFaulting_raise .overlap (by decide)
  · exact hpass (fun h => hover (.inr (.inr h))) rfl
  · exact s.endedFaulting_raise .addrRange (by decide)
  · exact s.endedFaulting_raise .addrRange (by decide)
  · exact s.endedFaulting_raise .addrRange (by decide)

/-- The end of FDEC whose checks all pass. -/
def State.fdecEnd (s : State) : State :=
  let stored := s.storeTwice s.dst s.fdecRun.out s.aux s.fdecRun.report
  match s.fdecRun.firstBad with
  | none => stored.finish (223 * (s.srcLen.toNat / 255)) s.fdecRun.total
  | some c =>
    stored.raiseKeeping .uncorrectableChunk c (223 * (s.srcLen.toNat / 255)) s.fdecRun.total

theorem State.fdecEnd_of_none {s : State} (h : s.fdecRun.firstBad = none) :
    s.fdecEnd = (s.storeTwice s.dst s.fdecRun.out s.aux s.fdecRun.report).finish
      (223 * (s.srcLen.toNat / 255)) s.fdecRun.total := by
  rw [State.fdecEnd, h]

theorem State.fdecEnd_of_some {s : State} {c : Nat} (h : s.fdecRun.firstBad = some c) :
    s.fdecEnd = (s.storeTwice s.dst s.fdecRun.out s.aux s.fdecRun.report).raiseKeeping
      .uncorrectableChunk c (223 * (s.srcLen.toNat / 255)) s.fdecRun.total := by
  rw [State.fdecEnd, h]

theorem State.fdecEnd_mem (s : State) :
    s.fdecEnd.mem = (s.storeTwice s.dst s.fdecRun.out s.aux s.fdecRun.report).mem := by
  cases h : s.fdecRun.firstBad with
  | none => rw [State.fdecEnd_of_none h, State.finish_mem]
  | some c => rw [State.fdecEnd_of_some h, State.raiseKeeping_mem]

/-- FDEC's checks, in their order. -/
theorem exec_fdec (s : State) :
    exec .fdec s = .next
      (if s.srcLen.toNat % 255 ≠ 0 then s.raise .badLength (s.srcLen.toNat % 255)
      else s.afterTripleChecks
        (if s.dstCap.toNat < 223 * (s.srcLen.toNat / 255) then
          s.raise .dstOverflow (223 * (s.srcLen.toNat / 255))
        else if s.auxCap.toNat < s.srcLen.toNat / 255 then
          s.raise .auxOverflow (s.srcLen.toNat / 255)
        else s.fdecEnd)) := by
  rw [State.afterTripleChecks_eq, exec, execFdec, apply_ite Host.Outcome.next]
  refine congrArg (ite _ _) ?_
  cases regionFault s.cfg.memSize [s.source, s.destination, s.report] with
  | some f => rfl
  | none =>
    rw [Option.elim_none, apply_ite Host.Outcome.next, apply_ite Host.Outcome.next]
    refine congrArg (ite _ _) (congrArg (ite _ _) ?_)
    dsimp only
    split
    next hnone => rw [State.fdecEnd_of_none hnone]; rfl
    next c hsome => rw [State.fdecEnd_of_some hsome]; rfl

theorem State.endedNormally_fdecEnd {s : State} (h : s.fdecRun.firstBad = none) :
    EndedNormally s s.fdecEnd (223 * (s.srcLen.toNat / 255)) s.fdecRun.total := by
  have hword := s.codewords_le
  obtain ⟨-, -, htotal⟩ := s.fdecRun_lengths
  rw [State.fdecEnd_of_none h]
  obtain ⟨hstatus, hlen, haux, hinfo, hrest⟩ :=
    (s.store s.dst s.fdecRun.out).endedNormally_finish_store s.aux s.fdecRun.report
      (len := 223 * (s.srcLen.toNat / 255)) (aux := s.fdecRun.total) (by omega) (by omega)
  exact ⟨hstatus, hlen, haux, hinfo, by constructor <;> rfl⟩

theorem State.endedUncorrectable_fdecEnd {s : State} {c : Nat} (h : s.fdecRun.firstBad = some c) :
    EndedUncorrectable s s.fdecEnd c (223 * (s.srcLen.toNat / 255)) s.fdecRun.total := by
  have hword := s.codewords_le
  have hc := State.lt_of_fdecRun_firstBad h
  obtain ⟨-, -, htotal⟩ := s.fdecRun_lengths
  rw [State.fdecEnd_of_some h]
  exact ⟨rfl, toWord_toNat (by omega), toWord_toNat (by omega), toWord_toNat (by omega),
    by constructor <;> rfl⟩

/-- FDEC whose checks all pass makes both stores, and the run's first uncorrectable codeword tells
its two ends apart. -/
theorem State.fdecEnd_ends (s : State) (hover : ¬ Overlapping s.destination s.report)
    (hcap : 223 * (s.srcLen.toNat / 255) ≤ s.dstCap.toNat)
    (hauxcap : s.srcLen.toNat / 255 ≤ s.auxCap.toNat) :
    StoredTwice s s.fdecEnd s.dst.toNat s.fdecRun.out s.aux.toNat s.fdecRun.report ∧
    (s.fdecRun.firstBad = none →
      EndedNormally s s.fdecEnd (223 * (s.srcLen.toNat / 255)) s.fdecRun.total) ∧
    ∀ c, s.fdecRun.firstBad = some c →
      EndedUncorrectable s s.fdecEnd c (223 * (s.srcLen.toNat / 255)) s.fdecRun.total := by
  obtain ⟨hout, hreport, -⟩ := s.fdecRun_lengths
  exact ⟨State.read_storeTwice s.fdecEnd_mem
      (disjoint_of_not_overlapping hover (hout.trans_le hcap) (hreport.trans_le hauxcap)),
    State.endedNormally_fdecEnd, fun c => State.endedUncorrectable_fdecEnd⟩

/-- Settles O41, by FDEC's checks: that of the length, those of its regions and those of the two
capacities raise; the last end is `State.fdecEnd`. -/
theorem fdecStoresMessagesAndReport : Obligations.FdecStoresMessagesAndReport := by
  intro s
  have hword := s.codewords_le
  refine ⟨_, exec_fdec s, ?_⟩
  by_cases hmod : s.srcLen.toNat % 255 ≠ 0
  · rw [if_pos hmod, if_pos hmod]
    exact s.endedFaulting_raise .badLength (mod_le_maxWord _)
  · rw [if_neg hmod, if_neg hmod]
    refine ends_of_afterTripleChecks rfl fun hover hend => ?_
    rw [hend]
    by_cases hcap : s.dstCap.toNat < 223 * (s.srcLen.toNat / 255)
    · rw [if_pos hcap, if_pos hcap]
      exact s.endedFaulting_raise .dstOverflow (by omega)
    rw [if_neg hcap, if_neg hcap]
    by_cases hauxcap : s.auxCap.toNat < s.srcLen.toNat / 255
    · rw [if_pos hauxcap, if_pos hauxcap]
      exact s.endedFaulting_raise .auxOverflow (by omega)
    rw [if_neg hauxcap, if_neg hauxcap]
    have hends := s.fdecEnd_ends hover (Nat.le_of_not_lt hcap) (Nat.le_of_not_lt hauxcap)
    rw [s.fdecRun_eq] at hends
    obtain ⟨hstored, hnormal, huncorrectable⟩ := hends
    refine ⟨hstored, ?_⟩
    split
    next hnone => exact hnormal hnone
    next c hsome => exact huncorrectable c hsome

/-! ### Report bytes (43_fec R185) -/

/-- Settles O42, by the decoder's two results; a count of at most 16 fits the byte. -/
theorem reportBytesAreCountsOrTheMark : Obligations.ReportBytesAreCountsOrTheMark := by
  refine fun poly r => ⟨fun cw e h => ?_, fun h => ?_⟩
  · obtain ⟨-, he⟩ := decodeCW_corrected_length h
    have he : e ≤ 16 := he
    rw [reportByte, h, BitVec.toNat_ofNat]
    exact ⟨he, Nat.mod_eq_of_lt (by omega)⟩
  · rw [reportByte, h]
    rfl

end Sys2Proof.Machine
end

section
/-! PROOFS. The byte-escape codec (44_escape R200 to R204): `Escape` byte by byte, the scan of
`Unescape` block by block, and the statements about the two. -/

namespace Sys2Proof.Machine

/-! ### Reserved bytes (44_escape R200, R201) -/

theorem reserved_iff {b : Byte} : reserved b = true ↔ b = 0xAB ∨ b = 0x54 := by
  rw [reserved, Bool.or_eq_true, decide_eq_true_iff, decide_eq_true_iff]
  rfl

theorem not_reserved_iff {b : Byte} : ¬ reserved b = true ↔ b ≠ 0xAB ∧ b ≠ 0x54 :=
  reserved_iff.not.trans not_or

theorem escCount_eq_countP (bytes : List Byte) :
    escCount bytes = bytes.countP fun b => decide (b = 0xAB ∨ b = 0x54) :=
  List.countP_congr fun _ _ => reserved_iff.trans decide_eq_true_iff.symm

theorem escCount_le_length (bytes : List Byte) : escCount bytes ≤ bytes.length :=
  List.countP_le_length

/-! ### The blocks of an escaped stream (44_escape R202, R203) -/

/-- A block that the scan of `Unescape` reads whole, the byte it gives and the sequences it
counts. -/
inductive ScanBlock : List Byte → Byte → Nat → Prop where
  | sync : ScanBlock [Config.escape, Config.escapeSync] Config.sync 1
  | escape : ScanBlock [Config.escape, Config.escape] Config.escape 1
  | ordinary {b : Byte} (hb : b ≠ Config.escape) : ScanBlock [b] b 0

theorem ScanBlock.length {blk : List Byte} {b : Byte} {k : Nat} (h : ScanBlock blk b k) :
    blk.length = 1 + k := by
  cases h <;> rfl

theorem escapeByte_of_ne {b : Byte} (hsync : b ≠ 0xAB) (hescape : b ≠ 0x54) :
    escapeByte b = [b] :=
  (if_neg hsync).trans (if_neg hescape)

/-- `Escape` makes blocks that give back its bytes. -/
theorem scanBlock_escapeByte (b : Byte) :
    ScanBlock (escapeByte b) b (if reserved b then 1 else 0) := by
  by_cases h : reserved b = true
  · obtain rfl | rfl := reserved_iff.1 h
    · exact .sync
    · exact .escape
  · obtain ⟨hsync, hescape⟩ := not_reserved_iff.1 h
    rw [escapeByte_of_ne hsync hescape, if_neg h]
    exact .ordinary hescape

/-- A block of R204 (b) and (c): one of the two sequences, or one byte that is not reserved. -/
def EscapeBlock (blk : List Byte) : Prop :=
  blk = [0x54, 0x9F] ∨ blk = [0x54, 0x54] ∨ ∃ b : Byte, b ≠ 0xAB ∧ b ≠ 0x54 ∧ blk = [b]

/-- These blocks are what `Escape` makes of single bytes. -/
theorem escapeBlock_iff {blk : List Byte} : EscapeBlock blk ↔ ∃ b, escapeByte b = blk := by
  constructor
  · rintro (rfl | rfl | ⟨b, hsync, hescape, rfl⟩)
    · exact ⟨Config.sync, rfl⟩
    · exact ⟨Config.escape, rfl⟩
    · exact ⟨b, escapeByte_of_ne hsync hescape⟩
  · rintro ⟨b, rfl⟩
    by_cases h : reserved b = true
    · obtain rfl | rfl := reserved_iff.1 h
      · exact .inl rfl
      · exact .inr (.inl rfl)
    · obtain ⟨hsync, hescape⟩ := not_reserved_iff.1 h
      exact .inr (.inr ⟨b, hsync, hescape, escapeByte_of_ne hsync hescape⟩)

/-- No block holds a SYNC. -/
theorem EscapeBlock.sync_notMem {blk : List Byte} (h : EscapeBlock blk) : (0xAB : Byte) ∉ blk := by
  obtain rfl | rfl | ⟨b, hsync, -, rfl⟩ := h
  · decide
  · decide
  · exact fun hmem => hsync (List.mem_singleton.1 hmem).symm

/-! ### `Escape` (44_escape R202) -/

theorem escapeBytes_cons (b : Byte) (bytes : List Byte) :
    escapeBytes (b :: bytes) = escapeByte b ++ escapeBytes bytes :=
  List.flatMap_cons

theorem escapeBytes_append (a b : List Byte) :
    escapeBytes (a ++ b) = escapeBytes a ++ escapeBytes b :=
  List.flatMap_append

theorem escapeBytes_eq_flatten (bytes : List Byte) :
    escapeBytes bytes = (bytes.map escapeByte).flatten :=
  List.flatMap_def

theorem escCount_cons (b : Byte) (bytes : List Byte) :
    escCount (b :: bytes) = escCount bytes + if reserved b then 1 else 0 :=
  List.countP_cons

theorem length_escapeBytes (bytes : List Byte) :
    (escapeBytes bytes).length = bytes.length + escCount bytes := by
  induction bytes with
  | nil => rfl
  | cons b bytes ih =>
    rw [escapeBytes_cons, List.length_append, (scanBlock_escapeByte b).length, ih,
      List.length_cons, escCount_cons]
    omega

theorem escapeBytes_singleton (b : Byte) : escapeBytes [b] = escapeByte b :=
  List.flatMap_singleton _ _

/-- Settles O55, by what `Escape` makes of one byte. -/
theorem escapeReplacesReservedBytes : Obligations.EscapeReplacesReservedBytes := by
  refine ⟨length_escapeBytes, rfl, rfl, fun b hsync hescape => ?_, escapeBytes_append,
    fun bytes => ?_, escCount_le_length⟩
  · rw [escapeBytes_singleton, escapeByte_of_ne hsync hescape]
  · rw [escCount_eq_countP, List.countP_eq_length_filter]

/-! ### The scan of `Unescape` (44_escape R203) -/

/-- What may not follow an ESCAPE: the end of the source, or a byte that is neither ESCAPE_SYNC nor
ESCAPE. -/
def BadFollower (rest : List Byte) : Prop :=
  rest.head? ≠ some Config.escapeSync ∧ rest.head? ≠ some Config.escape

/-- What the scan meets: the end of the source, a bad ESCAPE, or a block before the rest. -/
inductive Scan : List Byte → Prop where
  | nil : Scan []
  | bad {rest : List Byte} (hbad : BadFollower rest) : Scan (Config.escape :: rest)
  | block {blk rest : List Byte} {b : Byte} {k : Nat} (hblk : ScanBlock blk b k)
      (hrest : Scan rest) : Scan (blk ++ rest)

/-- Every source is met in one of these ways. -/
theorem Scan.of_bytes : (bytes : List Byte) → Scan bytes
  | [] => .nil
  | [b] => by
    by_cases hb : b = Config.escape
    · exact hb ▸ .bad ⟨nofun, nofun⟩
    · exact .block (.ordinary hb) .nil
  | b :: b' :: rest => by
    by_cases hb : b = Config.escape
    · by_cases hsync : b' = Config.escapeSync
      · exact hb ▸ hsync ▸ .block .sync (Scan.of_bytes rest)
      by_cases hescape : b' = Config.escape
      · exact hb ▸ hescape ▸ .block .escape (Scan.of_bytes rest)
      · exact hb ▸ .bad ⟨fun h => hsync (Option.some.inj h), fun h => hescape (Option.some.inj h)⟩
    · exact .block (.ordinary hb) (Scan.of_bytes (b' :: rest))

theorem unescapeFrom_bad (i : Nat) {rest : List Byte} (h : BadFollower rest) :
    unescapeFrom i (Config.escape :: rest) = .malformed i := by
  obtain ⟨hsync, hescape⟩ := h
  cases rest with
  | nil => exact if_pos rfl
  | cons b' rest =>
    rw [unescapeFrom, if_pos rfl, if_neg fun h => hsync (congrArg some h),
      if_neg fun h => hescape (congrArg some h)]

theorem unescapeFrom_block (i : Nat) {blk : List Byte} {b : Byte} {k : Nat}
    (h : ScanBlock blk b k) (rest : List Byte) :
    unescapeFrom i (blk ++ rest) = (unescapeFrom (i + blk.length) rest).prepend b k := by
  cases h with
  | sync => exact (if_pos rfl).trans (if_pos rfl)
  | escape => exact (if_pos rfl).trans ((if_neg (by decide)).trans (if_pos rfl))
  | ordinary hb => cases rest <;> exact if_neg hb

theorem UnescapeResult.prepend_eq_ok {r : UnescapeResult} {b : Byte} {k seqs : Nat}
    {out : List Byte} : r.prepend b k = .ok out seqs ↔
      ∃ out' seqs', r = .ok out' seqs' ∧ b :: out' = out ∧ seqs' + k = seqs := by
  cases r <;> simp [UnescapeResult.prepend]

theorem UnescapeResult.prepend_eq_malformed {r : UnescapeResult} {b : Byte} {k i : Nat} :
    r.prepend b k = .malformed i ↔ r = .malformed i := by
  cases r <;> simp [UnescapeResult.prepend]

/-- The result with the bytes `out` in front and `seqs` more sequences counted. -/
def UnescapeResult.after (out : List Byte) (seqs : Nat) : UnescapeResult → UnescapeResult
  | .ok out' seqs' => .ok (out ++ out') (seqs + seqs')
  | .malformed i => .malformed i

theorem UnescapeResult.after_nil (r : UnescapeResult) : r.after [] 0 = r := by
  cases r <;> simp [UnescapeResult.after]

theorem UnescapeResult.prepend_after (r : UnescapeResult) (b : Byte) (k : Nat) (out : List Byte)
    (seqs : Nat) : (r.after out seqs).prepend b k = r.after (b :: out) (seqs + k) := by
  cases r <;> simp [UnescapeResult.after, UnescapeResult.prepend, Nat.add_right_comm]

/-- The scan goes on after a part that unescapes as if it started there. -/
theorem unescapeFrom_append {i seqs : Nat} {bytes out : List Byte}
    (h : unescapeFrom i bytes = .ok out seqs) (more : List Byte) :
    unescapeFrom i (bytes ++ more) = (unescapeFrom (i + bytes.length) more).after out seqs := by
  induction Scan.of_bytes bytes generalizing i out seqs with
  | nil =>
    obtain ⟨rfl, rfl⟩ := UnescapeResult.ok.inj h
    exact (UnescapeResult.after_nil _).symm
  | bad hbad =>
    rw [unescapeFrom_bad i hbad] at h
    cases h
  | @block blk rest b k hblk _ ih =>
    rw [unescapeFrom_block i hblk] at h
    obtain ⟨out, seqs, hrest, rfl, rfl⟩ := UnescapeResult.prepend_eq_ok.1 h
    rw [List.append_assoc, unescapeFrom_block i hblk, ih hrest, UnescapeResult.prepend_after,
      List.length_append, Nat.add_assoc]

/-- Each sequence is two bytes that give one. -/
theorem length_of_unescapeFrom_ok {i seqs : Nat} {bytes out : List Byte}
    (h : unescapeFrom i bytes = .ok out seqs) : out.length + seqs = bytes.length := by
  induction Scan.of_bytes bytes generalizing i out seqs with
  | nil =>
    obtain ⟨rfl, rfl⟩ := UnescapeResult.ok.inj h
    rfl
  | bad hbad =>
    rw [unescapeFrom_bad i hbad] at h
    cases h
  | block hblk _ ih =>
    rw [unescapeFrom_block i hblk] at h
    obtain ⟨out, seqs, hrest, rfl, rfl⟩ := UnescapeResult.prepend_eq_ok.1 h
    have hlen := ih hrest
    rw [List.length_append, hblk.length, List.length_cons]
    omega

/-- A malformed scan unescapes some bytes and meets a bad ESCAPE after them. -/
theorem unescapeFrom_eq_malformed_iff {i j : Nat} {bytes : List Byte} :
    unescapeFrom i bytes = .malformed j ↔
      ∃ pre rest out seqs, bytes = pre ++ Config.escape :: rest ∧ j = i + pre.length ∧
        unescapeFrom i pre = .ok out seqs ∧ BadFollower rest := by
  constructor
  · intro h
    induction Scan.of_bytes bytes generalizing i with
    | nil => cases h
    | @bad rest hbad =>
      rw [unescapeFrom_bad i hbad] at h
      exact ⟨[], rest, [], 0, rfl, (UnescapeResult.malformed.inj h).symm, rfl, hbad⟩
    | @block blk _ b k hblk _ ih =>
      rw [unescapeFrom_block i hblk, UnescapeResult.prepend_eq_malformed] at h
      obtain ⟨pre, rest, out, seqs, rfl, rfl, hpre, hbad⟩ := ih h
      refine ⟨blk ++ pre, rest, b :: out, seqs + k, (List.append_assoc _ _ _).symm, ?_, ?_, hbad⟩
      · rw [List.length_append, Nat.add_assoc]
      · rw [unescapeFrom_block i hblk, hpre]
        rfl
  · rintro ⟨pre, rest, out, seqs, rfl, rfl, hpre, hbad⟩
    rw [unescapeFrom_append hpre, unescapeFrom_bad _ hbad]
    rfl

/-! ### `Unescape` of a whole source (44_escape R203) -/

theorem lt_of_unescapeBytes_malformed {bytes : List Byte} {i : Nat}
    (h : unescapeBytes bytes = .malformed i) : i < bytes.length := by
  obtain ⟨pre, rest, -, -, rfl, rfl, -, -⟩ := unescapeFrom_eq_malformed_iff.1 h
  simp

/-- One block more after a part that unescapes. -/
theorem unescapeBytes_append_block {bytes out blk : List Byte} {seqs k : Nat} {b : Byte}
    (h : unescapeBytes bytes = .ok out seqs) (hblk : ScanBlock blk b k) :
    unescapeBytes (bytes ++ blk) = .ok (out ++ [b]) (seqs + k) := by
  rw [unescapeBytes, unescapeFrom_append h, ← List.append_nil blk, unescapeFrom_block _ hblk,
    unescapeFrom, UnescapeResult.prepend, UnescapeResult.after, Nat.zero_add]

/-- The parts of a source around an ESCAPE, by its index. -/
theorem eq_append_escape_iff {bytes pre rest : List Byte} :
    bytes = pre ++ Config.escape :: rest ↔
      pre.length < bytes.length ∧ bytes.getD pre.length 0 = 0x54 ∧
        pre = bytes.take pre.length ∧ rest = bytes.drop (pre.length + 1) := by
  constructor
  · rintro rfl
    simp [Config.escape]
  · rintro ⟨hlt, hget, hpre, hrest⟩
    rw [List.getD_eq_getElem _ _ hlt] at hget
    calc bytes
        = bytes.take pre.length ++ bytes.drop pre.length := (List.take_append_drop _ _).symm
      _ = pre ++ Config.escape :: rest := by
        rw [← hpre, List.drop_eq_getElem_cons hlt, hget, ← hrest]
        rfl

/-- A bad follower, by the index of its ESCAPE. -/
theorem badFollower_drop_iff {bytes : List Byte} {i : Nat} (hi : i < bytes.length) :
    BadFollower (bytes.drop (i + 1)) ↔
      i + 1 = bytes.length ∨ bytes.getD (i + 1) 0 ≠ 0x9F ∧ bytes.getD (i + 1) 0 ≠ 0x54 := by
  rw [BadFollower, List.head?_drop]
  obtain hend | hlt := (Nat.succ_le_of_lt hi).eq_or_lt
  · rw [List.getElem?_eq_none hend.ge]
    exact ⟨fun _ => .inl hend, fun _ => ⟨nofun, nofun⟩⟩
  · rw [List.getD_eq_getElem _ _ hlt, List.getElem?_eq_getElem hlt, or_iff_right hlt.ne,
      Ne, Ne, Option.some_inj, Option.some_inj]
    rfl

/-- `Unescape` is malformed at the index of a bad ESCAPE that its scan reaches. -/
theorem unescapeBytes_eq_malformed_iff {bytes : List Byte} {i : Nat} :
    unescapeBytes bytes = .malformed i ↔
      i < bytes.length ∧ bytes.getD i 0 = 0x54 ∧
        (i + 1 = bytes.length ∨ bytes.getD (i + 1) 0 ≠ 0x9F ∧ bytes.getD (i + 1) 0 ≠ 0x54) ∧
        ∃ out seqs, unescapeBytes (bytes.take i) = .ok out seqs := by
  constructor
  · intro h
    obtain ⟨pre, rest, out, seqs, hbytes, hi, hpre, hbad⟩ := unescapeFrom_eq_malformed_iff.1 h
    obtain rfl : i = pre.length := hi.trans (Nat.zero_add _)
    obtain ⟨hlt, hget, htake, hdrop⟩ := eq_append_escape_iff.1 hbytes
    exact ⟨hlt, hget, (badFollower_drop_iff hlt).1 (hdrop ▸ hbad), out, seqs, htake ▸ hpre⟩
  · rintro ⟨hlt, hget, hbad, out, seqs, hpre⟩
    have hlen : (bytes.take i).length = i := List.length_take_of_le hlt.le
    refine unescapeFrom_eq_malformed_iff.2 ⟨bytes.take i, bytes.drop (i + 1), out, seqs,
      eq_append_escape_iff.2 ?_, ?_, hpre, (badFollower_drop_iff hlt).2 hbad⟩
    · rw [hlen]
      exact ⟨hlt, hget, rfl, rfl⟩
    · rw [hlen, Nat.zero_add]

/-- Settles O57: where the scan stops, and how it goes on after a part that unescapes. -/
theorem malformedIndexIsABadEscape : Obligations.MalformedIndexIsABadEscape := by
  refine ⟨fun _ _ => unescapeBytes_eq_malformed_iff, rfl, fun bytes out seqs h => ?_,
    fun _ _ _ h => length_of_unescapeFrom_ok h⟩
  have hcopied {b : Byte} (hb : b ≠ 0x54) : unescapeBytes (bytes ++ [b]) = .ok (out ++ [b]) seqs :=
    unescapeBytes_append_block (k := 0) h (.ordinary hb)
  exact ⟨fun _ => hcopied, hcopied (by decide), unescapeBytes_append_block h .sync,
    unescapeBytes_append_block h .escape⟩

/-! ### The laws of the codec (44_escape R204) -/

/-- The scan of an escaped stream reads, block by block, the bytes escaped. -/
theorem unescapeFrom_escapeBytes (i : Nat) (bytes : List Byte) :
    unescapeFrom i (escapeBytes bytes) = .ok bytes (escCount bytes) := by
  induction bytes generalizing i with
  | nil => rfl
  | cons b bytes ih =>
    rw [escapeBytes_cons, unescapeFrom_block i (scanBlock_escapeByte b), ih, escCount_cons]
    rfl

theorem unescapeBytes_escapeBytes (bytes : List Byte) :
    unescapeBytes (escapeBytes bytes) = .ok bytes (escCount bytes) :=
  unescapeFrom_escapeBytes 0 bytes

theorem escapeBytes_injective : Function.Injective escapeBytes := by
  intro a b h
  have hok := unescapeBytes_escapeBytes a
  rw [h, unescapeBytes_escapeBytes] at hok
  exact (UnescapeResult.ok.inj hok).1.symm

/-- `Escape` of a source is a list of blocks. -/
theorem escapeBlock_of_mem_map {bytes blk : List Byte} (h : blk ∈ bytes.map escapeByte) :
    EscapeBlock blk := by
  obtain ⟨b, -, hb⟩ := List.mem_map.1 h
  exact escapeBlock_iff.2 ⟨b, hb⟩

/-- Conversely, every list of blocks is `Escape` of a source. -/
theorem exists_map_escapeByte {p : List (List Byte)} (hp : ∀ blk ∈ p, EscapeBlock blk) :
    ∃ bytes : List Byte, bytes.map escapeByte = p := by
  have hmem : p ∈ {l | ∀ x ∈ l, x ∈ Set.range escapeByte} :=
    fun blk hblk => escapeBlock_iff.1 (hp blk hblk)
  rwa [← Set.range_list_map] at hmem

theorem sync_notMem_escapeBytes (bytes : List Byte) : (0xAB : Byte) ∉ escapeBytes bytes := by
  rw [escapeBytes_eq_flatten, List.mem_flatten]
  rintro ⟨blk, hblk, hmem⟩
  exact (escapeBlock_of_mem_map hblk).sync_notMem hmem

/-- A parse into blocks is unique, since `Escape` is injective. -/
theorem eq_of_flatten_eq {p q : List (List Byte)} (hp : ∀ blk ∈ p, EscapeBlock blk)
    (hq : ∀ blk ∈ q, EscapeBlock blk) (h : p.flatten = q.flatten) : p = q := by
  obtain ⟨a, rfl⟩ := exists_map_escapeByte hp
  obtain ⟨b, rfl⟩ := exists_map_escapeByte hq
  rw [← escapeBytes_eq_flatten, ← escapeBytes_eq_flatten] at h
  rw [escapeBytes_injective h]

theorem length_escapeBytes_eq_iff (bytes : List Byte) :
    (escapeBytes bytes).length = bytes.length ↔
      ∀ b ∈ bytes, b ≠ (0xAB : Byte) ∧ b ≠ (0x54 : Byte) := by
  rw [length_escapeBytes, Nat.add_eq_left, escCount, List.countP_eq_zero]
  exact forall₂_congr fun _ _ => not_reserved_iff

/-- Settles O56: the round trip gives injectivity, and injectivity the unique parse. -/
theorem escapeCodecLaws : Obligations.EscapeCodecLaws :=
  ⟨unescapeBytes_escapeBytes,
    fun bytes => ⟨sync_notMem_escapeBytes bytes, bytes.map escapeByte,
      escapeBytes_eq_flatten bytes, fun _ => escapeBlock_of_mem_map⟩,
    fun _ _ h => escapeBytes_injective h,
    fun _ _ => eq_of_flatten_eq,
    fun bytes => ⟨Nat.le.intro (length_escapeBytes bytes).symm, length_escapeBytes_eq_iff bytes⟩,
    ⟨rfl, by decide⟩,
    escapeBytes_append,
    [0x54], [0x9F], [0xAB], 1, 0, rfl, rfl⟩

end Sys2Proof.Machine
end

section
/-! PROOFS. The commands of the ESC unit (44_escape R205 to R207): each as one chain of its
checks. -/

namespace Sys2Proof.Machine

/-! ### ECNT (44_escape R205) -/

/-- ECNT's one check. -/
theorem exec_ecnt (s : State) :
    exec .ecnt s = .next
      (if ¬ InRange s s.source then s.raise .addrRange 0
      else s.finish (escCount s.sourceBytes) 0) := by
  rw [exec, execEcnt, regionFault_source, ite_not]
  split_ifs <;> rfl

/-- A count of source bytes is a word. -/
theorem State.escCount_le (s : State) : escCount s.sourceBytes ≤ Config.maxWord := by
  have hcount := escCount_le_length s.sourceBytes
  rw [s.length_sourceBytes] at hcount
  exact hcount.trans (Nat.le_of_lt_succ s.srcLen.isLt)

/-- Settles O52, by ECNT's check: a source out of range raises, any other is counted. -/
theorem ecntCountsTheReservedBytes : Obligations.EcntCountsTheReservedBytes := by
  intro s
  refine ⟨_, exec_ecnt s, ?_⟩
  rw [← escCount_eq_countP]
  split_ifs with hsrc
  · exact ⟨s.endedNormally_finish s.escCount_le (by decide), rfl⟩
  · exact s.endedFaulting_raise .addrRange (by decide)

/-! ### ESC (44_escape R206) -/

/-- ESC's checks, in their order. -/
theorem exec_esc (s : State) :
    exec .esc s = .next (s.afterPairChecks
      (if s.srcLen.toNat + escCount s.sourceBytes > 2 ^ 32 - 1 then s.raise .sizeOverflow 0
      else if s.dstCap.toNat < s.srcLen.toNat + escCount s.sourceBytes then
        s.raise .dstOverflow (s.srcLen.toNat + escCount s.sourceBytes)
      else (s.store s.dst (escapeBytes s.sourceBytes)).finish
        (s.srcLen.toNat + escCount s.sourceBytes) (escCount s.sourceBytes))) := by
  rw [State.afterPairChecks_eq, exec, execEsc]
  cases regionFault s.cfg.memSize [s.source, s.destination] with
  | some f => rfl
  | none =>
    rw [Option.elim_none, apply_ite Host.Outcome.next, apply_ite Host.Outcome.next]
    rfl

/-- Settles O53, by ESC's checks: after those on its regions two more raise, and the last end stores
and finishes. -/
theorem escStoresTheEscapedStream : Obligations.EscStoresTheEscapedStream := by
  intro s
  refine ⟨_, exec_esc s, ends_of_afterPairChecks rfl fun hend => ?_⟩
  rw [hend]
  split_ifs with hsize hcap
  · exact s.endedFaulting_raise .sizeOverflow (by decide)
  · exact s.endedFaulting_raise .dstOverflow (Nat.le_of_not_gt hsize)
  · exact ⟨s.endedNormally_finish_store s.dst _ (Nat.le_of_not_gt hsize) s.escCount_le,
      s.stored_finish_store s.dst _ _ _, by rw [length_escapeBytes, s.length_sourceBytes]⟩

/-! ### UNESC (44_escape R207) -/

/-- The end of UNESC whose region checks pass, by what `Unescape` returns. -/
def State.unescEnd (s : State) : UnescapeResult → State
  | .malformed i => s.raise .malformedEscapeSequence i
  | .ok out seqs =>
    if s.dstCap.toNat < out.length then s.raise .dstOverflow out.length
    else (s.store s.dst out).finish out.length seqs

/-- UNESC's checks, in their order. -/
theorem exec_unesc (s : State) :
    exec .unesc s = .next (s.afterPairChecks (s.unescEnd (unescapeBytes s.sourceBytes))) := by
  rw [State.afterPairChecks_eq, exec, execUnesc]
  cases regionFault s.cfg.memSize [s.source, s.destination] with
  | some f => rfl
  | none =>
    cases unescapeBytes s.sourceBytes with
    | malformed i => rfl
    | ok out seqs => exact (apply_ite _ _ _ _).symm

/-- Settles O54, by UNESC's checks: after those on its regions a malformed source raises, then a
small capacity, and the last end stores and finishes. -/
theorem unescStoresTheUnescapedStream : Obligations.UnescStoresTheUnescapedStream := by
  intro s
  refine ⟨_, exec_unesc s, ends_of_afterPairChecks rfl fun hend => ?_⟩
  have hword : s.srcLen.toNat ≤ Config.maxWord := Nat.le_of_lt_succ s.srcLen.isLt
  rw [hend]
  cases hresult : unescapeBytes s.sourceBytes with
  | malformed i =>
    have hi := lt_of_unescapeBytes_malformed hresult
    rw [s.length_sourceBytes] at hi
    exact s.endedFaulting_raise .malformedEscapeSequence (hi.le.trans hword)
  | ok out seqs =>
    have hlen := length_of_unescapeFrom_ok hresult
    rw [s.length_sourceBytes] at hlen
    have hout : out.length ≤ Config.maxWord := by omega
    dsimp only [State.unescEnd]
    split_ifs with hcap
    · exact s.endedFaulting_raise .dstOverflow hout
    · exact ⟨s.endedNormally_finish_store s.dst out hout (by omega),
        s.stored_finish_store s.dst out _ _, by omega, by omega⟩

end Sys2Proof.Machine
end

section
/-! PROOFS. The end of an illegal command word (30_encoding R91, R93; 60_exceptions R223): a word
outside the opcode table decodes to no command, and its completion step is `raise IllegalCommand`. -/

namespace Sys2Proof.Machine

/-! ### The words outside the table (30_encoding R93) -/

/-- The word of each command has bits 31:8 zero and an OPCODE of the table. -/
theorem encode_toNat_in_table (i : Instr) :
    (encode i).toNat / 256 = 0 ∧
      (encode i).toNat % 256 ∈ [0x01, 0x02, 0x10, 0x11, 0x12, 0x13, 0x20, 0x21, 0x22] := by
  cases i <;> decide

/-- A word outside the table decodes to no command, since it is not the word of one. -/
theorem decode_error_of_outside_table {w : Word}
    (h : w.toNat / 256 ≠ 0 ∨
      ¬ w.toNat % 256 ∈ [0x01, 0x02, 0x10, 0x11, 0x12, 0x13, 0x20, 0x21, 0x22]) :
    ∃ e, decode w = .error e := by
  cases hdecode : decode w with
  | error e => exact ⟨e, rfl⟩
  | ok i =>
    obtain rfl := (decode_eq_ok_iff w i).1 hdecode
    obtain ⟨hzero, hopcode⟩ := encode_toNat_in_table i
    exact absurd h (not_or.2 ⟨not_not.2 hzero, not_not.2 hopcode⟩)

/-! ### The completion step (10_state R32) -/

/-- With a completion at the script's head a busy block takes its completion step. -/
theorem step_of_completion {s : State} {rest : List Transaction} (hbusy : s.busy = true)
    (hscript : s.script = .completion :: rest) : step s = (s.takeScript rest).complete := by
  rw [step, hscript]
  exact State.engineTurn_busy ((s.takeScript_busy rest).trans hbusy)

/-- With no window broken, a word that decodes to no command raises IllegalCommand (60_exceptions
R223). -/
theorem State.complete_illegal {s : State} {e : DecodeError} (hunbroken : s.broken = false)
    (hdecode : decode s.pending = .error e) :
    s.complete = .next (s.raise .illegalCommand s.pending.toNat) := by
  obtain ⟨hbroken, -⟩ | ⟨-, i, hok, -⟩ | ⟨-, -, hraise⟩ := State.complete_cases (s := s) rfl
  · exact absurd (hunbroken.symm.trans hbroken) Bool.false_ne_true
  · exact nomatch hdecode.symm.trans hok
  · exact hraise

/-! ### The statement -/

/-- Settles O5: PENDING decodes to no command, so the completion is `raise IllegalCommand` with the
word, and a raise is the faulting end of the statement. -/
theorem illegalWordEndsInIllegalCommand : Obligations.IllegalWordEndsInIllegalCommand := by
  intro s rest hbusy hunbroken houtside hscript
  obtain ⟨e, hdecode⟩ := decode_error_of_outside_table houtside
  have hcomplete := State.complete_illegal (s := s.takeScript rest) hunbroken hdecode
  have hword : s.pending.toNat ≤ Config.maxWord := Nat.le_of_lt_succ s.pending.isLt
  exact ⟨_, (step_of_completion hbusy hscript).trans hcomplete,
    (s.takeScript rest).endedFaulting_raise .illegalCommand hword⟩

end Sys2Proof.Machine
end

section
/-! PROOFS. The reset transaction (70_reset_and_hazards R260): the registers it clears, what it keeps,
and that the block is ready for a command after it. -/

namespace Sys2Proof.Machine

/-! ### The cleared registers (70_reset_and_hazards R260) -/

/-- Every register a read can return is one that reset clears. -/
@[simp] theorem State.resetRegisters_readRegister (s : State) (off : Nat) :
    s.resetRegisters.readRegister off = 0 := by
  simpa using s.resetRegisters.readRegister_mem off

@[simp] theorem State.resetRegisters_err (s : State) : s.resetRegisters.err = false := by
  simp [State.err]

@[simp] theorem State.resetRegisters_errcode (s : State) : s.resetRegisters.errcode = 0 := by
  simp [State.errcode]

/-- The cleared block takes a command (10_state R31), whatever it was doing before. -/
theorem State.resetRegisters_hostWrite_cmd (s : State) (w : Word) :
    s.resetRegisters.hostWrite 0x00 w = s.resetRegisters.startCommand w :=
  State.hostWrite_idle_cmd s.resetRegisters_busy w

/-! ### The transaction -/

theorem State.hostReset_idle {s : State} (hidle : s.busy = false) :
    s.hostReset = s.resetRegisters := by
  simp [State.hostReset, hidle]

/-- Reset while BUSY first frees the outputs of the running command (70_reset_and_hazards R261;
log 8). -/
theorem State.hostReset_busy {s : State} (hbusy : s.busy = true) :
    s.hostReset =
      (s.freeRegions (s.windows.head?.toList.flatMap Window.outputs)).resetRegisters := by
  simp [State.hostReset, hbusy]

/-- BUSY or idle, reset is the clearing of the registers of one state: `s` itself, or `s` with the
abandoned command's outputs freed. -/
theorem State.hostReset_eq_resetRegisters (s : State) :
    ∃ u : State, s.hostReset = u.resetRegisters ∧ u.cfg = s.cfg ∧ u.script = s.script ∧
      (s.busy = false → u.mem = s.mem) := by
  cases hbusy : s.busy with
  | false => exact ⟨s, State.hostReset_idle hbusy, rfl, rfl, fun _ => rfl⟩
  | true =>
    exact ⟨_, State.hostReset_busy hbusy, State.freeRegions_cfg s _, State.freeRegions_script s _,
      nofun⟩

theorem step_of_reset {s : State} {rest : List Transaction} (hscript : s.script = .reset :: rest) :
    step s = .next (s.takeScript rest).hostReset := by
  rw [step, hscript]
  rfl

/-! ### The statement -/

/-- Settles O14: the next state is a `State.resetRegisters`, whose registers are all 0, so it is idle
and a write to CMD starts a command. -/
theorem resetClearsEveryRegister : Obligations.ResetClearsEveryRegister := by
  intro s rest hscript
  obtain ⟨u, hreset, hcfg, hrest, hmem⟩ := (s.takeScript rest).hostReset_eq_resetRegisters
  have hstep : step s = .next u.resetRegisters := by rw [step_of_reset hscript, hreset]
  refine ⟨u.resetRegisters, hstep, u.resetRegisters_readRegister, u.resetRegisters_busy,
    u.resetRegisters_done, u.resetRegisters_err, u.resetRegisters_errcode, hcfg, hrest, hmem, ?_⟩
  intro w
  rw [State.resetRegisters_hostWrite_cmd]
  exact ⟨State.startCommand_busy _ w, rfl⟩

end Sys2Proof.Machine
end

section
/-! PROOFS. The laws of `gfmul` (40_arith_gf256 R124), the powers of ALPHA as a table of the nonzero
bytes (R125), and the single-error syndrome (43_fec R177): each is a fact about classes modulo
`PRIM_POLY`, carried back to bytes by `symbolClass_injective`. -/

namespace Sys2Proof.Machine

/-! ### `gfmul` is the product of a commutative ring (40_arith_gf256 R124) -/

section Ring

variable {poly : PrimPoly} (htop : poly.getLsbD 8 = true)

include htop

theorem gfmul_comm (a b : Byte) : gfmul poly a b = gfmul poly b a := by
  apply symbolClass_injective htop
  rw [symbolClass_gfmul htop, symbolClass_gfmul htop, mul_comm]

theorem gfmul_assoc (a b c : Byte) :
    gfmul poly (gfmul poly a b) c = gfmul poly a (gfmul poly b c) := by
  apply symbolClass_injective htop
  simp only [symbolClass_gfmul htop, mul_assoc]

theorem gfmul_gfadd (a b c : Byte) :
    gfmul poly a (gfadd b c) = gfadd (gfmul poly a b) (gfmul poly a c) := by
  apply symbolClass_injective htop
  simp only [symbolClass_gfmul htop, symbolClass_gfadd, mul_add]

theorem gfmul_zero (a : Byte) : gfmul poly a 0 = 0 := by
  apply symbolClass_injective htop
  rw [symbolClass_gfmul htop, symbolClass_zero, mul_zero]

theorem gfmul_one (a : Byte) : gfmul poly a 1 = a := by
  apply symbolClass_injective htop
  rw [symbolClass_gfmul htop, symbolClass_one, mul_one]

end Ring

/-- Settles O35: the laws hold in the ring of classes; the three products are computed. -/
theorem gfmulIsACommutativeRingProduct : Obligations.GfmulIsACommutativeRingProduct := by
  refine ⟨fun poly htop a b c => ⟨gfmul_comm htop a b, gfmul_assoc htop a b c,
    gfmul_gfadd htop a b c, gfmul_zero htop a, ?_, gfmul_one htop a⟩, by decide⟩
  rw [gfmul_comm htop, gfmul_zero htop]

/-! ### The table of powers (40_arith_gf256 R125) -/

section Primitive

variable {poly : PrimPoly} (hprim : gfprimitive poly = true)

include hprim

theorem nodup_gfexpTable : (gfexpTable poly).Nodup := by
  refine List.nodup_iff_injective_get.2 fun i j hij => Fin.ext ?_
  have hi : i.val < 255 := i.isLt.trans_eq (length_gfexpTable poly)
  have hj : j.val < 255 := j.isLt.trans_eq (length_gfexpTable poly)
  refine gfalphaPow_injOn hprim hi hj ?_
  rw [gfalphaPow_eq_getElem poly hi, gfalphaPow_eq_getElem poly hj]
  exact hij

theorem mem_gfexpTable_iff (a : Byte) : a ∈ gfexpTable poly ↔ a ≠ 0 := by
  constructor
  · intro h
    obtain ⟨i, hi, rfl⟩ := List.getElem_of_mem h
    rw [← gfalphaPow_eq_getElem poly (hi.trans_eq (length_gfexpTable poly))]
    exact gfalphaPow_ne_zero hprim i
  · intro ha
    obtain ⟨i, hi, rfl⟩ := exists_gfalphaPow_eq hprim ha
    rw [gfalphaPow_eq_getElem poly hi]
    exact List.getElem_mem _

theorem gflog_gfalphaPow {i : Nat} (hi : i < 255) : gflog poly (gfalphaPow poly i) = i := by
  obtain ⟨hlt, hpow⟩ := gfalphaPow_gflog hprim (gfalphaPow_ne_zero hprim i)
  exact gfalphaPow_injOn hprim hlt hi hpow

theorem gfalphaPow_succ (i : Nat) :
    gfalphaPow poly (i + 1) = gfmul poly (gfalphaPow poly i) Config.alpha := by
  have htop := getLsbD_eight_of_gfprimitive hprim
  apply symbolClass_injective htop
  rw [symbolClass_gfmul htop, symbolClass_gfalphaPow hprim, symbolClass_gfalphaPow hprim,
    symbolClass_alpha, pow_succ]

/-- The exponent of ALPHA counts modulo 255 (40_arith_gf256 R127). -/
theorem gfmul_eq_gfalphaPow {a b : Byte} (ha : a ≠ 0) (hb : b ≠ 0) :
    gfmul poly a b = gfalphaPow poly ((gflog poly a + gflog poly b) % 255) := by
  have hmod (e : Nat) : gfalphaPow poly (e % 255) = gfalphaPow poly e := by
    rw [gfalphaPow, gfalphaPow, Config.rsN, Nat.mod_mod]
  obtain ⟨-, hpa⟩ := gfalphaPow_gflog hprim ha
  obtain ⟨-, hpb⟩ := gfalphaPow_gflog hprim hb
  rw [hmod, ← gfmul_gfalphaPow hprim, hpa, hpb]

end Primitive

/-- Settles O36: the table has 255 entries, no two equal, and every nonzero byte is one of them. -/
theorem expTableListsTheNonzeroBytes : Obligations.ExpTableListsTheNonzeroBytes := fun poly hprim =>
  ⟨length_gfexpTable poly, nodup_gfexpTable hprim, mem_gfexpTable_iff hprim, rfl,
    fun i _ => gfalphaPow_succ hprim i, fun _ hi => gflog_gfalphaPow hprim (Nat.lt_succ_of_le hi),
    fun _ _ => gfmul_eq_gfalphaPow hprim⟩

/-! ### One nonzero byte (43_fec R177) -/

/-- The word of length `n` that is `v` at index `i` and 0 elsewhere. -/
theorem getD_set_replicate {n i : Nat} (hi : i < n) (v : Byte) (k : Nat) :
    ((List.replicate n (0 : Byte)).set i v).getD k 0 = if k = i then v else 0 := by
  rw [getD_set (hi.trans_eq List.length_replicate.symm)]
  refine congrArg (ite _ _) ?_
  by_cases hk : k < n
  · exact List.getD_replicate _ hk
  · exact List.getD_eq_default _ _ (List.length_replicate.trans_le (Nat.le_of_not_lt hk))

/-- Settles O45: of the sum that a syndrome is, only the term of index `i` is left. -/
theorem syndromeOfASingleError : Obligations.SyndromeOfASingleError := by
  intro poly hprim i j v hi hj
  have htop := getLsbD_eight_of_gfprimitive hprim
  have hlen : ((List.replicate 255 (0 : Byte)).set i v).length = 255 :=
    List.length_set.trans List.length_replicate
  apply symbolClass_injective htop
  rw [symbolClass_getD_syndrome hprim hlen hj, symbolClass_gfmul htop,
    symbolClass_gfalphaPow hprim, Finset.sum_eq_single_of_mem i (Finset.mem_range.2 hi)]
  · rw [getD_set_replicate hi, if_pos rfl, locator, ← pow_mul, Nat.mul_comm]
  · intro k _ hk
    rw [getD_set_replicate hi, if_neg hk, symbolClass_zero, zero_mul]

/-! ### What `DecodeCW` corrects (43_fec R180) -/

/-- Settles O46: this is the decoder's soundness. -/
theorem decodeReturnsACodewordWithinSixteen : Obligations.DecodeReturnsACodewordWithinSixteen :=
  fun _ _ _ _ hr h => isCodeword_of_decodeCW_corrected hr h

theorem decodeCW_of_isCodeword {poly : PrimPoly} {r : List Byte} (h : IsCodeword poly r) :
    decodeCW poly r = .corrected r 0 :=
  decodeCW_of_allZero ((allZero_iff _).2 h.2)

/-- Settles O47: what is corrected is a codeword, and a codeword has no syndrome to correct. -/
theorem decodeLeavesExactlyTheCodewordsAlone : Obligations.DecodeLeavesExactlyTheCodewordsAlone :=
  fun _ _ hr => ⟨fun h => (isCodeword_of_decodeCW_corrected hr h).1, decodeCW_of_isCodeword⟩

end Sys2Proof.Machine
end

section
/-! PROOFS. The Reed-Solomon encoder (43_fec R173, R174): the shift register keeps the message times
`x^32` plus the register at zero at every root of the generator, and each of its steps is linear. -/

namespace Sys2Proof.Machine

open Polynomial

/-! ### Horner's rule on lists built from lists (40_arith_gf256 R128) -/

section Horner

variable {poly : PrimPoly} (htop : poly.getLsbD 8 = true) (v : Byte)

include htop

omit htop in
theorem symbolClass_polyEvalHigh_nil : symbolClass poly (polyEvalHigh poly [] v) = 0 :=
  symbolClass_zero poly

theorem symbolClass_polyEvalHigh_append (l l' : List Byte) :
    symbolClass poly (polyEvalHigh poly (l ++ l') v) =
      symbolClass poly (polyEvalHigh poly l v) * symbolClass poly v ^ l'.length +
        symbolClass poly (polyEvalHigh poly l' v) := by
  induction l' using List.reverseRecOn with
  | nil => simp [symbolClass_polyEvalHigh_nil]
  | append_singleton l' a ih =>
    rw [← List.append_assoc, polyEvalHigh, List.foldl_concat, ← polyEvalHigh, symbolClass_gfadd,
      symbolClass_gfmul htop, ih, polyEvalHigh, polyEvalHigh, polyEvalHigh, List.foldl_concat,
      symbolClass_gfadd, symbolClass_gfmul htop, List.length_append, List.length_singleton]
    ring

theorem symbolClass_polyEvalHigh_singleton (a : Byte) :
    symbolClass poly (polyEvalHigh poly [a] v) = symbolClass poly a := by
  rw [polyEvalHigh, List.foldl_cons, List.foldl_nil, symbolClass_gfadd, symbolClass_gfmul htop,
    symbolClass_zero, zero_mul, zero_add]

theorem symbolClass_polyEvalHigh_cons (a : Byte) (l : List Byte) :
    symbolClass poly (polyEvalHigh poly (a :: l) v) =
      symbolClass poly a * symbolClass poly v ^ l.length +
        symbolClass poly (polyEvalHigh poly l v) := by
  rw [← List.singleton_append, symbolClass_polyEvalHigh_append htop,
    symbolClass_polyEvalHigh_singleton htop]

theorem symbolClass_polyEvalHigh_replicate_zero (n : Nat) :
    symbolClass poly (polyEvalHigh poly (List.replicate n 0) v) = 0 := by
  induction n with
  | zero => exact symbolClass_polyEvalHigh_nil v
  | succ n ih =>
    rw [List.replicate_succ, symbolClass_polyEvalHigh_cons htop, ih, symbolClass_zero, zero_mul,
      zero_add]

/-- Adding a multiple of one list to another of its length. -/
theorem symbolClass_polyEvalHigh_zipWith (c : Byte) {l gs : List Byte} (h : l.length = gs.length) :
    symbolClass poly (polyEvalHigh poly
        (List.zipWith (fun p g => gfadd p (gfmul poly c g)) l gs) v) =
      symbolClass poly (polyEvalHigh poly l v) +
        symbolClass poly c * symbolClass poly (polyEvalHigh poly gs v) := by
  induction l generalizing gs with
  | nil =>
    obtain rfl := List.eq_nil_of_length_eq_zero h.symm
    simp [symbolClass_polyEvalHigh_nil]
  | cons p l ih =>
    obtain - | ⟨g, gs⟩ := gs
    · cases h
    · have h : l.length = gs.length := Nat.succ_injective h
      have hlen : (List.zipWith (fun p g => gfadd p (gfmul poly c g)) l gs).length = gs.length := by
        rw [List.length_zipWith, h, Nat.min_self]
      rw [List.zipWith_cons_cons, symbolClass_polyEvalHigh_cons htop, ih h, hlen,
        symbolClass_polyEvalHigh_cons htop, symbolClass_polyEvalHigh_cons htop, h,
        symbolClass_gfadd, symbolClass_gfmul htop]
      ring

end Horner

/-! ### The generator (40_arith_gf256 R129, R130) -/

/-- The sum of a list moved up by one place under `c`, and of `r` times the list. -/
theorem symbolPoly_zipWith_cons {poly : PrimPoly} (htop : poly.getLsbD 8 = true) (r c : Byte)
    (p : List Byte) :
    symbolPoly poly (List.zipWith gfadd (c :: p) (p.map (gfmul poly r) ++ [0])) =
      C (symbolClass poly c) + (X + C (symbolClass poly r)) * symbolPoly poly p := by
  induction p generalizing c with
  | nil => simp [symbolPoly, gfadd]
  | cons a p ih =>
    rw [List.map_cons, List.cons_append, List.zipWith_cons_cons, symbolPoly, ih, symbolClass_gfadd,
      symbolClass_gfmul htop, symbolPoly, C_add, C_mul]
    ring

theorem symbolClass_polyEval_polyMulRoot {poly : PrimPoly} (htop : poly.getLsbD 8 = true)
    (r v : Byte) (p : List Byte) :
    symbolClass poly (polyEval poly (polyMulRoot poly r p) v) =
      (symbolClass poly v + symbolClass poly r) * symbolClass poly (polyEval poly p v) := by
  rw [symbolClass_polyEval htop, symbolClass_polyEval htop, polyMulRoot,
    symbolPoly_zipWith_cons htop, symbolClass_zero]
  simp

/-- Multiplying by `x + r` keeps the leading coefficient. -/
theorem exists_polyMulRoot_concat (poly : PrimPoly) (r a : Byte) (p : List Byte) :
    ∃ q, polyMulRoot poly r (p ++ [a]) = q ++ [a] := by
  refine ⟨List.zipWith gfadd (0 :: p) ((p ++ [a]).map (gfmul poly r)), ?_⟩
  rw [polyMulRoot, ← List.cons_append, List.zipWith_append (by simp)]
  simp [gfadd]

/-- `x^32` is the generator's leading term. -/
theorem generator_eq_taps (poly : PrimPoly) :
    generator poly = (generatorTaps poly).reverse ++ [1] := by
  have hlead : ∀ (es : List Nat) (p : List Byte), ∃ q,
      es.foldl (fun p e => polyMulRoot poly (gfalphaPow poly e) p) (p ++ [1]) = q ++ [1] := by
    intro es
    induction es with
    | nil => exact fun p => ⟨p, rfl⟩
    | cons e es ih =>
      intro p
      obtain ⟨q, hq⟩ := exists_polyMulRoot_concat poly (gfalphaPow poly e) 1 p
      rw [List.foldl_cons, hq]
      exact ih q
  obtain ⟨q, hq⟩ := hlead rootExponents []
  have hgen : generator poly = q ++ [1] := hq
  have hlen : q.length = Config.nroots := by
    have := length_generator poly
    rw [hgen] at this
    simpa using this
  rw [generatorTaps, List.reverse_reverse, hgen, List.take_left' hlen]

/-- The generator vanishes at each of its roots. -/
theorem polyEval_generator {poly : PrimPoly} (htop : poly.getLsbD 8 = true) {e : Nat}
    (he : e ∈ rootExponents) : polyEval poly (generator poly) (gfalphaPow poly e) = 0 := by
  have hroot : ∀ (es : List Nat) (p : List Byte),
      (e ∈ es ∨ symbolClass poly (polyEval poly p (gfalphaPow poly e)) = 0) →
      symbolClass poly (polyEval poly
        (es.foldl (fun p e => polyMulRoot poly (gfalphaPow poly e) p) p) (gfalphaPow poly e)) =
          0 := by
    intro es
    induction es with
    | nil => exact fun p h => h.resolve_left List.not_mem_nil
    | cons e' es ih =>
      intro p h
      refine ih _ ?_
      rw [symbolClass_polyEval_polyMulRoot htop]
      obtain h | h := h
      · obtain rfl | h := List.mem_cons.1 h
        · exact .inr (by rw [symbolClass_add_self, zero_mul])
        · exact .inl h
      · exact .inr (by rw [h, mul_zero])
  exact (symbolClass_eq_zero_iff htop).1 (hroot rootExponents [1] (.inl he))

/-- So at a root `x^32` is the sum of the lower terms. -/
theorem symbolClass_polyEvalHigh_generatorTaps {poly : PrimPoly} (htop : poly.getLsbD 8 = true)
    {e : Nat} (he : e ∈ rootExponents) :
    symbolClass poly (gfalphaPow poly e) ^ 32 +
      symbolClass poly (polyEvalHigh poly (generatorTaps poly) (gfalphaPow poly e)) = 0 := by
  have hzero := polyEval_generator htop he
  rw [polyEval, generator_eq_taps, List.reverse_append, List.reverse_singleton,
    List.reverse_reverse, List.singleton_append] at hzero
  have h := symbolClass_polyEvalHigh_cons htop (gfalphaPow poly e) 1 (generatorTaps poly)
  rw [hzero, symbolClass_zero, symbolClass_one, one_mul, length_generatorTaps] at h
  exact h.symm

/-! ### The shift register (43_fec R174) -/

/-- One step: at a root, the register becomes `x` times itself plus `x^32` times the byte taken. -/
theorem symbolClass_polyEvalHigh_parityStep {poly : PrimPoly} (htop : poly.getLsbD 8 = true)
    {e : Nat} (he : e ∈ rootExponents) {par : List Byte} (hpar : par.length = 32) (d : Byte) :
    symbolClass poly (polyEvalHigh poly (parityStep poly (generatorTaps poly) par d)
        (gfalphaPow poly e)) =
      symbolClass poly (gfalphaPow poly e) *
          symbolClass poly (polyEvalHigh poly par (gfalphaPow poly e)) +
        symbolClass poly d * symbolClass poly (gfalphaPow poly e) ^ 32 := by
  obtain - | ⟨p, tail⟩ := par
  · cases hpar
  have htail : tail.length = 31 := Nat.succ_injective hpar
  have hlen : (tail ++ [0]).length = (generatorTaps poly).length := by
    rw [length_generatorTaps, List.length_append, htail]
    rfl
  have hself := symbolClass_add_self poly (gfadd d p)
  rw [symbolClass_gfadd] at hself
  have htaps := symbolClass_polyEvalHigh_generatorTaps htop he
  rw [parityStep, List.tail_cons, List.headD_cons, symbolClass_polyEvalHigh_zipWith htop _ _ hlen,
    symbolClass_polyEvalHigh_append htop, symbolClass_polyEvalHigh_singleton htop,
    symbolClass_polyEvalHigh_cons htop, symbolClass_gfadd, symbolClass_zero, htail,
    List.length_singleton]
  linear_combination (symbolClass poly d + symbolClass poly p) * htaps -
    symbolClass poly (gfalphaPow poly e) ^ 32 * hself

/-- After any message the message times `x^32` plus the register vanishes at every root. -/
theorem polyEvalHigh_rsEncode {poly : PrimPoly} (htop : poly.getLsbD 8 = true) {e : Nat}
    (he : e ∈ rootExponents) (d : List Byte) :
    polyEvalHigh poly (rsEncode poly d) (gfalphaPow poly e) = 0 := by
  rw [← symbolClass_eq_zero_iff htop, rsEncode, symbolClass_polyEvalHigh_append htop,
    length_parityOf poly d (length_generatorTaps poly)]
  induction d using List.reverseRecOn with
  | nil =>
    rw [symbolClass_polyEvalHigh_nil, zero_mul, zero_add]
    exact symbolClass_polyEvalHigh_replicate_zero htop _ Config.nroots
  | append_singleton d b ih =>
    have hlen := length_parityOf poly d (length_generatorTaps poly)
    rw [parityOf, List.foldl_concat, ← parityOf,
      symbolClass_polyEvalHigh_parityStep htop he hlen, symbolClass_polyEvalHigh_append htop,
      symbolClass_polyEvalHigh_singleton htop, List.length_singleton]
    rw [show Config.nroots = 32 from rfl] at ih ⊢
    linear_combination symbolClass poly (gfalphaPow poly e) * ih +
      symbolClass poly (gfalphaPow poly e) ^ 32 * symbolClass_add_self poly b

/-- The encoder's output is a codeword (43_fec R173, R179). -/
theorem isCodeword_rsEncode {poly : PrimPoly} (htop : poly.getLsbD 8 = true) {d : List Byte}
    (hd : d.length = 223) : IsCodeword poly (rsEncode poly d) := by
  refine ⟨by rw [length_rsEncode, hd]; rfl, fun x hx => ?_⟩
  obtain ⟨e, he, rfl⟩ := List.mem_map.1 hx
  exact polyEvalHigh_rsEncode htop he d

theorem take_rsEncode (poly : PrimPoly) {d : List Byte} (hd : d.length = 223) :
    (rsEncode poly d).take 223 = d :=
  List.take_left' hd

/-- Settles O43: the message stands in front, and what follows makes every syndrome zero. -/
theorem rsEncodeGivesASystematicCodeword : Obligations.RsEncodeGivesASystematicCodeword :=
  fun poly hprim _ hd =>
    ⟨take_rsEncode poly hd, isCodeword_rsEncode (getLsbD_eight_of_gfprimitive hprim) hd⟩

/-! ### Linearity (43_fec R174) -/

theorem gfproduct_gfadd_left (a b g : Byte) :
    gfproduct (gfadd a b) g = gfproduct a g ^^^ gfproduct b g := by
  refine BitVec.xor_eq_zero_iff.1 (bitPoly_eq_zero_iff.1 ?_)
  rw [bitPoly_xor, bitPoly_xor, bitPoly_gfproduct, bitPoly_gfproduct, bitPoly_gfproduct, gfadd,
    bitPoly_xor, add_mul]
  exact CharTwo.add_self_eq_zero _

theorem gfreduceStep_xor (poly : PrimPoly) (p q : SymbolProduct) (i : Nat) :
    gfreduceStep poly (p ^^^ q) i = gfreduceStep poly p i ^^^ gfreduceStep poly q i := by
  simp only [gfreduceStep, BitVec.getLsbD_xor]
  generalize poly.setWidth (2 * 8 - 1) <<< i = c
  have hboth : p ^^^ c ^^^ (q ^^^ c) = p ^^^ q := by
    calc p ^^^ c ^^^ (q ^^^ c) = p ^^^ q ^^^ (c ^^^ c) := by ac_rfl
      _ = p ^^^ q := by rw [BitVec.xor_self, BitVec.xor_zero]
  cases p.getLsbD (i + 8) <;> cases q.getLsbD (i + 8)
  · rfl
  · exact BitVec.xor_assoc p q c
  · exact (by ac_rfl : p ^^^ q ^^^ c = p ^^^ c ^^^ q)
  · exact hboth.symm

theorem gfreduce_xor (poly : PrimPoly) (p q : SymbolProduct) :
    gfreduce poly (p ^^^ q) = gfreduce poly p ^^^ gfreduce poly q := by
  simp only [gfreduce_eq_foldl]
  induction (List.range 7).reverse generalizing p q with
  | nil => rfl
  | cons i is ih => rw [List.foldl_cons, gfreduceStep_xor, ih, List.foldl_cons, List.foldl_cons]

/-- `gfmul` is additive for any `PRIM_POLY`, of degree 8 or not. -/
theorem gfmul_gfadd_left (poly : PrimPoly) (a b g : Byte) :
    gfmul poly (gfadd a b) g = gfadd (gfmul poly a g) (gfmul poly b g) := by
  rw [gfmul, gfproduct_gfadd_left, gfreduce_xor, BitVec.setWidth_xor]
  rfl

theorem gfadd_gfadd_comm (a b c d : Byte) :
    gfadd (gfadd a b) (gfadd c d) = gfadd (gfadd a c) (gfadd b d) := by
  simp only [gfadd]
  ac_rfl

/-- Adding the multiple of a list by a sum. -/
theorem zipWith_gfadd_gfmul (poly : PrimPoly) (u w : Byte) (as bs gs : List Byte) :
    List.zipWith (fun p g => gfadd p (gfmul poly (gfadd u w) g)) (List.zipWith gfadd as bs) gs =
      List.zipWith gfadd (List.zipWith (fun p g => gfadd p (gfmul poly u g)) as gs)
        (List.zipWith (fun p g => gfadd p (gfmul poly w g)) bs gs) := by
  refine List.ext_getElem (by simp only [List.length_zipWith]; omega) fun i _ _ => ?_
  simp only [List.getElem_zipWith]
  rw [gfmul_gfadd_left, gfadd_gfadd_comm]

/-- One step of the register is linear in the register and the byte taken. -/
theorem parityStep_zipWith_gfadd (poly : PrimPoly) (gs : List Byte) {p q : List Byte}
    (h : p.length = q.length) (c d : Byte) :
    parityStep poly gs (List.zipWith gfadd p q) (gfadd c d) =
      List.zipWith gfadd (parityStep poly gs p c) (parityStep poly gs q d) := by
  have hhead : (List.zipWith gfadd p q).headD 0 = gfadd (p.headD 0) (q.headD 0) := by
    cases p <;> cases q <;> trivial
  have htail : (List.zipWith gfadd p q).tail ++ [0] =
      List.zipWith gfadd (p.tail ++ [0]) (q.tail ++ [0]) := by
    rw [List.zipWith_append (by simp [h]), List.tail_zipWith]
    rfl
  rw [parityStep, hhead, htail, gfadd_gfadd_comm, zipWith_gfadd_gfmul]
  rfl

theorem length_parityStep_congr (poly : PrimPoly) (gs : List Byte) {p q : List Byte}
    (h : p.length = q.length) (c d : Byte) :
    (parityStep poly gs p c).length = (parityStep poly gs q d).length := by
  simp [parityStep, h]

theorem foldl_parityStep_zipWith (poly : PrimPoly) (gs : List Byte) {a b p q : List Byte}
    (hab : a.length = b.length) (hpq : p.length = q.length) :
    (List.zipWith gfadd a b).foldl (parityStep poly gs) (List.zipWith gfadd p q) =
      List.zipWith gfadd (a.foldl (parityStep poly gs) p) (b.foldl (parityStep poly gs) q) := by
  induction a generalizing b p q with
  | nil =>
    obtain rfl := List.eq_nil_of_length_eq_zero hab.symm
    rfl
  | cons c a ih =>
    obtain - | ⟨d, b⟩ := b
    · cases hab
    · rw [List.zipWith_cons_cons, List.foldl_cons, List.foldl_cons, List.foldl_cons,
        parityStep_zipWith_gfadd poly gs hpq,
        ih (Nat.succ_injective hab) (length_parityStep_congr poly gs hpq c d)]

/-- Settles O44: the register starts at zero, and zero is the sum of zero and zero. -/
theorem rsEncodeIsLinear : Obligations.RsEncodeIsLinear := by
  intro poly a b ha hb
  have hab : a.length = b.length := ha.trans hb.symm
  have hzero : List.replicate Config.nroots (0 : Byte) =
      List.zipWith gfadd (List.replicate Config.nroots 0) (List.replicate Config.nroots 0) := rfl
  have hparity := foldl_parityStep_zipWith poly (generatorTaps poly) hab
    (p := List.replicate Config.nroots 0) (q := List.replicate Config.nroots 0) rfl
  rw [← hzero] at hparity
  rw [rsEncode, parityOf, hparity, rsEncode, rsEncode, List.zipWith_append hab]
  rfl

end Sys2Proof.Machine
end

section
/-! PROOFS. The words of the commands and the illegal words (30_encoding R91 to R93). -/

namespace Sys2Proof

theorem decode_encode (i : Instr) : decode (encode i) = .ok i := (decode_eq_ok_iff _ i).2 rfl

/-- The command word of all 32 bits of a word. -/
theorem commandWord_toNat (w : Word) : commandWord 32 w.toNat = w := by
  rw [commandWord, Nat.mod_eq_of_lt w.isLt, BitVec.ofNat_toNat, BitVec.setWidth_eq]

/-- Settles O2: `decode` inverts `encode`, and the three words are those of their commands. -/
theorem encodedCommandsDecodeBack : Obligations.EncodedCommandsDecodeBack := by
  refine ⟨fun i _ => ⟨decode_encode i, ?_⟩, decode_encode .hash, decode_encode .fdec,
    decode_encode .unesc⟩
  rw [decodeTableWord, commandWord_toNat, decode_encode]
  rfl

/-- Only a number of the table is the word of a command. -/
theorem exists_eq_encode_of_mem_table {w : Word}
    (h : w.toNat ∈ [0x01, 0x02, 0x10, 0x11, 0x12, 0x13, 0x20, 0x21, 0x22]) :
    ∃ i, w = encode i := by
  have hmem : w.toNat ∈ tableCommands.map fun i => (encode i).toNat := h
  obtain ⟨i, -, hi⟩ := List.mem_map.1 hmem
  exact ⟨i, BitVec.eq_of_toNat_eq hi.symm⟩

/-- A word is illegal iff it lies outside the table. -/
theorem exists_decode_error_iff (w : Word) :
    (∃ e, decode w = .error e) ↔ w.toNat / 256 ≠ 0 ∨
      ¬ w.toNat % 256 ∈ [0x01, 0x02, 0x10, 0x11, 0x12, 0x13, 0x20, 0x21, 0x22] := by
  refine ⟨fun ⟨e, he⟩ => ?_, Machine.decode_error_of_outside_table⟩
  by_contra h
  obtain ⟨hzero, hop⟩ := not_or.1 h
  rw [not_not, Nat.mod_eq_of_lt (by omega)] at hop
  obtain ⟨i, rfl⟩ := exists_eq_encode_of_mem_table hop
  rw [decode_encode] at he
  cases he

/-- Settles O3: the OPCODE values outside the table are the listed ranges. -/
theorem illegalWordsAreTheReservedRanges : Obligations.IllegalWordsAreTheReservedRanges := by
  intro w
  rw [exists_decode_error_iff]
  simp only [List.mem_cons, List.not_mem_nil, or_false]
  omega

end Sys2Proof
end

section
/-! PROOFS. How the nine commands end: the end when every check passes, every end with the
bytes it writes (20_memory R70), and that two states that agree on what a command uses end it in the
same way (00_scope R10). -/

namespace Sys2Proof.Machine

/-! ### Regions (20_memory R68, R69) -/

/-- Settles O60: the first common address is the greater of the two bases. -/
theorem regionTestsMeetTheirRules : Obligations.RegionTestsMeetTheirRules := by
  refine fun s r1 r2 => ⟨Region.inRange_iff s r1, Region.overlaps_iff r1 r2, ?_⟩
  rw [Region.overlaps_iff]
  simp only [Region.has_iff, Overlapping]
  constructor
  · intro h
    exact ⟨max r1.base.toNat r2.base.toNat, by omega, by omega⟩
  · rintro ⟨a, h1, h2⟩
    omega

/-! ### STATUS of an end (10_state R30, 60_exceptions R222) -/

theorem FaultKind.code_bounds (f : FaultKind) : 1 ≤ f.code.toNat ∧ f.code.toNat ≤ 9 := by
  cases f <;> decide

theorem statusFault_errcode (f : FaultKind) : (statusFault f.code).extractLsb' 8 8 = f.code := by
  cases f <;> rfl

theorem statusFault_ne_done (f : FaultKind) : statusFault f.code ≠ 0x00000002 := by
  cases f <;> decide

/-- Settles O25, by the three shapes of an end. -/
theorem everyCommandEndsWithALegalStatus : Obligations.EveryCommandEndsWithALegalStatus := by
  intro i s
  have hfault (f : FaultKind) : ∃ code, 1 ≤ code ∧ code ≤ 9 ∧
      (statusFault f.code).toNat = 0x6 + 0x100 * code :=
    ⟨f.code.toNat, f.code_bounds.1, f.code_bounds.2, statusFault_toNat f⟩
  obtain ⟨t, ht, ⟨f, info, rfl⟩ | ⟨m, len, aux, rfl⟩ | ⟨-, m, c, len, aux, rfl⟩⟩ := exec_cases i s
  · exact ⟨_, ht, State.raise_busy s f info, State.raise_done s f info, .inr (hfault f)⟩
  · exact ⟨_, ht, State.finish_busy _ len aux, State.finish_done _ len aux, .inl statusDone_eq⟩
  · exact ⟨_, ht, State.raiseKeeping_busy _ _ c len aux, State.raiseKeeping_done _ _ c len aux,
      .inr (hfault .uncorrectableChunk)⟩

/-- Settles O26: each shape of an end is an update of other fields. -/
theorem commandsNeverModifyTheOperandRegisters :
    Obligations.CommandsNeverModifyTheOperandRegisters := by
  intro i s t h
  obtain ⟨t', ht, hshape⟩ := exec_cases i s
  obtain rfl : t' = t := Host.Outcome.next.inj (ht.symm.trans h)
  obtain ⟨f, info, rfl⟩ | ⟨m, len, aux, rfl⟩ | ⟨-, m, c, len, aux, rfl⟩ := hshape
  · exact s.keepsRest_raise f info
  · constructor <;> rfl
  · constructor <;> rfl

/-- Settles O29: a raise writes nothing, a normal end has ERR = 0, and the third shape is that of
UncorrectableChunk, whose code is 7. -/
theorem faultsArePrecise : Obligations.FaultsArePrecise := by
  intro i s t h herr
  have hrest := commandsNeverModifyTheOperandRegisters i s t h
  obtain ⟨t', ht, hshape⟩ := exec_cases i s
  obtain rfl : t' = t := Host.Outcome.next.inj (ht.symm.trans h)
  obtain ⟨f, info, rfl⟩ | ⟨m, len, aux, rfl⟩ | ⟨-, m, c, len, aux, rfl⟩ := hshape
  · have hcode : (s.raise f info).errcode = f.code := statusFault_errcode f
    rw [hcode]
    exact ⟨statusFault_toNat f, f.code_bounds.1, f.code_bounds.2, hrest, fun _ => ⟨rfl, rfl, rfl⟩⟩
  · simp [State.err] at herr
  · have hcode : (State.raiseKeeping { s with mem := m } .uncorrectableChunk c len aux).errcode =
        7 := statusFault_errcode .uncorrectableChunk
    rw [hcode]
    exact ⟨rfl, by decide, by decide, hrest, fun hne => absurd rfl hne⟩

/-! ### Ends whose checks pass -/

theorem State.afterPairChecks_of_passes {s : State} (h : PairPasses s) (t : State) :
    s.afterPairChecks t = t := by
  obtain ⟨hsrc, hdst, hover⟩ := h
  rw [State.afterPairChecks, if_neg (not_not.2 hsrc), if_neg (not_not.2 hdst), if_neg hover]

theorem State.afterTripleChecks_of_passes {s : State} (h : PairPasses s)
    (hreport : InRange s s.report) (hsrcReport : ¬ Overlapping s.source s.report)
    (hdstReport : ¬ Overlapping s.destination s.report) (t : State) :
    s.afterTripleChecks t = t := by
  obtain ⟨hsrc, hdst, hover⟩ := h
  rw [State.afterTripleChecks, if_neg (not_not.2 hsrc), if_neg (not_not.2 hdst),
    if_neg (not_not.2 hreport), if_neg (not_or.2 ⟨hover, not_or.2 ⟨hsrcReport, hdstReport⟩⟩)]

theorem exec_hash_of_checksPass {s : State} (h : ChecksPass s .hash) :
    exec .hash s = .next s.hashEnd := by
  obtain ⟨hpair, hcap⟩ := h
  refine (exec_hash s).trans (congrArg _ ((State.afterPairChecks_of_passes hpair _).trans ?_))
  exact if_neg (Nat.not_lt.2 hcap)

theorem exec_cbound_of_checksPass {s : State} (h : ChecksPass s .cbound) :
    exec .cbound s = .next (s.finish (cboundFn s.cfg.cbound s.srcLen.toNat) 0) :=
  (exec_cbound s).trans (congrArg _ (if_neg (Nat.not_lt.2 h)))

theorem exec_fsize_of_checksPass {s : State} (h : ChecksPass s .fsize) :
    exec .fsize s = .next (s.finish (255 * chunksOf s.srcLen.toNat) (chunksOf s.srcLen.toNat)) :=
  (exec_fsize s).trans (congrArg _ (if_neg (Nat.not_lt.2 h)))

theorem exec_fenc_of_checksPass {s : State} (h : ChecksPass s .fenc) :
    exec .fenc s = .next ((s.store s.dst (encodedStream s.cfg.primPoly s.sourceBytes)).finish
      (255 * chunksOf s.srcLen.toNat) (chunksOf s.srcLen.toNat)) := by
  obtain ⟨hpair, hsize, hcap⟩ := h
  rw [exec_fenc, State.afterPairChecks_of_passes hpair]
  exact congrArg _ ((if_neg (Nat.not_lt.2 hsize)).trans (if_neg (Nat.not_lt.2 hcap)))

theorem exec_fsyn_of_checksPass {s : State} (h : ChecksPass s .fsyn) :
    exec .fsyn s = .next ((s.store s.dst
      (syndromeStream s.cfg.primPoly (s.srcLen.toNat / 255) s.sourceBytes)).finish
        (32 * (s.srcLen.toNat / 255))
        (dirtyCount s.cfg.primPoly (s.srcLen.toNat / 255) s.sourceBytes)) := by
  obtain ⟨hlen, hpair, hcap⟩ := h
  rw [exec_fsyn, State.afterPairChecks_of_passes hpair]
  exact congrArg _ ((if_neg (not_not.2 hlen)).trans (if_neg (Nat.not_lt.2 hcap)))

theorem exec_fdec_of_checksPass {s : State} (h : ChecksPass s .fdec) :
    exec .fdec s = .next s.fdecEnd := by
  obtain ⟨hlen, hpair, hreport, hsrcReport, hdstReport, hcap, hauxCap⟩ := h
  rw [exec_fdec, State.afterTripleChecks_of_passes hpair hreport hsrcReport hdstReport]
  exact congrArg _ ((if_neg (not_not.2 hlen)).trans
    ((if_neg (Nat.not_lt.2 hcap)).trans (if_neg (Nat.not_lt.2 hauxCap))))

theorem exec_ecnt_of_checksPass {s : State} (h : ChecksPass s .ecnt) :
    exec .ecnt s = .next (s.finish (escCount s.sourceBytes) 0) :=
  (exec_ecnt s).trans (congrArg _ (if_neg (not_not.2 h)))

theorem exec_esc_of_checksPass {s : State} (h : ChecksPass s .esc) :
    exec .esc s = .next ((s.store s.dst (escapeBytes s.sourceBytes)).finish
      (s.srcLen.toNat + escCount s.sourceBytes) (escCount s.sourceBytes)) := by
  obtain ⟨hpair, hsize, hcap⟩ := h
  rw [exec_esc, State.afterPairChecks_of_passes hpair]
  exact congrArg _ ((if_neg (Nat.not_lt.2 hsize)).trans (if_neg (Nat.not_lt.2 hcap)))

theorem exec_unesc_of_pairPasses {s : State} (hpair : PairPasses s) {out : List Byte} {seqs : Nat}
    (hout : unescapeBytes s.sourceBytes = .ok out seqs) (hcap : out.length ≤ s.dstCap.toNat) :
    exec .unesc s = .next ((s.store s.dst out).finish out.length seqs) := by
  rw [exec_unesc, State.afterPairChecks_of_passes hpair, hout, State.unescEnd,
    if_neg (Nat.not_lt.2 hcap)]

/-- Every command but FDEC then ends by `finish`. -/
theorem exec_finishes_of_checksPass {i : Instr} {s : State} (hi : i ≠ .fdec)
    (h : ChecksPass s i) : ∃ (u : State) (len aux : Nat), exec i s = .next (u.finish len aux) := by
  cases i with
  | hash => exact ⟨_, _, _, exec_hash_of_checksPass h⟩
  | cbound => exact ⟨_, _, _, exec_cbound_of_checksPass h⟩
  | fsize => exact ⟨_, _, _, exec_fsize_of_checksPass h⟩
  | fenc => exact ⟨_, _, _, exec_fenc_of_checksPass h⟩
  | fsyn => exact ⟨_, _, _, exec_fsyn_of_checksPass h⟩
  | fdec => exact absurd rfl hi
  | ecnt => exact ⟨_, _, _, exec_ecnt_of_checksPass h⟩
  | esc => exact ⟨_, _, _, exec_esc_of_checksPass h⟩
  | unesc =>
    obtain ⟨hpair, out, seqs, hout, hcap⟩ := h
    exact ⟨_, _, _, exec_unesc_of_pairPasses hpair hout hcap⟩

/-- Settles O24: the run of FDEC tells its two ends apart, every other command finishes. -/
theorem commandsCompleteWhenTheirChecksPass : Obligations.CommandsCompleteWhenTheirChecksPass := by
  intro i s h
  by_cases hi : i = .fdec
  · subst hi
    have hbad : s.fdecRun.firstBad =
        firstUncorrectable s.cfg.primPoly (s.srcLen.toNat / 255) s.sourceBytes := by
      rw [State.fdecRun_eq]
    rw [← hbad]
    refine ⟨_, exec_fdec_of_checksPass h, ?_⟩
    cases hrun : s.fdecRun.firstBad with
    | none => exact .inl ⟨(State.endedNormally_fdecEnd hrun).status, fun _ => rfl⟩
    | some c => exact .inr ⟨rfl, (State.endedUncorrectable_fdecEnd hrun).status, nofun⟩
  · obtain ⟨u, len, aux, hexec⟩ := exec_finishes_of_checksPass hi h
    exact ⟨_, hexec, .inl ⟨statusDone_eq, fun he => absurd he hi⟩⟩

/-- Settles O34: a CBOUND without fault reports the bound itself. -/
theorem soundBoundCoversTheCompressedLength : Obligations.SoundBoundCoversTheCompressedLength := by
  intro s t compress hsound hexec hstatus bytes hlen
  rw [exec_cbound] at hexec
  obtain rfl := Host.Outcome.next.inj hexec
  split_ifs at hstatus ⊢ with hbound
  · exact absurd hstatus (statusFault_ne_done .sizeOverflow)
  · rw [State.finish_resLen, toWord_toNat (Nat.le_of_not_gt hbound), ← hlen]
    exact hsound bytes

/-! ### Every end with its writes (20_memory R70) -/

/-- How command `i` may end from `s`: with a fault that writes nothing, normally with nothing
written, normally with as many bytes written from DST on as it reports, or as FDEC does. -/
inductive EndsBy (i : Instr) (s : State) : State → Prop where
  | raised (f : FaultKind) (info : Nat) : EndsBy i s (s.raise f info)
  | reported (len aux : Nat) : EndsBy i s (s.finish len aux)
  | stored (huses : usesDestination i = true) (hrange : InRange s s.destination) {out : List Byte}
      (hcap : out.length ≤ s.dstCap.toNat) (aux : Nat) :
      EndsBy i s ((s.store s.dst out).finish out.length aux)
  | decoded (hi : i = .fdec) (hdst : InRange s s.destination) (hreport : InRange s s.report)
      (hover : ¬ Overlapping s.destination s.report)
      (hcap : 223 * (s.srcLen.toNat / 255) ≤ s.dstCap.toNat)
      (hauxCap : s.srcLen.toNat / 255 ≤ s.auxCap.toNat) : EndsBy i s s.fdecEnd

theorem EndsBy.ite {i : Instr} {s t u : State} {c : Prop} [Decidable c] (ht : c → EndsBy i s t)
    (hu : ¬ c → EndsBy i s u) : EndsBy i s (if c then t else u) := by
  split_ifs with h
  · exact ht h
  · exact hu h

theorem EndsBy.afterPairChecks {i : Instr} {s t : State}
    (ht : InRange s s.destination → EndsBy i s t) : EndsBy i s (s.afterPairChecks t) :=
  .ite (fun _ => .raised ..) fun _ => .ite (fun _ => .raised ..) fun hdst =>
    .ite (fun _ => .raised ..) fun _ => ht (not_not.1 hdst)

theorem EndsBy.afterTripleChecks {i : Instr} {s t : State}
    (ht : InRange s s.destination → InRange s s.report → ¬ Overlapping s.destination s.report →
      EndsBy i s t) : EndsBy i s (s.afterTripleChecks t) :=
  .ite (fun _ => .raised ..) fun _ => .ite (fun _ => .raised ..) fun hdst =>
    .ite (fun _ => .raised ..) fun hreport => .ite (fun _ => .raised ..) fun hover =>
      ht (not_not.1 hdst) (not_not.1 hreport) fun h => hover (.inr (.inr h))

/-- An end that stores `out`, under the length the command reports. -/
theorem EndsBy.stored_of_length {i : Instr} {s : State} {out : List Byte} {len : Nat}
    (hlen : out.length = len) (hcap : ¬ s.dstCap.toNat < len) (hrange : InRange s s.destination)
    (aux : Nat) (hi : usesDestination i = true) :
    EndsBy i s ((s.store s.dst out).finish len aux) := by
  subst hlen
  exact .stored hi hrange (Nat.le_of_not_lt hcap) aux

/-- What every command's end is, by the checks of its rule. -/
theorem exec_endsBy (i : Instr) (s : State) : ∃ t, exec i s = .next t ∧ EndsBy i s t := by
  cases i with
  | hash =>
    refine ⟨_, exec_hash s, EndsBy.afterPairChecks fun hdst => ?_⟩
    exact .ite (fun _ => .raised ..) fun hcap =>
      .stored_of_length (length_digestFn _ _) hcap hdst _ rfl
  | cbound => exact ⟨_, exec_cbound s, .ite (fun _ => .raised ..) fun _ => .reported ..⟩
  | fsize => exact ⟨_, exec_fsize s, .ite (fun _ => .raised ..) fun _ => .reported ..⟩
  | fenc =>
    refine ⟨_, exec_fenc s, .afterPairChecks fun hdst => ?_⟩
    exact .ite (fun _ => .raised ..) fun _ => .ite (fun _ => .raised ..) fun hcap =>
      .stored_of_length (length_encodedStream s) hcap hdst _ rfl
  | fsyn =>
    refine ⟨_, exec_fsyn s, .ite (fun _ => .raised ..) fun _ => .afterPairChecks fun hdst => ?_⟩
    have hlen := (congrArg List.length (fsynAll_flatten s)).symm.trans (length_fsynAll _ _ _)
    exact .ite (fun _ => .raised ..) fun hcap => .stored_of_length hlen hcap hdst _ rfl
  | fdec =>
    refine ⟨_, exec_fdec s, .ite (fun _ => .raised ..) fun _ =>
      .afterTripleChecks fun hdst hreport hover => ?_⟩
    exact .ite (fun _ => .raised ..) fun hcap => .ite (fun _ => .raised ..) fun hauxCap =>
      .decoded rfl hdst hreport hover (Nat.le_of_not_lt hcap) (Nat.le_of_not_lt hauxCap)
  | ecnt => exact ⟨_, exec_ecnt s, .ite (fun _ => .raised ..) fun _ => .reported ..⟩
  | esc =>
    refine ⟨_, exec_esc s, .afterPairChecks fun hdst => ?_⟩
    have hlen : (escapeBytes s.sourceBytes).length = s.srcLen.toNat + escCount s.sourceBytes := by
      rw [length_escapeBytes, s.length_sourceBytes]
    exact .ite (fun _ => .raised ..) fun _ => .ite (fun _ => .raised ..) fun hcap =>
      .stored_of_length hlen hcap hdst _ rfl
  | unesc =>
    refine ⟨_, exec_unesc s, .afterPairChecks fun hdst => ?_⟩
    cases unescapeBytes s.sourceBytes with
    | malformed i => exact .raised ..
    | ok out seqs =>
      exact .ite (fun _ => .raised ..) fun hcap => .stored_of_length rfl hcap hdst _ rfl

theorem State.fdecEnd_resLen (s : State) :
    s.fdecEnd.resLen.toNat = 223 * (s.srcLen.toNat / 255) := by
  cases hrun : s.fdecRun.firstBad with
  | none => exact (State.endedNormally_fdecEnd hrun).resLen
  | some c => exact (State.endedUncorrectable_fdecEnd hrun).resLen

/-- The bytes that FDEC changes lie where its two stores are. -/
theorem State.mem_of_fdecEnd_changed {s : State} (hover : ¬ Overlapping s.destination s.report)
    (hcap : 223 * (s.srcLen.toNat / 255) ≤ s.dstCap.toNat)
    (hauxCap : s.srcLen.toNat / 255 ≤ s.auxCap.toNat) {a : Nat}
    (hne : s.fdecEnd.mem.read a ≠ s.mem.read a) :
    Within s.dst (223 * (s.srcLen.toNat / 255)) a ∨ Within s.aux (s.srcLen.toNat / 255) a := by
  obtain ⟨⟨-, -, hframe⟩, -⟩ := s.fdecEnd_ends hover hcap hauxCap
  obtain ⟨hout, hreport, -⟩ := s.fdecRun_lengths
  rw [hout, hreport] at hframe
  by_contra h
  simp only [Within] at h
  exact hne (hframe a (by omega) (by omega))

/-- Settles O27, by the writes of each shape of an end. -/
theorem commandsWriteOnlyTheirOutputs : Obligations.CommandsWriteOnlyTheirOutputs := by
  intro i s t h
  obtain ⟨t', ht, hends⟩ := exec_endsBy i s
  obtain rfl : t' = t := Host.Outcome.next.inj (ht.symm.trans h)
  cases hends with
  | raised f info => exact ⟨fun a hne => absurd rfl hne, fun _ => rfl⟩
  | reported len aux => exact ⟨fun a hne => absurd rfl hne, fun _ => rfl⟩
  | @stored huses hrange out hcap aux =>
    refine ⟨fun a hne => .inl ⟨huses, ?_⟩, ?_⟩
    · have hwithin : Within s.dst out.length a := by
        by_contra hout
        simp only [Within] at hout
        exact hne (Memory.read_writeBytes_outside _ _ _ _ (by omega))
      have hword : out.length ≤ Config.maxWord := hcap.trans (Nat.le_of_lt_succ s.dstCap.isLt)
      rw [State.finish_resLen, toWord_toNat hword, Region.has_iff]
      exact ⟨hwithin, hwithin.1, hwithin.2.trans_le (Nat.add_le_add_left hcap _)⟩
    · rintro (rfl | rfl | rfl) <;> cases huses
  | decoded hi hdst hreport hover hcap hauxCap =>
    subst hi
    refine ⟨fun a hne => ?_, nofun⟩
    rw [State.fdecEnd_resLen, Region.has_iff, Region.has_iff]
    refine (State.mem_of_fdecEnd_changed hover hcap hauxCap hne).imp (fun h => ?_) fun h => ?_
    · exact ⟨rfl, h, h.1, h.2.trans_le (Nat.add_le_add_left hcap _)⟩
    · exact ⟨rfl, h, h.1, h.2.trans_le (Nat.add_le_add_left hauxCap _)⟩

/-! ### The same end of two states (00_scope R10) -/

/-- All that a command's end sets: STATUS, the results, and its `MemWrite`s in order. -/
structure CommandEnd where
  status : Word
  resLen : Word
  resAux : Word
  errInfo : Word
  writes : List (Word × List Byte)

/-- `MemWrite`s in order. -/
def Memory.writeAll (m : Memory) (ws : List (Word × List Byte)) : Memory :=
  ws.foldl (fun m w => m.writeBytes w.1.toNat w.2) m

/-- The state that `e` ends. -/
def State.endedWith (s : State) (e : CommandEnd) : State :=
  { s with status := e.status, resLen := e.resLen, resAux := e.resAux, errInfo := e.errInfo,
           mem := s.mem.writeAll e.writes }

/-- The two commands ended in the same way. -/
def SameEnd (s1 s2 t1 t2 : State) : Prop :=
  ∃ e : CommandEnd, t1 = s1.endedWith e ∧ t2 = s2.endedWith e

theorem sameEnd_raise (s1 s2 : State) (f : FaultKind) (info : Nat) :
    SameEnd s1 s2 (s1.raise f info) (s2.raise f info) :=
  ⟨⟨statusFault f.code, toWord 0, toWord 0, toWord info, []⟩, rfl, rfl⟩

theorem sameEnd_finish (s1 s2 : State) (len aux : Nat) :
    SameEnd s1 s2 (s1.finish len aux) (s2.finish len aux) :=
  ⟨⟨statusDone, toWord len, toWord aux, 0, []⟩, rfl, rfl⟩

theorem sameEnd_finish_store (s1 s2 : State) (base : Word) (out : List Byte) (len aux : Nat) :
    SameEnd s1 s2 ((s1.store base out).finish len aux) ((s2.store base out).finish len aux) :=
  ⟨⟨statusDone, toWord len, toWord aux, 0, [(base, out)]⟩, rfl, rfl⟩

theorem sameEnd_ite {s1 s2 t1 t2 u1 u2 : State} {c1 c2 : Prop} [Decidable c1] [Decidable c2]
    (hc : c1 ↔ c2) (ht : SameEnd s1 s2 t1 t2) (hu : SameEnd s1 s2 u1 u2) :
    SameEnd s1 s2 (if c1 then t1 else u1) (if c2 then t2 else u2) := by
  by_cases h : c1
  · rwa [if_pos h, if_pos (hc.1 h)]
  · rwa [if_neg h, if_neg (hc.not.1 h)]

/-- Whatever is written, a byte is left alone in both memories or becomes the same in both. -/
theorem Memory.read_writeAll (m1 m2 : Memory) (ws : List (Word × List Byte)) (a : Nat) :
    ((m1.writeAll ws).read a = m1.read a ∧ (m2.writeAll ws).read a = m2.read a) ∨
      (m1.writeAll ws).read a = (m2.writeAll ws).read a := by
  induction ws using List.reverseRecOn with
  | nil => exact .inl ⟨rfl, rfl⟩
  | append_singleton ws w ih =>
    have hlast (m : Memory) : m.writeAll (ws ++ [w]) = (m.writeAll ws).writeBytes w.1.toNat w.2 :=
      List.foldl_concat ..
    rw [hlast, hlast]
    by_cases hin : w.1.toNat ≤ a ∧ a < w.1.toNat + w.2.length
    · obtain ⟨i, rfl⟩ := Nat.exists_eq_add_of_le hin.1
      have hi : i < w.2.length := by omega
      exact .inr ((Memory.read_writeBytes_inside _ _ _ i hi).trans
        (Memory.read_writeBytes_inside _ _ _ i hi).symm)
    · have hout : a < w.1.toNat ∨ w.1.toNat + w.2.length ≤ a := by omega
      rwa [Memory.read_writeBytes_outside _ _ _ _ hout, Memory.read_writeBytes_outside _ _ _ _ hout]

/-- Two states with the same configuration and SRC_LEN that agree on what command `i` uses. -/
structure SameUse (i : Instr) (s1 s2 : State) : Prop where
  cfg : s1.cfg = s2.cfg
  srcLen : s1.srcLen = s2.srcLen
  source : usesSource i = true → s1.source = s2.source ∧ s1.sourceBytes = s2.sourceBytes
  destination : usesDestination i = true → s1.destination = s2.destination
  report : usesReport i = true → s1.report = s2.report

/-- The source bytes are the bytes of the source region. -/
theorem State.sourceBytes_congr {s1 s2 : State} (hsource : s1.source = s2.source)
    (h : ∀ a, s1.source.has a = true → s1.mem.read a = s2.mem.read a) :
    s1.sourceBytes = s2.sourceBytes := by
  obtain ⟨hsrc, hlen⟩ := Region.mk.inj hsource
  rw [State.sourceBytes, State.sourceBytes, ← hsrc, ← hlen]
  exact Memory.readBytes_congr _ _ _ _ fun x h1 h2 => h x ((Region.has_iff _ x).2 ⟨h1, h2⟩)

theorem inRange_congr {s1 s2 : State} (hcfg : s1.cfg = s2.cfg) {r1 r2 : Region} (hr : r1 = r2) :
    InRange s1 r1 ↔ InRange s2 r2 := by
  rw [InRange, InRange, hcfg, hr]

theorem sameEnd_afterPairChecks {s1 s2 t1 t2 : State} (hcfg : s1.cfg = s2.cfg)
    (hsource : s1.source = s2.source) (hdst : s1.destination = s2.destination)
    (ht : SameEnd s1 s2 t1 t2) :
    SameEnd s1 s2 (s1.afterPairChecks t1) (s2.afterPairChecks t2) :=
  sameEnd_ite (inRange_congr hcfg hsource).not (sameEnd_raise ..) <|
    sameEnd_ite (inRange_congr hcfg hdst).not (sameEnd_raise ..) <|
    sameEnd_ite (by rw [hsource, hdst]) (sameEnd_raise ..) ht

theorem sameEnd_afterTripleChecks {s1 s2 t1 t2 : State} (hcfg : s1.cfg = s2.cfg)
    (hsource : s1.source = s2.source) (hdst : s1.destination = s2.destination)
    (hreport : s1.report = s2.report) (ht : SameEnd s1 s2 t1 t2) :
    SameEnd s1 s2 (s1.afterTripleChecks t1) (s2.afterTripleChecks t2) :=
  sameEnd_ite (inRange_congr hcfg hsource).not (sameEnd_raise ..) <|
    sameEnd_ite (inRange_congr hcfg hdst).not (sameEnd_raise ..) <|
    sameEnd_ite (inRange_congr hcfg hreport).not (sameEnd_raise ..) <|
    sameEnd_ite (by rw [hsource, hdst, hreport]) (sameEnd_raise ..) ht

theorem sameEnd_fdecEnd {s1 s2 : State} (hrun : s1.fdecRun = s2.fdecRun)
    (hlen : s1.srcLen = s2.srcLen) (hdst : s1.dst = s2.dst) (haux : s1.aux = s2.aux) :
    SameEnd s1 s2 s1.fdecEnd s2.fdecEnd := by
  rw [State.fdecEnd, State.fdecEnd, hrun, hlen, hdst, haux]
  cases s2.fdecRun.firstBad with
  | none =>
    exact ⟨⟨statusDone, toWord (223 * (s2.srcLen.toNat / 255)), toWord s2.fdecRun.total, 0,
      [(s2.dst, s2.fdecRun.out), (s2.aux, s2.fdecRun.report)]⟩, rfl, rfl⟩
  | some c =>
    exact ⟨⟨statusFault FaultKind.uncorrectableChunk.code, toWord (223 * (s2.srcLen.toNat / 255)),
      toWord s2.fdecRun.total, toWord c,
      [(s2.dst, s2.fdecRun.out), (s2.aux, s2.fdecRun.report)]⟩, rfl, rfl⟩

theorem sameEnd_unescEnd {s1 s2 : State} (hdst : s1.destination = s2.destination)
    (r : UnescapeResult) : SameEnd s1 s2 (s1.unescEnd r) (s2.unescEnd r) := by
  obtain ⟨hbase, hcap⟩ := Region.mk.inj hdst
  cases r with
  | malformed i => exact sameEnd_raise ..
  | ok out seqs =>
    rw [State.unescEnd, State.unescEnd, hcap, hbase]
    exact sameEnd_ite Iff.rfl (sameEnd_raise ..) (sameEnd_finish_store ..)

/-- Each command's rule looks only at what the command uses. -/
theorem exec_sameEnd {i : Instr} {s1 s2 : State} (h : SameUse i s1 s2) :
    ∃ t1 t2, exec i s1 = .next t1 ∧ exec i s2 = .next t2 ∧ SameEnd s1 s2 t1 t2 := by
  obtain ⟨hcfg, hlen, hsource, hdst, hreport⟩ := h
  cases i with
  | hash =>
    obtain ⟨hsource, hbytes⟩ := hsource rfl
    refine ⟨_, _, exec_hash s1, exec_hash s2, sameEnd_afterPairChecks hcfg hsource (hdst rfl) ?_⟩
    obtain ⟨hbase, hcap⟩ := Region.mk.inj (hdst rfl)
    rw [hcap, State.hashEnd, State.hashEnd, hbase, hcfg, hbytes]
    exact sameEnd_ite Iff.rfl (sameEnd_raise ..) (sameEnd_finish_store ..)
  | cbound =>
    refine ⟨_, _, exec_cbound s1, exec_cbound s2, ?_⟩
    rw [hcfg, hlen]
    exact sameEnd_ite Iff.rfl (sameEnd_raise ..) (sameEnd_finish ..)
  | fsize =>
    refine ⟨_, _, exec_fsize s1, exec_fsize s2, ?_⟩
    rw [hlen]
    exact sameEnd_ite Iff.rfl (sameEnd_raise ..) (sameEnd_finish ..)
  | fenc =>
    obtain ⟨hsource, hbytes⟩ := hsource rfl
    refine ⟨_, _, exec_fenc s1, exec_fenc s2, sameEnd_afterPairChecks hcfg hsource (hdst rfl) ?_⟩
    obtain ⟨hbase, hcap⟩ := Region.mk.inj (hdst rfl)
    rw [hcap, hbase, hcfg, hbytes, hlen]
    exact sameEnd_ite Iff.rfl (sameEnd_raise ..) <|
      sameEnd_ite Iff.rfl (sameEnd_raise ..) (sameEnd_finish_store ..)
  | fsyn =>
    obtain ⟨hsource, hbytes⟩ := hsource rfl
    refine ⟨_, _, exec_fsyn s1, exec_fsyn s2, ?_⟩
    obtain ⟨hbase, hcap⟩ := Region.mk.inj (hdst rfl)
    rw [hcap, hbase, hcfg, hbytes, hlen]
    exact sameEnd_ite Iff.rfl (sameEnd_raise ..) <|
      sameEnd_afterPairChecks hcfg hsource (hdst rfl) <|
      sameEnd_ite Iff.rfl (sameEnd_raise ..) (sameEnd_finish_store ..)
  | fdec =>
    obtain ⟨hsource, hbytes⟩ := hsource rfl
    refine ⟨_, _, exec_fdec s1, exec_fdec s2, ?_⟩
    obtain ⟨hbase, hcap⟩ := Region.mk.inj (hdst rfl)
    obtain ⟨haux, hauxCap⟩ := Region.mk.inj (hreport rfl)
    have hrun : s1.fdecRun = s2.fdecRun := by rw [State.fdecRun, State.fdecRun, hcfg, hlen, hbytes]
    have hend := sameEnd_fdecEnd hrun hlen hbase haux
    rw [hcap, hauxCap, hlen]
    exact sameEnd_ite Iff.rfl (sameEnd_raise ..) <|
      sameEnd_afterTripleChecks hcfg hsource (hdst rfl) (hreport rfl) <|
      sameEnd_ite Iff.rfl (sameEnd_raise ..) (sameEnd_ite Iff.rfl (sameEnd_raise ..) hend)
  | ecnt =>
    obtain ⟨hsource, hbytes⟩ := hsource rfl
    refine ⟨_, _, exec_ecnt s1, exec_ecnt s2, ?_⟩
    rw [hbytes]
    exact sameEnd_ite (inRange_congr hcfg hsource).not (sameEnd_raise ..) (sameEnd_finish ..)
  | esc =>
    obtain ⟨hsource, hbytes⟩ := hsource rfl
    refine ⟨_, _, exec_esc s1, exec_esc s2, sameEnd_afterPairChecks hcfg hsource (hdst rfl) ?_⟩
    obtain ⟨hbase, hcap⟩ := Region.mk.inj (hdst rfl)
    rw [hcap, hbase, hbytes, hlen]
    exact sameEnd_ite Iff.rfl (sameEnd_raise ..) <|
      sameEnd_ite Iff.rfl (sameEnd_raise ..) (sameEnd_finish_store ..)
  | unesc =>
    obtain ⟨hsource, hbytes⟩ := hsource rfl
    refine ⟨_, _, exec_unesc s1, exec_unesc s2, ?_⟩
    rw [hbytes]
    exact sameEnd_afterPairChecks hcfg hsource (hdst rfl) (sameEnd_unescEnd (hdst rfl) _)

/-- Settles O28: both states are ended by the same `CommandEnd`. -/
theorem commandsArePureFunctionsOfOperandsAndSource :
    Obligations.CommandsArePureFunctionsOfOperandsAndSource := by
  intro i s1 s2 t1 t2 hcfg hlen hsource hdst hreport h1 h2
  have huse : SameUse i s1 s2 :=
    { cfg := hcfg
      srcLen := hlen
      source := fun hi => by
        obtain ⟨hsrc, hbytes⟩ := hsource hi
        have hregion : s1.source = s2.source := congrArg₂ Region.mk hsrc hlen
        exact ⟨hregion, State.sourceBytes_congr hregion hbytes⟩
      destination := fun hi => congrArg₂ Region.mk (hdst hi).1 (hdst hi).2
      report := fun hi => congrArg₂ Region.mk (hreport hi).1 (hreport hi).2 }
  obtain ⟨u1, u2, hu1, hu2, e, rfl, rfl⟩ := exec_sameEnd huse
  obtain rfl := Host.Outcome.next.inj (hu1.symm.trans h1)
  obtain rfl := Host.Outcome.next.inj (hu2.symm.trans h2)
  exact ⟨rfl, rfl, rfl, rfl, Memory.read_writeAll s1.mem s2.mem e.writes⟩

end Sys2Proof.Machine
end

section
/-! PROOFS. One command on what another wrote (95 part 4): UNESC after ESC, FSYN and FDEC after
FENC, and what FSYN and ECNT foretell of FDEC and ESC on the same source. -/

namespace Sys2Proof.Machine

/-! ### A command that ended without fault passed its checks -/

theorem State.afterPairChecks_done {s t : State} (h : (s.afterPairChecks t).status = 0x00000002) :
    PairPasses s ∧ t.status = 0x00000002 := by
  rw [State.afterPairChecks] at h
  split_ifs at h with hsrc hdst hover
  · exact absurd h (statusFault_ne_done _)
  · exact ⟨⟨hsrc, hdst, hover⟩, h⟩
  · exact absurd h (statusFault_ne_done _)
  · exact absurd h (statusFault_ne_done _)

/-- Two checks that raise before an end. -/
theorem passes_of_done {s t u : State} {f g : FaultKind} {i j : Nat} {c d : Prop} [Decidable c]
    [Decidable d] (ht : t.status = 0x00000002)
    (h : t = if c then s.raise f i else if d then s.raise g j else u) : ¬ c ∧ ¬ d := by
  subst h
  split_ifs at ht with hc hd
  · exact absurd ht (statusFault_ne_done f)
  · exact absurd ht (statusFault_ne_done g)
  · exact ⟨hc, hd⟩

theorem checksPass_fenc_of_done {s t : State} (hexec : exec .fenc s = .next t)
    (hstatus : t.status = 0x00000002) : ChecksPass s .fenc := by
  rw [exec_fenc] at hexec
  obtain rfl := Host.Outcome.next.inj hexec
  obtain ⟨hpair, hdone⟩ := State.afterPairChecks_done hstatus
  obtain ⟨hsize, hcap⟩ := passes_of_done hdone rfl
  exact ⟨hpair, Nat.le_of_not_gt hsize, Nat.le_of_not_lt hcap⟩

theorem checksPass_esc_of_done {s t : State} (hexec : exec .esc s = .next t)
    (hstatus : t.status = 0x00000002) : ChecksPass s .esc := by
  rw [exec_esc] at hexec
  obtain rfl := Host.Outcome.next.inj hexec
  obtain ⟨hpair, hdone⟩ := State.afterPairChecks_done hstatus
  obtain ⟨hsize, hcap⟩ := passes_of_done hdone rfl
  exact ⟨hpair, Nat.le_of_not_gt hsize, Nat.le_of_not_lt hcap⟩

/-! ### A source region that holds what was stored -/

theorem State.getD_sourceBytes (s : State) {i : Nat} (hi : i < s.srcLen.toNat) :
    s.sourceBytes.getD i 0 = s.mem.read (s.src.toNat + i) :=
  Memory.getD_readBytes _ _ _ _ hi

theorem State.sourceBytes_eq {u : State} {out : List Byte} (hlen : u.srcLen.toNat = out.length)
    (hread : ∀ i, i < out.length → u.mem.read (u.src.toNat + i) = out.getD i 0) :
    u.sourceBytes = out := by
  refine List.ext_getElem (u.length_sourceBytes.trans hlen) fun i hi hi' => ?_
  rw [← List.getD_eq_getElem _ 0 hi, ← List.getD_eq_getElem _ 0 hi',
    u.getD_sourceBytes (hi'.trans_eq hlen.symm), hread i hi']

/-! ### ESC, UNESC and ECNT (95 part 4, properties 1 and 3) -/

/-- ESC without fault, in the terms of the statements. -/
theorem esc_done {s t : State} (hexec : exec .esc s = .next t) (hstatus : t.status = 0x00000002) :
    EndedNormally s t (escapeBytes s.sourceBytes).length (escCount s.sourceBytes) ∧
      Stored s t s.dst.toNat (escapeBytes s.sourceBytes) := by
  have hchecks := checksPass_esc_of_done hexec hstatus
  obtain rfl := Host.Outcome.next.inj ((exec_esc_of_checksPass hchecks).symm.trans hexec)
  rw [length_escapeBytes, s.length_sourceBytes]
  exact ⟨s.endedNormally_finish_store s.dst _ hchecks.2.1 s.escCount_le,
    s.stored_finish_store s.dst _ _ _⟩

/-- Settles O59: UNESC's source bytes are the escaped stream, and `Unescape` inverts `Escape`. -/
theorem unescOfEscOutputRestoresTheSource : Obligations.UnescOfEscOutputRestoresTheSource := by
  intro s t u hexec hstatus hcfg hmem hsrc hlen hpair hcap
  obtain ⟨hend, hstored, -⟩ := esc_done hexec hstatus
  have hbytes : u.sourceBytes = escapeBytes s.sourceBytes := by
    refine State.sourceBytes_eq (by rw [hlen, hend.resLen]) fun i hi => ?_
    rw [hmem, hsrc, hend.rest.dst, hstored i hi]
  have hunescape : unescapeBytes u.sourceBytes = .ok s.sourceBytes (escCount s.sourceBytes) := by
    rw [hbytes, unescapeBytes_escapeBytes]
  have hword : s.sourceBytes.length ≤ Config.maxWord := by
    rw [s.length_sourceBytes]
    exact Nat.le_of_lt_succ s.srcLen.isLt
  refine ⟨_, exec_unesc_of_pairPasses hpair hunescape (by rwa [s.length_sourceBytes]), ?_, ?_⟩
  · rw [hend.resAux, ← s.length_sourceBytes]
    exact u.endedNormally_finish_store u.dst _ hword s.escCount_le
  · intro i hi
    rw [← s.getD_sourceBytes hi]
    exact (u.stored_finish_store u.dst _ _ _).1 i (by rwa [s.length_sourceBytes])

/-- Settles O58: ECNT's one check is among those of ESC, and both count the same bytes. -/
theorem escLengthIsSourcePlusEcnt : Obligations.EscLengthIsSourcePlusEcnt := by
  intro s u t v hcfg hmem hsrc hlen hecnt hesc hstatus
  have hchecks := checksPass_esc_of_done hesc hstatus
  obtain ⟨hend, -⟩ := esc_done hesc hstatus
  have hregion : u.source = s.source := congrArg₂ Region.mk hsrc hlen
  have hbytes : u.sourceBytes = s.sourceBytes :=
    State.sourceBytes_congr hregion fun a _ => by rw [hmem]
  have hu : ChecksPass u .ecnt := (inRange_congr hcfg hregion).2 hchecks.1.1
  obtain rfl := Host.Outcome.next.inj ((exec_ecnt_of_checksPass hu).symm.trans hecnt)
  have hcount : (toWord (escCount u.sourceBytes)).toNat = escCount s.sourceBytes := by
    rw [hbytes, toWord_toNat s.escCount_le]
  refine ⟨statusDone_eq, ?_, BitVec.eq_of_toNat_eq ?_⟩
  · rw [hend.resLen, State.finish_resLen, hcount, length_escapeBytes, s.length_sourceBytes]
  · rw [hend.resAux, State.finish_resLen, hcount]

/-! ### Streams of blocks of one length -/

theorem length_flatMap_range {n k : Nat} {f : Nat → List Byte}
    (hlen : ∀ c < k, (f c).length = n) : ((List.range k).flatMap f).length = n * k := by
  rw [List.flatMap_def, length_flatten_of_all (n := n), List.length_map, List.length_range]
  intro l hl
  obtain ⟨c, hc, rfl⟩ := List.mem_map.1 hl
  exact hlen c (List.mem_range.1 hc)

/-- Byte `i` of block `c`. -/
theorem getD_flatMap_range {n k : Nat} {f : Nat → List Byte} (hlen : ∀ c < k, (f c).length = n)
    {c i : Nat} (hc : c < k) (hi : i < n) :
    ((List.range k).flatMap f).getD (n * c + i) 0 = (f c).getD i 0 := by
  induction k with
  | zero => exact absurd hc (Nat.not_lt_zero c)
  | succ k ih =>
    have hlen' : ∀ c < k, (f c).length = n := fun c hc => hlen c (Nat.lt_succ_of_lt hc)
    have htotal := length_flatMap_range hlen'
    rw [List.range_succ, List.flatMap_append, List.flatMap_singleton]
    obtain hlt | rfl := Nat.lt_succ_iff_lt_or_eq.1 hc
    · have hin : n * c + i < n * k :=
        (Nat.add_lt_add_left hi _).trans_le (Nat.mul_le_mul_left n hlt)
      rw [List.getD_append _ _ _ _ (hin.trans_eq htotal.symm), ih hlen' hlt]
    · rw [List.getD_append_right _ _ _ _ (by omega), htotal, Nat.add_sub_cancel_left]

@[simp] theorem length_codewordAt (src : List Byte) (c : Nat) :
    (codewordAt src c).length = 255 := by
  rw [codewordAt, List.length_map, List.length_range, Config.rsN]

theorem getD_codewordAt (src : List Byte) (c : Nat) {i : Nat} (hi : i < 255) :
    (codewordAt src c).getD i 0 = src.getD (255 * c + i) 0 := by
  rw [List.getD_eq_getElem _ _ (by rwa [length_codewordAt])]
  simp only [codewordAt, List.getElem_map, List.getElem_range, Config.rsN]

@[simp] theorem length_chunkAt (src : List Byte) (c : Nat) : (chunkAt src c).length = 223 := by
  rw [chunkAt, List.length_map, List.length_range, Config.rsK]

theorem getD_chunkAt (src : List Byte) (c : Nat) {i : Nat} (hi : i < 223) :
    (chunkAt src c).getD i 0 =
      if 223 * c + i < src.length then src.getD (223 * c + i) 0 else 0 := by
  rw [List.getD_eq_getElem _ _ (by rwa [length_chunkAt])]
  simp only [chunkAt, List.getElem_map, List.getElem_range, Config.rsK]

theorem eq_of_getD {n : Nat} {a b : List Byte} (ha : a.length = n) (hb : b.length = n)
    (h : ∀ i < n, a.getD i 0 = b.getD i 0) : a = b := by
  refine List.ext_getElem (ha.trans hb.symm) fun i hi hi' => ?_
  rw [← List.getD_eq_getElem _ 0 hi, ← List.getD_eq_getElem _ 0 hi', h i (hi.trans_eq ha)]

/-- Codeword `c` of FENC's output is that of chunk `c`. -/
theorem codewordAt_encodedStream (poly : PrimPoly) (src : List Byte) {c : Nat}
    (hc : c < chunksOf src.length) :
    codewordAt (encodedStream poly src) c = rsEncode poly (chunkAt src c) := by
  have hlen (c : Nat) : (rsEncode poly (chunkAt src c)).length = 255 := by
    rw [length_rsEncode, length_chunkAt, Config.nroots]
  refine eq_of_getD (length_codewordAt _ _) (hlen c) fun i hi => ?_
  rw [getD_codewordAt _ _ hi]
  exact getD_flatMap_range (fun c _ => hlen c) hc hi

/-- FENC without fault, in the terms of the statements. -/
theorem fenc_done {s t : State} (hexec : exec .fenc s = .next t)
    (hstatus : t.status = 0x00000002) :
    EndedNormally s t (255 * chunksOf s.srcLen.toNat) (chunksOf s.srcLen.toNat) ∧
      Stored s t s.dst.toNat (encodedStream s.cfg.primPoly s.sourceBytes) := by
  have hchecks := checksPass_fenc_of_done hexec hstatus
  have hsize : 255 * chunksOf s.srcLen.toNat ≤ Config.maxWord := hchecks.2.1
  obtain rfl := Host.Outcome.next.inj ((exec_fenc_of_checksPass hchecks).symm.trans hexec)
  exact ⟨s.endedNormally_finish_store s.dst _ hsize (by omega), s.stored_finish_store s.dst _ _ _⟩

/-! ### FSYN after FENC (95 part 4, property 5) -/

/-- No codeword is dirty iff every one is a codeword. -/
theorem dirtyCount_eq_zero_iff {poly : PrimPoly} {k : Nat} {src : List Byte} :
    dirtyCount poly k src = 0 ↔ ∀ c < k, IsCodeword poly (codewordAt src c) := by
  rw [dirtyCount, List.countP_eq_zero]
  simp [IsCodeword, allZero_iff, Config.rsN]

/-- Then FSYN writes zeros only. -/
theorem getD_syndromeStream_of_clean {poly : PrimPoly} {k : Nat} {src : List Byte}
    (h : ∀ c < k, IsCodeword poly (codewordAt src c)) (i : Nat) :
    (syndromeStream poly k src).getD i 0 = 0 := by
  by_cases hi : i < (syndromeStream poly k src).length
  · rw [List.getD_eq_getElem _ _ hi]
    obtain ⟨c, hc, hx⟩ := List.mem_flatMap.1 (List.getElem_mem hi)
    exact (h c (List.mem_range.1 hc)).2 _ hx
  · exact List.getD_eq_default _ _ (Nat.le_of_not_lt hi)

/-- Settles O49: each codeword FSYN reads is one the encoder made. -/
theorem fsynOfFencOutputIsZero : Obligations.FsynOfFencOutputIsZero := by
  intro s t u hprim hexec hstatus hcfg hmem hsrc hlen hpair hcap
  have htop := getLsbD_eight_of_gfprimitive hprim
  obtain ⟨hend, hstored, -⟩ := fenc_done hexec hstatus
  have hstream := length_encodedStream s
  have hk : u.srcLen.toNat = 255 * chunksOf s.srcLen.toNat := by rw [hlen, hend.resLen]
  have hdiv : u.srcLen.toNat / 255 = chunksOf s.srcLen.toNat := by omega
  have hpoly : u.cfg.primPoly = s.cfg.primPoly := by rw [hcfg, hend.rest.cfg]
  have hbytes : u.sourceBytes = encodedStream s.cfg.primPoly s.sourceBytes := by
    refine State.sourceBytes_eq (hk.trans hstream.symm) fun i hi => ?_
    rw [hmem, hsrc, hend.rest.dst, hstored i hi]
  have hclean : ∀ c < chunksOf s.srcLen.toNat,
      IsCodeword u.cfg.primPoly (codewordAt u.sourceBytes c) := by
    intro c hc
    rw [hbytes, hpoly, codewordAt_encodedStream _ _ (by rwa [s.length_sourceBytes])]
    exact isCodeword_rsEncode htop (length_chunkAt _ _)
  have hdirty := dirtyCount_eq_zero_iff.2 hclean
  rw [hend.resAux] at hcap ⊢
  have hchecks : ChecksPass u .fsyn := by
    refine ⟨?_, hpair, ?_⟩ <;> simp only [Config.rsN, Config.synBytes] <;> omega
  have hword := u.codewords_le
  refine ⟨_, exec_fsyn_of_checksPass hchecks, ?_, ?_⟩
  · rw [hdiv, hdirty]
    exact u.endedNormally_finish_store u.dst _ (by omega) (by decide)
  · rintro a ⟨hle, hlt⟩
    obtain ⟨i, rfl⟩ := Nat.exists_eq_add_of_le hle
    have hlength := (congrArg List.length (fsynAll_flatten u)).symm.trans (length_fsynAll _ _ _)
    simp only [Config.synBytes] at hlength
    rw [(u.stored_finish_store u.dst _ _ _).1 i (by omega)]
    exact getD_syndromeStream_of_clean (hdiv ▸ hclean) i

/-! ### FDEC after FENC (95 part 4, property 6) -/

theorem getD_take {l : List Byte} {n i : Nat} (hi : i < n) : (l.take n).getD i 0 = l.getD i 0 := by
  rw [List.getD_eq_getElem?_getD, List.getElem?_take_of_lt hi, List.getD_eq_getElem?_getD]

/-- What FDEC's run is where every received word is corrected, word `c` to `cw c` with `e c`
changes. -/
theorem State.fdecRun_of_corrected {u : State} {cw : Nat → List Byte} {e : Nat → Nat}
    (hdecode : ∀ c < u.srcLen.toNat / 255,
      decodeCW u.cfg.primPoly (codewordAt u.sourceBytes c) = .corrected (cw c) (e c)) :
    u.fdecRun =
      { out := (List.range (u.srcLen.toNat / 255)).flatMap fun c => (cw c).take 223,
        report := (List.range (u.srcLen.toNat / 255)).map fun c => BitVec.ofNat _ (e c),
        total := ((List.range (u.srcLen.toNat / 255)).map e).sum,
        firstBad := none } := by
  have hmap {α : Type} {f g : Nat → α}
      (h : ∀ c < u.srcLen.toNat / 255, f c = g c) :
      (List.range (u.srcLen.toNat / 255)).map f = (List.range (u.srcLen.toNat / 255)).map g :=
    List.map_congr_left fun c hc => h c (List.mem_range.1 hc)
  rw [State.fdecRun_eq, List.flatMap_def, List.flatMap_def]
  refine congr (congr (congr (congrArg FdecRun.mk ?out) ?report) ?total) ?bad
  case out => exact congrArg _ (hmap fun c hc => by rw [decodedMessage, hdecode c hc, Config.rsK])
  case report => exact hmap fun c hc => by rw [reportByte, hdecode c hc]
  case total => exact congrArg _ (hmap fun c hc => by rw [correctedSymbols, hdecode c hc])
  case bad =>
    refine List.find?_eq_none.2 fun c hc => ?_
    rw [hdecode c (List.mem_range.1 hc), decide_eq_true_iff]
    exact nofun

/-- Such an FDEC ends normally, with the first 223 bytes of each corrected word and the counts of
changes. -/
theorem State.fdecEnd_of_corrected {u : State} (hchecks : ChecksPass u .fdec)
    {cw : Nat → List Byte} {e : Nat → Nat}
    (hdecode : ∀ c < u.srcLen.toNat / 255,
      decodeCW u.cfg.primPoly (codewordAt u.sourceBytes c) = .corrected (cw c) (e c)) :
    EndedNormally u u.fdecEnd (223 * (u.srcLen.toNat / 255))
        (((List.range (u.srcLen.toNat / 255)).map e).sum) ∧
      ∀ c < u.srcLen.toNat / 255,
        (∀ i < 223, u.fdecEnd.mem.read (u.dst.toNat + (223 * c + i)) = (cw c).getD i 0) ∧
        u.fdecEnd.mem.read (u.aux.toNat + c) = BitVec.ofNat _ (e c) := by
  obtain ⟨-, -, -, -, hover, hcap, hauxCap⟩ := hchecks
  obtain ⟨hout, hreport, -⟩ := u.fdecRun_lengths
  have hends := u.fdecEnd_ends hover hcap hauxCap
  rw [State.fdecRun_of_corrected hdecode] at hends hout hreport
  obtain ⟨⟨houtRead, hreportRead, -⟩, hnormal, -⟩ := hends
  refine ⟨hnormal rfl, fun c hc => ⟨fun i hi => ?_, ?_⟩⟩
  · rw [houtRead _ (by rw [hout]; omega)]
    refine (getD_flatMap_range (fun c hc => ?_) hc hi).trans (getD_take hi)
    obtain ⟨hlen, -⟩ := decodeCW_corrected_length (hdecode c hc)
    rw [List.length_take, hlen, length_codewordAt]
    rfl
  · rw [hreportRead c (by rwa [hreport]), List.getD_eq_getElem _ _ (by rwa [hreport]),
      List.getElem_map, List.getElem_range]

/-- Settles O50: each received word is within 16 changes of a codeword the encoder made, so it is
corrected to that codeword, whose first 223 bytes are the chunk. -/
theorem fdecOfFencOutputReturnsTheSource : Obligations.FdecOfFencOutputReturnsTheSource := by
  intro s t u hprim hexec hstatus hcfg hlen hchecks changed hchanged
  have htop := getLsbD_eight_of_gfprimitive hprim
  obtain ⟨hend, hstored, -⟩ := fenc_done hexec hstatus
  have hk : u.srcLen.toNat = 255 * chunksOf s.srcLen.toNat := by rw [hlen, hend.resLen]
  have hdiv : u.srcLen.toNat / 255 = chunksOf s.srcLen.toNat := by omega
  have hpoly : u.cfg.primPoly = s.cfg.primPoly := by rw [hcfg, hend.rest.cfg]
  have hstream := length_encodedStream s
  rw [hend.resAux, ← hdiv] at hchanged ⊢
  have hdecode : ∀ c < u.srcLen.toNat / 255,
      decodeCW u.cfg.primPoly (codewordAt u.sourceBytes c) =
        .corrected (rsEncode s.cfg.primPoly (chunkAt s.sourceBytes c)) (changed c) := by
    intro c hc
    have hword := isCodeword_rsEncode htop (length_chunkAt s.sourceBytes c)
    have hdist : dist (codewordAt u.sourceBytes c)
        (rsEncode s.cfg.primPoly (chunkAt s.sourceBytes c)) = changed c := by
      rw [← codewordAt_encodedStream _ _ (by rw [s.length_sourceBytes]; omega),
        dist_eq_countP_range (by rw [length_codewordAt, length_codewordAt]), length_codewordAt]
      refine List.countP_congr fun i hi => ?_
      have hi := List.mem_range.1 hi
      rw [getD_codewordAt _ _ hi, getD_codewordAt _ _ hi, u.getD_sourceBytes (by omega),
        ← hstored (255 * c + i) (by omega), hend.rest.dst, Nat.add_assoc, Nat.add_assoc]
    have hle : dist (codewordAt u.sourceBytes c)
        (rsEncode s.cfg.primPoly (chunkAt s.sourceBytes c)) ≤ 16 := hdist.trans_le (hchanged c hc)
    rw [hpoly, decodeCW_of_dist_le hprim (length_codewordAt _ _) hword hle, hdist]
  obtain ⟨hnormal, hread⟩ := State.fdecEnd_of_corrected hchecks hdecode
  refine ⟨_, exec_fdec_of_checksPass hchecks, hnormal, fun i hi => ?_, fun c hc => ?_⟩
  · obtain ⟨hmessage, -⟩ := hread (i / 223) (by omega)
    have hbyte := hmessage (i % 223) (by omega)
    rw [Nat.div_add_mod] at hbyte
    rw [hbyte, ← getD_take (Nat.mod_lt i (by decide)), take_rsEncode _ (length_chunkAt _ _),
      getD_chunkAt _ _ (Nat.mod_lt i (by decide)), Nat.div_add_mod, s.length_sourceBytes]
    exact ite_congr rfl (fun h => s.getD_sourceBytes h) fun _ => rfl
  · have hle := hchanged c hc
    rw [(hread c hc).2, BitVec.toNat_ofNat, Nat.mod_eq_of_lt (by omega)]

/-! ### FDEC and FSYN on one source (95 part 4, property 7) -/

/-- A received word is corrected without a change iff it is a codeword. -/
theorem correctedSymbols_eq_zero_iff {poly : PrimPoly} {r : List Byte} (hr : r.length = 255) :
    decodeCW poly r ≠ .uncorrectable ∧ correctedSymbols poly r = 0 ↔ IsCodeword poly r := by
  constructor
  · rintro ⟨hne, hzero⟩
    rw [correctedSymbols] at hzero
    cases hdecode : decodeCW poly r with
    | uncorrectable => exact absurd hdecode hne
    | corrected cw e =>
      rw [hdecode] at hzero
      obtain ⟨hcw, hdist, -⟩ := isCodeword_of_decodeCW_corrected hr hdecode
      have hcard : (errorPositions r cw).card = 0 := by
        rw [← dist_eq_card_errorPositions hr hcw.1, hdist]
        exact hzero
      rwa [eq_of_errorPositions_eq_empty hr hcw.1 (Finset.card_eq_zero.1 hcard)]
  · intro h
    rw [correctedSymbols, decodeCW_of_isCodeword h]
    exact ⟨nofun, rfl⟩

theorem toWord_eq_zero_iff {n : Nat} (h : n ≤ Config.maxWord) : toWord n = 0 ↔ n = 0 := by
  constructor
  · intro hzero
    rw [← toWord_toNat h, hzero]
    rfl
  · rintro rfl
    rfl

/-- FDEC ends without fault and corrects nothing iff every received word is a codeword. -/
theorem State.fdecEnd_corrects_nothing_iff (u : State) :
    u.fdecEnd.status = 0x00000002 ∧ u.fdecEnd.resAux = 0 ↔
      ∀ c < u.srcLen.toNat / 255, IsCodeword u.cfg.primPoly (codewordAt u.sourceBytes c) := by
  have hrun := u.fdecRun_eq
  have hclean : u.fdecRun.firstBad = none ∧ u.fdecRun.total = 0 ↔
      ∀ c < u.srcLen.toNat / 255, IsCodeword u.cfg.primPoly (codewordAt u.sourceBytes c) := by
    rw [hrun]
    simp only [firstUncorrectable, List.find?_eq_none, List.mem_range, decide_eq_true_eq,
      List.sum_eq_zero_iff, List.forall_mem_map, ← forall_and]
    exact forall₂_congr fun c _ => correctedSymbols_eq_zero_iff (length_codewordAt _ _)
  rw [← hclean]
  cases hbad : u.fdecRun.firstBad with
  | none =>
    have hend := State.endedNormally_fdecEnd hbad
    rw [and_iff_right hend.status, and_iff_right rfl, ← hend.resAux]
    exact ⟨fun h => by rw [h]; rfl, fun h => BitVec.eq_of_toNat_eq h⟩
  | some c =>
    have hend := State.endedUncorrectable_fdecEnd hbad
    rw [hend.status]
    exact iff_of_false (fun h => absurd h.1 (by decide)) (fun h => nomatch h.1)

/-- Settles O51: both say that every word of the source is a codeword; FDEC then copies messages. -/
theorem fdecCorrectsNothingIffFsynIsClean : Obligations.FdecCorrectsNothingIffFsynIsClean := by
  intro s u t v hcfg hmem hsrc hlen hfsyn hfdec ht hv
  obtain rfl := Host.Outcome.next.inj ((exec_fsyn_of_checksPass hfsyn).symm.trans ht)
  obtain rfl := Host.Outcome.next.inj ((exec_fdec_of_checksPass hfdec).symm.trans hv)
  have hbytes : u.sourceBytes = s.sourceBytes :=
    State.sourceBytes_congr (congrArg₂ Region.mk hsrc hlen) fun a _ => by rw [hmem]
  have hdirty : dirtyCount s.cfg.primPoly (s.srcLen.toNat / 255) s.sourceBytes ≤ Config.maxWord :=
    (dirtyCount_le _ _ _).trans (by have := s.codewords_le; omega)
  rw [State.finish_resAux, toWord_eq_zero_iff hdirty, dirtyCount_eq_zero_iff,
    u.fdecEnd_corrects_nothing_iff, hbytes, hcfg, hlen]
  refine ⟨Iff.rfl, fun h c hc => ?_⟩
  have hdecode : ∀ c < u.srcLen.toNat / 255, decodeCW u.cfg.primPoly (codewordAt u.sourceBytes c) =
      .corrected (codewordAt u.sourceBytes c) 0 := by
    rw [hbytes, hcfg, hlen]
    exact fun c hc => decodeCW_of_isCodeword (h c hc)
  obtain ⟨-, hread⟩ := State.fdecEnd_of_corrected hfdec hdecode
  rw [← hlen] at hc
  obtain ⟨hmessage, hreport⟩ := hread c hc
  refine ⟨hreport, fun i hi => ?_⟩
  rw [Nat.add_assoc, hmessage i hi, getD_codewordAt _ _ (by omega), u.getD_sourceBytes (by omega),
    Nat.add_assoc]

end Sys2Proof.Machine
end

section
/-! PROOFS. What each step leaves alone (00_scope R4, 10_state R26), the bytes and results that a
write into a busy window frees (70_reset_and_hazards R264), and the machine's invariant. -/

namespace Sys2Proof.Machine

/-! ### Operands, PENDING, configuration, script and windows -/

/-- The operand registers, PENDING, the configuration and, of the model's own fields, the script,
the last read and the windows are as they were. -/
structure KeepsOperands (s t : State) : Prop where
  src : t.src = s.src
  srcLen : t.srcLen = s.srcLen
  dst : t.dst = s.dst
  dstCap : t.dstCap = s.dstCap
  aux : t.aux = s.aux
  auxCap : t.auxCap = s.auxCap
  pending : t.pending = s.pending
  cfg : t.cfg = s.cfg
  script : t.script = s.script
  lastRead : t.lastRead = s.lastRead
  windows : t.windows = s.windows

theorem KeepsRest.keepsOperands {s t : State} (h : KeepsRest s t) : KeepsOperands s t :=
  { h with }

theorem KeepsOperands.trans {s t u : State} (h : KeepsOperands s t) (h' : KeepsOperands t u) :
    KeepsOperands s u := by
  constructor
  · exact h'.src.trans h.src
  · exact h'.srcLen.trans h.srcLen
  · exact h'.dst.trans h.dst
  · exact h'.dstCap.trans h.dstCap
  · exact h'.aux.trans h.aux
  · exact h'.auxCap.trans h.auxCap
  · exact h'.pending.trans h.pending
  · exact h'.cfg.trans h.cfg
  · exact h'.script.trans h.script
  · exact h'.lastRead.trans h.lastRead
  · exact h'.windows.trans h.windows

/-- The regions a command word owns depend on the operand registers only. -/
theorem KeepsOperands.windowOf {s t : State} (h : KeepsOperands s t) (w : Word) :
    t.windowOf w = s.windowOf w := by
  simp only [State.windowOf, State.sourceRegions, State.outputRegions, State.source,
    State.destination, State.report, h.src, h.srcLen, h.dst, h.dstCap, h.aux, h.auxCap]

theorem State.keepsOperands_freeRegions (s : State) (rs : List Region) :
    KeepsOperands s (s.freeRegions rs) := by
  constructor <;> simp

theorem State.keepsOperands_breakWindows (s : State) (a : Nat) :
    KeepsOperands s (s.breakWindows a) := by
  have hfree := s.keepsOperands_freeRegions
    ((s.windows.filter (·.touches a)).flatMap Window.outputs)
  obtain ⟨-, h⟩ | ⟨w, ws, -, ⟨-, h⟩ | ⟨-, -, h⟩ | ⟨-, -, h⟩⟩ := s.breakWindows_cases a <;> rw [h]
  · constructor <;> rfl
  · exact hfree
  · exact { hfree with }
  · exact { hfree with }

theorem State.keepsOperands_endUnspecified (s : State) : KeepsOperands s s.endUnspecified :=
  { s.keepsOperands_freeRegions (s.windows.head?.toList.flatMap Window.outputs) with }

/-- So does every completion step (10_state R26, R32). -/
theorem State.keepsOperands_complete {s t : State} (h : s.complete = .next t) :
    KeepsOperands s t := by
  obtain ⟨-, ht⟩ | ⟨-, i, -, ht⟩ | ⟨-, -, ht⟩ := State.complete_cases h
  · obtain rfl := Host.Outcome.next.inj ht
    exact s.keepsOperands_endUnspecified
  · exact (commandsNeverModifyTheOperandRegisters i s t ht.symm).keepsOperands
  · obtain rfl := Host.Outcome.next.inj ht
    exact (s.keepsRest_raise _ _).keepsOperands

/-! ### The configuration (00_scope R4) -/

theorem State.engineTurn_cfg {s t : State} (h : s.engineTurn = .next t) : t.cfg = s.cfg := by
  cases hbusy : s.busy with
  | false =>
    rw [State.engineTurn_idle hbusy] at h
    obtain rfl := Host.Outcome.next.inj h
    rfl
  | true =>
    rw [State.engineTurn_busy hbusy] at h
    exact (State.keepsOperands_complete h).cfg

theorem State.hostMemWrite_cfg {s t : State} {a : Nat} {b : Byte}
    (h : s.hostMemWrite a b = .next t) : t.cfg = s.cfg := by
  obtain ⟨-, rfl⟩ := State.hostMemWrite_next h
  exact (State.keepsOperands_breakWindows _ a).cfg

/-- What a host memory read can do (30_encoding R97; 70_reset_and_hazards R264). -/
theorem State.hostMemRead_next {s t : State} {a : Nat} (h : s.hostMemRead a = .next t) :
    ∃ (b : Byte) (n : Nat), s.freeCount ≤ n ∧
      t = { s with lastRead := some (.byte a b), freeCount := n } := by
  unfold State.hostMemRead at h
  split_ifs at h
  · exact ⟨_, _, Nat.le_succ _, (Host.Outcome.next.inj h).symm⟩
  · exact ⟨_, _, Nat.le_refl _, (Host.Outcome.next.inj h).symm⟩

theorem State.hostWrite_cfg (s : State) (off : Nat) (v : Word) :
    (s.hostWrite off v).cfg = s.cfg := by
  obtain ⟨-, h⟩ | ⟨-, -, h⟩ | ⟨-, -, h⟩ := s.hostWrite_cases off v <;> rw [h]
  · exact State.startCommand_cfg s v
  · exact State.writeOperand_cfg s off v

theorem State.perform_cfg {s t : State} {tr : Transaction} (h : s.perform tr = .next t) :
    t.cfg = s.cfg := by
  obtain ⟨off, v, -, -, rfl⟩ | ⟨off, -, -, rfl⟩ | ⟨a, b, -, h⟩ | ⟨a, -, h⟩ | ⟨-, rfl⟩ | ⟨-, h⟩ :=
    State.perform_cases h
  · exact s.hostWrite_cfg off v
  · exact s.hostRead_cfg off
  · exact State.hostMemWrite_cfg h
  · obtain ⟨b, n, -, rfl⟩ := State.hostMemRead_next h
    rfl
  · obtain ⟨u, hreset, hcfg, -, -⟩ := s.hostReset_eq_resetRegisters
    rw [hreset]
    exact hcfg
  · exact State.engineTurn_cfg h

/-- Settles O23, by what a step can be. -/
theorem stepKeepsTheConfiguration : Obligations.StepKeepsTheConfiguration := by
  intro s t h
  obtain ⟨-, ht⟩ | ⟨tr, rest, -, ht⟩ := step_cases h
  · exact State.engineTurn_cfg ht.symm
  · exact (State.perform_cfg ht.symm).trans (s.takeScript_cfg rest)

/-! ### Free values (93 U2; log 12) -/

theorem State.freeCount_le_freeBytes (s : State) (as : List Nat) :
    s.freeCount ≤ (s.freeBytes as).freeCount := by
  induction as generalizing s with
  | nil => exact Nat.le_refl _
  | cons a as ih =>
    rw [State.freeBytes]
    refine le_trans ?_ (ih _)
    exact Nat.le_succ _

theorem State.freeCount_le_freeRegions (s : State) (rs : List Region) :
    s.freeCount ≤ (s.freeRegions rs).freeCount :=
  s.freeCount_le_freeBytes _

/-- Every byte of the regions that exists is a free one. -/
theorem State.read_freeRegions_mem (s : State) {rs : List Region} {x : Nat}
    (hx : x < s.cfg.memSize) (h : ∃ r ∈ rs, r.has x = true) :
    ∃ n, s.freeCount ≤ n ∧ (s.freeRegions rs).mem.read x = Config.freeByte n := by
  obtain ⟨r, hr, hhas⟩ := h
  exact s.read_freeBytes_mem
    (List.mem_flatMap.2 ⟨r, hr, (Region.mem_addresses _ _ _).2 ⟨hhas, hx⟩⟩)

/-- The results are free words drawn in order from `n` on. -/
def FreeResultsFrom (t : State) (n : Nat) : Prop :=
  t.resLen = Config.freeWord n ∧ t.resAux = Config.freeWord (n + 1) ∧
    t.errInfo = Config.freeWord (n + 2)

theorem State.freeResultsFrom_freeRegions (s : State) (rs : List Region) :
    ∃ n, s.freeCount ≤ n ∧ FreeResultsFrom (s.freeRegions rs).freeResults n :=
  ⟨_, s.freeCount_le_freeRegions rs, rfl, rfl, rfl⟩

/-! ### A write into a busy window (R264; log 7) -/

/-- The output regions of the windows a write at `a` touches. -/
def State.touchedOutputs (s : State) (a : Nat) : List Region :=
  (s.windows.filter (·.touches a)).flatMap Window.outputs

theorem State.mem_touchedOutputs {s : State} {a : Nat} {r : Region} :
    r ∈ s.touchedOutputs a ↔ ∃ w ∈ s.windows, w.touches a = true ∧ r ∈ w.outputs := by
  simp only [State.touchedOutputs, List.mem_flatMap, List.mem_filter, and_assoc]

/-- The write touches the newest window. -/
def State.touchesNewest (s : State) (a : Nat) : Prop :=
  ∃ w, s.windows.head? = some w ∧ w.touches a = true

theorem State.touchesNewest_cons {s : State} {w : Window} {ws : List Window}
    (h : s.windows = w :: ws) (a : Nat) : s.touchesNewest a ↔ w.touches a = true := by
  simp [State.touchesNewest, h]

/-- The bytes are those of the touched outputs freed, whatever becomes of the results. -/
theorem State.breakWindows_mem (s : State) (a : Nat) :
    (s.breakWindows a).mem = (s.freeRegions (s.touchedOutputs a)).mem := by
  obtain ⟨hnone, h⟩ | ⟨w, ws, -, ⟨-, h⟩ | ⟨-, -, h⟩ | ⟨-, -, h⟩⟩ :=
    s.breakWindows_cases a <;> rw [h]
  · rw [State.touchedOutputs, hnone]
    rfl
  · rfl
  · rfl
  · rfl

/-- While BUSY nothing the block shows changes, and the newest window, if touched, is broken. -/
theorem State.breakWindows_busy {s : State} (hbusy : s.busy = true) (a : Nat) :
    (s.breakWindows a).status = s.status ∧ (s.breakWindows a).resLen = s.resLen ∧
      (s.breakWindows a).resAux = s.resAux ∧ (s.breakWindows a).errInfo = s.errInfo ∧
      (s.touchesNewest a → (s.breakWindows a).broken = true) := by
  obtain ⟨hnone, h⟩ | ⟨w, ws, hw, ⟨hw', h⟩ | ⟨-, -, h⟩ | ⟨-, hidle, -⟩⟩ := s.breakWindows_cases a
  · rw [h]
    exact ⟨rfl, rfl, rfl, rfl, fun ⟨w, hw, _⟩ => by rw [hnone] at hw; cases hw⟩
  · rw [h]
    refine ⟨s.freeRegions_status _, s.freeRegions_resLen _, s.freeRegions_resAux _,
      s.freeRegions_errInfo _, fun ht => ?_⟩
    rw [State.touchesNewest_cons hw, hw'] at ht
    cases ht
  · rw [h]
    exact ⟨s.freeRegions_status _, s.freeRegions_resLen _, s.freeRegions_resAux _,
      s.freeRegions_errInfo _, fun _ => rfl⟩
  · exact absurd (hidle.symm.trans hbusy) Bool.false_ne_true

/-- While idle a write that touches the newest window frees what its command reported. -/
theorem State.breakWindows_idle {s : State} (hidle : s.busy = false) {a : Nat}
    (h : s.touchesNewest a) :
    s.breakWindows a = (s.freeRegions (s.touchedOutputs a)).freeResults := by
  obtain ⟨hnone, -⟩ | ⟨w, ws, hw, hcases⟩ := s.breakWindows_cases a
  · obtain ⟨w, hw, -⟩ := h
    rw [hnone] at hw
    cases hw
  rw [State.touchesNewest_cons hw] at h
  obtain ⟨hw', -⟩ | ⟨-, hbusy, -⟩ | ⟨-, -, ht⟩ := hcases
  · exact absurd (hw'.symm.trans h) Bool.false_ne_true
  · exact absurd (hidle.symm.trans hbusy) Bool.false_ne_true
  · exact ht

/-- A write that does not touch the newest window only frees bytes. -/
theorem State.breakWindows_older {s : State} {a : Nat} (h : ¬ s.touchesNewest a) :
    s.breakWindows a = s.freeRegions (s.touchedOutputs a) := by
  obtain ⟨hnone, ht⟩ | ⟨w, ws, hw, hcases⟩ := s.breakWindows_cases a
  · rw [ht, State.touchedOutputs, hnone]
    rfl
  rw [State.touchesNewest_cons hw] at h
  obtain ⟨-, ht⟩ | ⟨hw', -⟩ | ⟨hw', -⟩ := hcases
  · exact ht
  · exact absurd hw' h
  · exact absurd hw' h

/-! ### Every completion step ends its command (10_state R30, R32) -/

theorem EndsBy.status_legal {i : Instr} {s t : State} (h : EndsBy i s t) :
    statusLegal t.status = true := by
  cases h with
  | raised f info => exact statusFault_legal f
  | reported len aux => rfl
  | stored huses hrange hcap aux => rfl
  | decoded =>
    cases hrun : s.fdecRun.firstBad with
    | none => rw [(State.endedNormally_fdecEnd hrun).status]; rfl
    | some c => rw [(State.endedUncorrectable_fdecEnd hrun).status]; rfl

/-- Broken or not, legal word or not. -/
theorem State.complete_ends (s : State) :
    ∃ t, s.complete = .next t ∧ t.busy = false ∧ t.done = true ∧ statusLegal t.status = true := by
  obtain ⟨-, h⟩ | ⟨-, i, -, h⟩ | ⟨-, -, h⟩ := State.complete_cases (s := s) rfl
  · exact ⟨_, h, State.freeResults_busy _, State.freeResults_done _, statusEnded_legal _⟩
  · obtain ⟨t, ht, hends⟩ := exec_endsBy i s
    obtain ⟨t', ht', hbusy, hdone, -⟩ := everyCommandEndsWithALegalStatus i s
    obtain rfl := Host.Outcome.next.inj (ht.symm.trans ht')
    exact ⟨t, h.trans ht, hbusy, hdone, hends.status_legal⟩
  · exact ⟨_, h, State.raise_busy s _ _, State.raise_done s _ _, statusFault_legal _⟩

/-! ### The invariant -/

/-- While idle the invariant is about STATUS, `Mem` and the windows not being broken. -/
theorem State.Inv.of_idle {s : State} (hstatus : Machine.statusLegal s.status = true)
    (hwf : s.mem.wf = true) (hinside : s.mem.inside s.cfg.memSize = true)
    (hsize : s.cfg.memSizeLegal = true) (hidle : s.busy = false) (hbroken : s.broken = false) :
    s.Inv where
  statusLegal := hstatus
  memWf := hwf
  memInside := hinside
  memSizeLegal := hsize
  resultsZero := fun h => absurd (hidle.symm.trans h) Bool.false_ne_true
  windowOpen := fun h => absurd (hidle.symm.trans h) Bool.false_ne_true
  unbroken := fun _ => hbroken

/-- Settles O22: the reset state is idle and its memory lists no byte. -/
theorem resetMeetsTheInvariant : Obligations.ResetMeetsTheInvariant :=
  State.Inv.of_idle rfl reset_mem_wf rfl (by decide) rfl rfl

/-- A step that changes nothing the invariant speaks of but, keeping it, `Mem`. -/
theorem State.Inv.of_mem {s t : State} (h : s.Inv) (hkeeps : KeepsOperands s t)
    (hstatus : t.status = s.status) (hwf : t.mem.wf = true)
    (hinside : t.mem.inside s.cfg.memSize = true)
    (hresults : t.resLen = s.resLen ∧ t.resAux = s.resAux ∧ t.errInfo = s.errInfo)
    (hbroken : s.busy = false → t.broken = false) : t.Inv := by
  have hbusy : t.busy = s.busy := by rw [State.busy, State.busy, hstatus]
  obtain ⟨hlen, haux, hinfo⟩ := hresults
  refine ⟨hstatus ▸ h.statusLegal, hwf, hkeeps.cfg ▸ hinside, hkeeps.cfg ▸ h.memSizeLegal, ?_, ?_,
    hbusy ▸ hbroken⟩
  · rw [hbusy, hlen, haux, hinfo]
    exact h.resultsZero
  · rw [hbusy, hkeeps.windows, hkeeps.pending, hkeeps.windowOf]
    exact h.windowOpen

theorem State.Inv.takeScript {s : State} (h : s.Inv) (rest : List Transaction) :
    (s.takeScript rest).Inv := { h with }

/-- A region in range has room for its first bytes. -/
theorem InRange.inside_writeBytes {s : State} {r : Region} (h : InRange s r) {m : Memory}
    {v : List Byte} (hv : v.length ≤ r.len.toNat) (hm : m.inside s.cfg.memSize = true) :
    (m.writeBytes r.base.toNat v).inside s.cfg.memSize = true := by
  refine Memory.inside_writeBytes ?_ hm
  rw [← List.length_eq_zero_iff]
  obtain h | h := h <;> omega

theorem EndsBy.mem_wf {i : Instr} {s t : State} (h : EndsBy i s t) (hwf : s.mem.wf = true) :
    t.mem.wf = true := by
  cases h with
  | raised f info => exact hwf
  | reported len aux => exact hwf
  | stored huses hrange hcap aux => exact Memory.wf_writeBytes _ _ hwf
  | decoded =>
    rw [State.fdecEnd_mem]
    exact Memory.wf_writeBytes _ _ (Memory.wf_writeBytes _ _ hwf)

theorem EndsBy.mem_inside {i : Instr} {s t : State} (h : EndsBy i s t)
    (hinside : s.mem.inside s.cfg.memSize = true) : t.mem.inside s.cfg.memSize = true := by
  cases h with
  | raised f info => exact hinside
  | reported len aux => exact hinside
  | stored huses hrange hcap aux => exact hrange.inside_writeBytes hcap hinside
  | decoded hi hdst hreport hover hcap hauxCap =>
    obtain ⟨hout, hrep, -⟩ := s.fdecRun_lengths
    rw [State.fdecEnd_mem]
    exact hreport.inside_writeBytes (hrep.trans_le hauxCap)
      (hdst.inside_writeBytes (hout.trans_le hcap) hinside)

theorem State.Inv.complete {s t : State} (h : s.Inv) (ht : s.complete = .next t) : t.Inv := by
  obtain ⟨u, hu, hidle, -, hstatus⟩ := s.complete_ends
  obtain rfl := Host.Outcome.next.inj (hu.symm.trans ht)
  have hcfg := (State.keepsOperands_complete ht).cfg
  have hsize : u.cfg.memSizeLegal = true := hcfg ▸ h.memSizeLegal
  obtain ⟨-, hend⟩ | ⟨hbroken, i, -, hend⟩ | ⟨hbroken, -, hend⟩ := State.complete_cases ht
  · obtain rfl := Host.Outcome.next.inj hend
    exact .of_idle hstatus (s.wf_freeRegions _ h.memWf)
      (hcfg ▸ s.inside_freeRegions _ h.memInside) hsize hidle rfl
  · obtain ⟨v, hv, hends⟩ := exec_endsBy i s
    obtain rfl := Host.Outcome.next.inj (hv.symm.trans hend.symm)
    have hrest := commandsNeverModifyTheOperandRegisters i s v hv
    exact .of_idle hstatus (hends.mem_wf h.memWf) (hcfg ▸ hends.mem_inside h.memInside) hsize hidle
      (hrest.broken.trans hbroken)
  · obtain rfl := Host.Outcome.next.inj hend
    exact .of_idle hstatus h.memWf h.memInside hsize hidle hbroken

theorem State.Inv.engineTurn {s t : State} (h : s.Inv) (ht : s.engineTurn = .next t) : t.Inv := by
  cases hbusy : s.busy with
  | false =>
    rw [State.engineTurn_idle hbusy] at ht
    exact Host.Outcome.next.inj ht ▸ h
  | true =>
    rw [State.engineTurn_busy hbusy] at ht
    exact h.complete ht

theorem State.Inv.hostWrite {s : State} (h : s.Inv) (off : Nat) (v : Word) :
    (s.hostWrite off v).Inv := by
  obtain ⟨-, ht⟩ | ⟨-, -, ht⟩ | ⟨hidle, -, ht⟩ := s.hostWrite_cases off v <;> rw [ht]
  · exact h
  · exact ⟨rfl, h.memWf, h.memInside, h.memSizeLegal, fun _ => ⟨rfl, rfl, rfl⟩, fun _ => rfl,
      fun _ => rfl⟩
  · refine .of_idle ?_ ?_ ?_ ?_ ((s.writeOperand_busy off v).trans hidle) ?_
    · exact (s.writeOperand_status off v).symm ▸ h.statusLegal
    · exact (s.writeOperand_mem off v).symm ▸ h.memWf
    · rw [State.writeOperand_mem, State.writeOperand_cfg]
      exact h.memInside
    · exact (s.writeOperand_cfg off v).symm ▸ h.memSizeLegal
    · exact (s.writeOperand_broken off v).trans (h.unbroken hidle)

/-- In a state a run reaches, STATUS of a running command is 1. -/
theorem State.Inv.status_of_busy {s : State} (h : s.Inv) (hbusy : s.busy = true) : s.status = 1 :=
  statusLegal_busy_not_done h.statusLegal hbusy

/-- A host read closes windows only after the command's end. -/
theorem State.Inv.hostRead {s : State} (h : s.Inv) (off : Nat) : (s.hostRead off).Inv := by
  cases hbusy : s.busy with
  | false =>
    refine .of_idle ?_ ?_ ?_ ?_ ((s.hostRead_busy off).trans hbusy) ?_
    · exact (s.hostRead_status off).symm ▸ h.statusLegal
    · exact (s.hostRead_mem off).symm ▸ h.memWf
    · rw [State.hostRead_mem, State.hostRead_cfg]
      exact h.memInside
    · exact (s.hostRead_cfg off).symm ▸ h.memSizeLegal
    · exact (s.hostRead_broken off).trans (h.unbroken hbusy)
  | true =>
    have hdone : ¬ (off = 0x04 ∧ s.done = true) := by
      rw [State.done, h.status_of_busy hbusy]
      exact fun hread => absurd hread.2 (by decide)
    rw [State.hostRead, State.acknowledge, if_neg hdone]
    exact { h with }

/-- A write that touches the newest window breaks it only while its command runs. -/
theorem State.Inv.breakWindows {s : State} (h : s.Inv) (a : Nat) : (s.breakWindows a).Inv := by
  have hkeeps := s.keepsOperands_breakWindows a
  have hwf : (s.breakWindows a).mem.wf = true := by
    rw [s.breakWindows_mem]
    exact s.wf_freeRegions _ h.memWf
  have hinside : (s.breakWindows a).mem.inside s.cfg.memSize = true := by
    rw [s.breakWindows_mem]
    exact s.inside_freeRegions _ h.memInside
  cases hbusy : s.busy with
  | true =>
    obtain ⟨hstatus, hlen, haux, hinfo, -⟩ := State.breakWindows_busy hbusy a
    exact h.of_mem hkeeps hstatus hwf hinside ⟨hlen, haux, hinfo⟩
      fun hidle => absurd (hidle.symm.trans hbusy) Bool.false_ne_true
  | false =>
    have hbroken := h.unbroken hbusy
    by_cases hnewest : s.touchesNewest a
    · rw [State.breakWindows_idle hbusy hnewest] at hkeeps hwf hinside ⊢
      exact .of_idle (statusEnded_legal _) hwf (hkeeps.cfg ▸ hinside)
        (hkeeps.cfg ▸ h.memSizeLegal) (State.freeResults_busy _)
        ((s.freeRegions_broken _).trans hbroken)
    · rw [State.breakWindows_older hnewest] at hkeeps hwf hinside ⊢
      exact h.of_mem hkeeps (s.freeRegions_status _) hwf hinside
        ⟨s.freeRegions_resLen _, s.freeRegions_resAux _, s.freeRegions_errInfo _⟩
        fun _ => (s.freeRegions_broken _).trans hbroken

theorem State.Inv.hostMemWrite {s t : State} (h : s.Inv) {a : Nat} {b : Byte}
    (ht : s.hostMemWrite a b = .next t) : t.Inv := by
  obtain ⟨ha, rfl⟩ := State.hostMemWrite_next ht
  refine State.Inv.breakWindows ?_ a
  exact { h with
    memWf := Memory.wf_write a b h.memWf
    memInside := Memory.inside_write b ha h.memInside }

theorem State.Inv.hostReset {s : State} (h : s.Inv) : s.hostReset.Inv := by
  cases hbusy : s.busy with
  | false =>
    rw [State.hostReset_idle hbusy]
    exact .of_idle rfl h.memWf h.memInside h.memSizeLegal s.resetRegisters_busy rfl
  | true =>
    rw [State.hostReset_busy hbusy]
    refine .of_idle rfl (s.wf_freeRegions _ h.memWf) ?_ ?_ (State.resetRegisters_busy _) rfl
    · rw [State.resetRegisters_mem, State.resetRegisters_cfg, State.freeRegions_cfg]
      exact s.inside_freeRegions _ h.memInside
    · rw [State.resetRegisters_cfg, State.freeRegions_cfg]
      exact h.memSizeLegal

theorem State.Inv.perform {s t : State} (h : s.Inv) {tr : Transaction}
    (ht : s.perform tr = .next t) : t.Inv := by
  obtain ⟨off, v, -, -, rfl⟩ | ⟨off, -, -, rfl⟩ | ⟨a, b, -, ht⟩ | ⟨a, -, ht⟩ | ⟨-, rfl⟩ | ⟨-, ht⟩ :=
    State.perform_cases ht
  · exact h.hostWrite off v
  · exact h.hostRead off
  · exact h.hostMemWrite ht
  · obtain ⟨b, n, -, rfl⟩ := State.hostMemRead_next ht
    exact { h with }
  · exact h.hostReset
  · exact h.engineTurn ht

/-- Settles O21, by what a step can be: the engine's turn or one of the six transactions. -/
theorem stepKeepsTheInvariant : Obligations.StepKeepsTheInvariant := by
  intro s t h hstep
  obtain ⟨-, ht⟩ | ⟨tr, rest, -, ht⟩ := step_cases hstep
  · exact h.engineTurn ht.symm
  · exact (h.takeScript rest).perform ht.symm

end Sys2Proof.Machine
end

section
/-! PROOFS. Steps of the host and the engine one by one (30_encoding R97): the completion step,
register accesses while BUSY and while idle, memory accesses inside and outside busy windows, reset
while BUSY. -/

namespace Sys2Proof.Machine

/-! ### The engine's turn (10_state R32, 60_exceptions R244) -/

theorem step_of_silence {s : State} (hscript : s.script = []) : step s = s.engineTurn := by
  rw [step, hscript]

theorem State.complete_decoded {s : State} {i : Instr} (hunbroken : s.broken = false)
    (hdecode : decode s.pending = .ok i) : s.complete = exec i s := by
  rw [State.complete, hunbroken, hdecode]
  rfl

/-- Settles O4: in both cases the step is the completion step, which decodes PENDING. -/
theorem stepRunsTheDecodedCommand : Obligations.StepRunsTheDecodedCommand := by
  intro s i hbusy hunbroken hdecode
  refine ⟨fun hscript => ?_, fun rest hscript => ?_⟩
  · rw [step_of_silence hscript, State.engineTurn_busy hbusy,
      State.complete_decoded hunbroken hdecode]
  · exact (step_of_completion hbusy hscript).trans (State.complete_decoded hunbroken hdecode)

/-- Settles O6: an idle engine does nothing. -/
theorem idleBlockKeepsItsState : Obligations.IdleBlockKeepsItsState := fun _ hidle hscript =>
  (step_of_silence hscript).trans (State.engineTurn_idle hidle)

/-! ### Register accesses (10_state R25, 93 U3) -/

theorem registerOffset_eq_false {off : Nat} (h : ¬ (off % 4 = 0 ∧ off < 0x1000)) :
    registerOffset off = false := by
  rw [registerOffset, ← Bool.decide_and, decide_eq_false_iff_not]
  exact h

/-- A misshapen register access is refused in every state (10_state R25; log 11). -/
theorem step_of_badRegisterOffset {s : State} {off : Nat} {v : Word} {rest : List Transaction}
    (h : ¬ (off % 4 = 0 ∧ off < 0x1000))
    (hscript : s.script = .hostWrite off v :: rest ∨ s.script = .hostRead off :: rest) :
    step s = .refused (.badRegisterOffset off) := by
  obtain hscript | hscript := hscript <;>
    simp [step, hscript, State.perform, registerOffset_eq_false h]

theorem State.hostWrite_busy {s : State} (hbusy : s.busy = true) (off : Nat) (v : Word) :
    s.hostWrite off v = s :=
  if_pos hbusy

/-- Settles O9: STATUS is 1 and the results are 0 by the invariant, and a write is ignored. -/
theorem busyRegistersIgnoreWritesAndReadZeroResults :
    Obligations.BusyRegistersIgnoreWritesAndReadZeroResults := by
  intro s off v rest hinv hbusy
  refine ⟨fun haligned hlt hscript => ?_, ?_, step_of_badRegisterOffset⟩
  · rw [step_of_hostWrite hscript (registerOffset_of_le haligned (by omega)),
      State.hostWrite_busy ((s.takeScript_busy rest).trans hbusy)]
  · obtain ⟨hlen, haux, hinfo⟩ := hinv.resultsZero hbusy
    exact ⟨hinv.status_of_busy hbusy, rfl, rfl, rfl, rfl, rfl, rfl, hlen, haux, hinfo⟩

/-! ### Windows (70_reset_and_hazards R264) -/

theorem Window.outputs_has_iff {w : Window} {a : Nat} :
    w.outputs_has a = true ↔ ∃ r ∈ w.outputs, r.has a = true :=
  List.any_eq_true

/-- The outputs of a window are among its regions. -/
theorem Window.outputs_has_of_untouched {w : Window} {a : Nat} (h : w.touches a = false) :
    w.outputs_has a = false := by
  rw [Window.touches, List.any_append, Bool.or_eq_false_iff] at h
  exact h.2

theorem State.mem_outputRegions {s : State} {i : Instr} {r : Region} :
    r ∈ s.outputRegions i ↔ (usesDestination i = true ∧ r = s.destination) ∨
      (usesReport i = true ∧ r = s.report) := by
  rw [State.outputRegions, List.mem_append]
  split_ifs with hdst hreport hreport <;> simp [hdst, hreport]

theorem State.windowOf_outputs {s : State} {w : Word} {i : Instr} (h : decode w = .ok i) :
    (s.windowOf w).outputs = s.outputRegions i := by
  rw [State.windowOf, h]

/-- An illegal word owns no region (60_exceptions R223; log 20). -/
theorem State.windowOf_outputs_illegal {s : State} {w : Word} {e : DecodeError}
    (h : decode w = .error e) : (s.windowOf w).outputs = [] := by
  rw [State.windowOf, h]

/-- While BUSY the newest window is that of the running command. -/
theorem State.Inv.newest_outputs {s : State} (h : s.Inv) (hbusy : s.busy = true) :
    s.windows.head?.toList.flatMap Window.outputs = (s.windowOf s.pending).outputs := by
  rw [h.windowOpen hbusy, Option.toList_some, List.flatMap_singleton]

/-! ### Memory transactions (20_memory R66; 93 U2, U3) -/

/-- `Mem[a] <- b`, nothing else. -/
def State.withByte (s : State) (a : Nat) (b : Byte) : State := { s with mem := s.mem.write a b }

@[simp] theorem State.withByte_mem (s : State) (a : Nat) (b : Byte) :
    (s.withByte a b).mem = s.mem.write a b := rfl

@[simp] theorem State.withByte_windows (s : State) (a : Nat) (b : Byte) :
    (s.withByte a b).windows = s.windows := rfl

@[simp] theorem State.withByte_busy (s : State) (a : Nat) (b : Byte) :
    (s.withByte a b).busy = s.busy := rfl

theorem State.keepsOperands_withByte (s : State) (a : Nat) (b : Byte) :
    KeepsOperands s (s.withByte a b) := by
  constructor <;> rfl

theorem step_of_memWrite {s : State} {a : Nat} {b : Byte} {rest : List Transaction}
    (ha : a < s.cfg.memSize) (hscript : s.script = .memWrite a b :: rest) :
    step s = .next (((s.takeScript rest).withByte a b).breakWindows a) := by
  rw [step, hscript]
  exact if_pos ha

theorem step_of_memWrite_untouched {s : State} {a : Nat} {b : Byte} {rest : List Transaction}
    (ha : a < s.cfg.memSize) (huntouched : ∀ w ∈ s.windows, w.touches a = false)
    (hscript : s.script = .memWrite a b :: rest) :
    step s = .next ((s.takeScript rest).withByte a b) := by
  rw [step_of_memWrite ha hscript,
    State.breakWindows_untouched ((s.takeScript rest).withByte a b) a huntouched]

theorem step_of_memRead {s : State} {a : Nat} {rest : List Transaction}
    (ha : a < s.cfg.memSize) (hout : ∀ w ∈ s.windows, w.outputs_has a = false)
    (hscript : s.script = .memRead a :: rest) :
    step s = .next { s with script := rest, lastRead := some (.byte a (s.mem.read a)) } := by
  have hany : ¬ s.windows.any (·.outputs_has a) = true := by
    simpa [List.any_eq_true] using hout
  rw [step, hscript]
  exact (if_pos ha).trans (if_neg hany)

/-- Inside an output of a busy window a read returns a free byte (log 7). -/
theorem step_of_memRead_output {s : State} {a : Nat} {rest : List Transaction}
    (ha : a < s.cfg.memSize) (hin : ∃ w ∈ s.windows, w.outputs_has a = true)
    (hscript : s.script = .memRead a :: rest) :
    step s = .next { s with script := rest, freeCount := s.freeCount + 1,
                            lastRead := some (.byte a (Config.freeByte s.freeCount)) } := by
  rw [step, hscript]
  exact (if_pos ha).trans (if_pos (List.any_eq_true.2 hin))

/-- Settles O12: no window is touched, so the write changes one byte and the read returns it. -/
theorem hostReadsBackTheByteItWrote : Obligations.HostReadsBackTheByteItWrote := by
  constructor
  · intro s a b rest ha huntouched hscript
    have hwrite := step_of_memWrite_untouched ha huntouched hscript
    have hread := step_of_memRead (s := (s.takeScript (.memRead a :: rest)).withByte a b) ha
      (fun w hw => w.outputs_has_of_untouched (huntouched w hw)) rfl
    rw [State.withByte_mem, Memory.read_write_same] at hread
    exact ⟨_, _, hwrite, hread, rfl, Memory.read_write_same _ _ _,
      fun x hx => Memory.read_write_other _ _ hx, rfl, rfl⟩
  · intro s a rest ha hout hscript
    refine step_of_memRead ha (fun w hw => ?_) hscript
    rw [Window.outputs_has, List.any_eq_false]
    exact fun r hr => by rw [hout w hw r hr]; exact Bool.false_ne_true

/-- Settles O13: both stops are the transaction's own check. -/
theorem transactionsOutsideTheSpacesStop : Obligations.TransactionsOutsideTheSpacesStop := by
  refine fun s a b v rest => ⟨fun ha hscript => ?_, step_of_badRegisterOffset⟩
  have ha : ¬ a < s.cfg.memSize := Nat.not_lt.2 ha
  obtain hscript | hscript := hscript <;> rw [step, hscript] <;> exact if_neg ha

/-- Settles O17: the read draws one free byte and changes nothing else of the block. -/
theorem busyWindowReadsReturnAFreeByte : Obligations.BusyWindowReadsReturnAFreeByte := by
  intro s a rest ha ⟨w, hw, hr⟩ hscript
  exact ⟨_, step_of_memRead_output ha ⟨w, hw, Window.outputs_has_iff.2 hr⟩ hscript, rfl, rfl, rfl,
    rfl, rfl⟩

/-! ### Steps of an idle block (10_state R35) -/

/-- Settles O11: of the transactions left none writes STATUS or a result of an idle block. -/
theorem resultsPersistUntilTheNextStartOrReset :
    Obligations.ResultsPersistUntilTheNextStartOrReset := by
  intro s t hidle hstep hreset hcmd hhazard
  have hturn {u : State} (hu : u.busy = false) (h : u.engineTurn = .next t) : t = u :=
    (Host.Outcome.next.inj ((State.engineTurn_idle hu).symm.trans h)).symm
  obtain ⟨-, h⟩ | ⟨tr, rest, hscript, h⟩ := step_cases hstep
  · obtain rfl := hturn hidle h.symm
    exact ⟨rfl, rfl, rfl, rfl⟩
  rw [hscript, List.head?_cons] at hreset hcmd hhazard
  have hidle' : (s.takeScript rest).busy = false := (s.takeScript_busy rest).trans hidle
  obtain ⟨off, v, rfl, -, rfl⟩ | ⟨off, rfl, -, rfl⟩ | ⟨a, b, rfl, hw⟩ | ⟨a, rfl, hr⟩ |
    ⟨rfl, -⟩ | ⟨rfl, hc⟩ := State.perform_cases h.symm
  · have hoff : off ≠ 0x00 := fun h => hcmd v (h ▸ rfl)
    rw [State.hostWrite_idle_of_ne_cmd hidle' hoff]
    exact ⟨State.writeOperand_status _ off v, State.writeOperand_resLen _ off v,
      State.writeOperand_resAux _ off v, State.writeOperand_errInfo _ off v⟩
  · exact ⟨State.hostRead_status _ off, State.hostRead_resLen _ off, State.hostRead_resAux _ off,
      State.hostRead_errInfo _ off⟩
  · obtain ⟨ha, -⟩ := State.hostMemWrite_next hw
    have hwrite := step_of_memWrite_untouched (s := s) ha (hhazard a b rfl) hscript
    obtain rfl := Host.Outcome.next.inj (hwrite.symm.trans hstep)
    exact ⟨rfl, rfl, rfl, rfl⟩
  · obtain ⟨b, n, -, rfl⟩ := State.hostMemRead_next hr
    exact ⟨rfl, rfl, rfl, rfl⟩
  · exact absurd rfl hreset
  · obtain rfl := hturn hidle' hc
    exact ⟨rfl, rfl, rfl, rfl⟩

/-! ### Reset while BUSY (70_reset_and_hazards R261) -/

/-- Settles O15: what reset frees are the output regions of the running command's window. -/
theorem resetDuringACommandTouchesOnlyItsOutputs :
    Obligations.ResetDuringACommandTouchesOnlyItsOutputs := by
  intro s rest hinv hbusy hscript
  have hstep : step s = .next (((s.takeScript rest).freeRegions
      (s.windowOf s.pending).outputs).resetRegisters) := by
    rw [step_of_reset hscript, State.hostReset_busy ((s.takeScript_busy rest).trans hbusy),
      State.takeScript_windows, hinv.newest_outputs hbusy]
  refine ⟨_, hstep, State.resetRegisters_busy _, State.resetRegisters_done _,
    fun i a hdecode hdst hreport => ?_, fun e a hdecode => ?_⟩
  · refine State.read_freeRegions_outside _ _ a fun r hr => ?_
    rw [State.windowOf_outputs hdecode, State.mem_outputRegions] at hr
    obtain ⟨huses, rfl⟩ | ⟨huses, rfl⟩ := hr
    · exact Bool.eq_false_iff.2 (hdst huses)
    · exact Bool.eq_false_iff.2 (hreport huses)
  · refine State.read_freeRegions_outside _ _ a fun r hr => ?_
    rw [State.windowOf_outputs_illegal hdecode] at hr
    cases hr

end Sys2Proof.Machine
end

section
/-! PROOFS. A command ends whatever the host does but reset: one whose window is broken with free
values (70_reset_and_hazards R264, 93 U2), and each within its script (R268). -/

namespace Sys2Proof.Machine

/-! ### The end of a broken command (R264; log 7) -/

theorem State.complete_broken {s : State} (h : s.broken = true) :
    s.complete = .next s.endUnspecified :=
  if_pos h

/-- A broken command frees the outputs of its window and reports free words. -/
theorem State.Inv.endUnspecified {s : State} (h : s.Inv) (hbusy : s.busy = true) :
    s.endUnspecified.mem = (s.freeRegions (s.windowOf s.pending).outputs).mem ∧
      ∃ n, s.freeCount ≤ n ∧ FreeResultsFrom s.endUnspecified n := by
  refine ⟨?_, s.freeResultsFrom_freeRegions _⟩
  rw [← h.newest_outputs hbusy]
  rfl

/-- A command owns no region but its destination and its report. -/
theorem State.mem_windowOf_outputs {s : State} {w : Word} {r : Region}
    (h : r ∈ (s.windowOf w).outputs) : r = s.destination ∨ r = s.report := by
  cases hdecode : decode w with
  | error e =>
    rw [State.windowOf_outputs_illegal hdecode] at h
    cases h
  | ok i =>
    rw [State.windowOf_outputs hdecode, State.mem_outputRegions] at h
    exact h.imp And.right And.right

/-- Settles O18: the write first, by whether it touches the newest window and whether its command
runs; then the end of a command, broken or not. -/
theorem brokenCommandsStillEnd : Obligations.BrokenCommandsStillEnd := by
  constructor
  · intro s a b rest ha htouched hscript
    have hmem := State.breakWindows_mem ((s.takeScript rest).withByte a b) a
    have hkeeps := ((s.takeScript rest).keepsOperands_withByte a b).trans
      (State.keepsOperands_breakWindows _ a)
    refine ⟨_, step_of_memWrite ha hscript, hkeeps.script, hkeeps.windows, hkeeps.pending,
      hkeeps.cfg, hkeeps.src, hkeeps.srcLen, hkeeps.dst, hkeeps.dstCap, hkeeps.aux, hkeeps.auxCap,
      hkeeps.lastRead, fun x hx hin => ?_, fun x hout => ?_, fun hbusy => ?_,
      fun hidle hnewest => ?_, fun hnewest => ?_⟩
    · obtain ⟨w, hw, hwa, r, hr, hrx⟩ := hin
      rw [hmem]
      exact State.read_freeRegions_mem ((s.takeScript rest).withByte a b) hx
        ⟨r, State.mem_touchedOutputs.2 ⟨w, hw, hwa, hr⟩, hrx⟩
    · rw [hmem, State.read_freeRegions_outside]
      · split_ifs with hxa
        · rw [hxa]
          exact Memory.read_write_same _ _ _
        · exact Memory.read_write_other _ _ hxa
      · intro r hr
        obtain ⟨w, hw, hwa, hr⟩ := State.mem_touchedOutputs.1 hr
        exact hout w hw hwa r hr
    · obtain ⟨hstatus, hlen, haux, hinfo, hbroken⟩ :=
        State.breakWindows_busy (s := (s.takeScript rest).withByte a b) hbusy a
      exact ⟨hstatus, hlen, haux, hinfo, hbroken⟩
    · rw [State.breakWindows_idle (s := (s.takeScript rest).withByte a b) hidle hnewest]
      exact ⟨State.freeResults_busy _, State.freeResults_done _, statusEnded_legal _,
        State.freeResultsFrom_freeRegions ((s.takeScript rest).withByte a b) _⟩
    · rw [State.breakWindows_older (s := (s.takeScript rest).withByte a b) hnewest]
      exact ⟨State.freeRegions_status _ _, State.freeRegions_resLen _ _,
        State.freeRegions_resAux _ _, State.freeRegions_errInfo _ _, State.freeRegions_broken _ _⟩
  · intro s hbusy
    obtain ⟨t, ht, hidle, hdone, hlegal⟩ := s.complete_ends
    refine ⟨t, (State.engineTurn_busy hbusy).trans ht, hidle, hdone, hlegal,
      fun hinv hbroken => ?_⟩
    rw [State.complete_broken hbroken] at ht
    obtain rfl := Host.Outcome.next.inj ht
    obtain ⟨hmem, hresults⟩ := hinv.endUnspecified hbusy
    rw [hmem]
    refine ⟨hresults, fun i x hdecode hx hin => ?_, fun a hdst hreport => ?_⟩
    · rw [← State.windowOf_outputs hdecode] at hin
      exact s.read_freeRegions_mem hx hin
    · refine s.read_freeRegions_outside _ a fun r hr => ?_
      obtain rfl | rfl := State.mem_windowOf_outputs hr
      · exact Bool.eq_false_iff.2 hdst
      · exact Bool.eq_false_iff.2 hreport

/-! ### Started commands end (R268) -/

/-- A transaction of a busy block that is neither reset nor the completion leaves it busy. -/
theorem step_keeps_busy {s : State} {tr : Transaction} {rest : List Transaction}
    (hbusy : s.busy = true) (hscript : s.script = tr :: rest)
    (hmeaning : tr.wellFormed s.cfg.memSize = true) (hreset : tr ≠ .reset)
    (hcompletion : tr ≠ .completion) :
    ∃ t, step s = .next t ∧ t.busy = true ∧ t.cfg = s.cfg ∧ t.script = rest := by
  cases tr with
  | hostWrite off v =>
    refine ⟨_, step_of_hostWrite hscript hmeaning, ?_⟩
    rw [State.hostWrite_busy ((s.takeScript_busy rest).trans hbusy)]
    exact ⟨hbusy, rfl, rfl⟩
  | hostRead off =>
    exact ⟨_, step_of_hostRead hscript hmeaning, (State.hostRead_busy _ off).trans hbusy,
      State.hostRead_cfg _ off, State.hostRead_script _ off⟩
  | memWrite a b =>
    have hkeeps := State.keepsOperands_breakWindows ((s.takeScript rest).withByte a b) a
    obtain ⟨hstatus, -⟩ :=
      State.breakWindows_busy (s := (s.takeScript rest).withByte a b) hbusy a
    refine ⟨_, step_of_memWrite (of_decide_eq_true hmeaning) hscript, ?_, hkeeps.cfg, hkeeps.script⟩
    rw [State.busy, hstatus]
    exact hbusy
  | memRead a =>
    have ha : a < s.cfg.memSize := of_decide_eq_true hmeaning
    by_cases hin : ∃ w ∈ s.windows, w.outputs_has a = true
    · exact ⟨_, step_of_memRead_output ha hin hscript, hbusy, rfl, rfl⟩
    · refine ⟨_, step_of_memRead ha (fun w hw => ?_) hscript, hbusy, rfl, rfl⟩
      exact Bool.eq_false_iff.2 fun h => hin ⟨w, hw, h⟩
  | reset => exact absurd rfl hreset
  | completion => exact absurd rfl hcompletion

/-- The completion step as the last of a run. -/
theorem run_one_of_complete {s u : State} (hstep : step s = u.complete) :
    ∃ t, Host.Core.run Sys2Proof.core 1 s = .next t ∧ t.busy = false ∧ t.done = true := by
  obtain ⟨t, ht, hidle, hdone, -⟩ := u.complete_ends
  exact ⟨t, run_succ (hstep.trans ht), hidle, hdone⟩

/-- Settles O19, by induction on the script: it brings the completion, or runs out and leaves the
engine its turn. -/
theorem startedCommandsEnd : Obligations.StartedCommandsEnd := by
  intro s hbusy hmeaning
  induction hscript : s.script generalizing s with
  | nil =>
    obtain ⟨t, hrun, hend⟩ :=
      run_one_of_complete ((step_of_silence hscript).trans (State.engineTurn_busy hbusy))
    exact ⟨1, t, Nat.le_refl _, hrun, hend⟩
  | cons tr rest ih =>
    rw [hscript] at hmeaning
    obtain ⟨hwf, hreset⟩ := hmeaning tr List.mem_cons_self
    by_cases hcompletion : tr = .completion
    · obtain ⟨t, hrun, hend⟩ :=
        run_one_of_complete (step_of_completion hbusy (hcompletion ▸ hscript))
      exact ⟨1, t, by simp, hrun, hend⟩
    · obtain ⟨t, hstep, hbusy', hcfg, hrest⟩ :=
        step_keeps_busy hbusy hscript hwf hreset hcompletion
      obtain ⟨k, u, hk, hrun, hend⟩ := ih t hbusy' (by
        rw [hrest, hcfg]
        exact fun tr' htr' => hmeaning tr' (List.mem_cons_of_mem tr htr')) hrest
      exact ⟨k + 1, u, Nat.succ_le_succ hk, (run_succ hstep).trans hrun, hend⟩

end Sys2Proof.Machine
end

section
/-! PROOFS. RUN of a host script (30_encoding R98): operand writes, the start of the command, its
completion and the read of its STATUS, with the record of these steps (70_reset_and_hazards
R269). -/

namespace Sys2Proof.Machine

/-! ### Operand writes (10_state R24) -/

/-- Operand writes in order. -/
def State.writeOperands (s : State) (ops : List (Nat × Word)) : State :=
  ops.foldl (fun s op => s.writeOperand op.1 op.2) s

theorem State.takeScript_writeOperand (s : State) (rest : List Transaction) (off : Nat) (v : Word) :
    (s.takeScript rest).writeOperand off v = (s.writeOperand off v).takeScript rest := by
  unfold State.writeOperand
  repeat' split
  all_goals rfl

theorem State.writeOperands_takeScript (s : State) (rest : List Transaction)
    (ops : List (Nat × Word)) :
    (s.takeScript rest).writeOperands ops = (s.writeOperands ops).takeScript rest := by
  induction ops generalizing s with
  | nil => rfl
  | cons op ops ih =>
    rw [State.writeOperands, List.foldl_cons, State.takeScript_writeOperand]
    exact ih _

theorem State.writeOperands_busy (s : State) (ops : List (Nat × Word)) :
    (s.writeOperands ops).busy = s.busy := by
  induction ops generalizing s with
  | nil => rfl
  | cons op ops ih => exact (ih _).trans (s.writeOperand_busy op.1 op.2)

/-- A host write that neither starts a command nor meets a running one is not noted. -/
theorem RunRecord.note_operandWrite {s t : State} {off : Nat} {v : Word} {rest : List Transaction}
    (hs : s.busy = false) (ht : t.busy = false) (hscript : s.script = .hostWrite off v :: rest)
    (r : RunRecord) : r.note s t = r := by
  simp [RunRecord.note, hs, ht, hscript, State.breaches]

/-- A run that begins with operand writes. -/
theorem runRecorded_operandWrites {ops : List (Nat × Word)}
    (hops : ∀ op ∈ ops, registerOffset op.1 = true ∧ op.1 ≠ 0x00) {s : State}
    (hidle : s.busy = false) {rest : List Transaction}
    (hscript : s.script = ops.map (fun op => .hostWrite op.1 op.2) ++ rest) (k : Nat)
    (r : RunRecord) :
    runRecorded (ops.length + k) s r =
      runRecorded k ((s.writeOperands ops).takeScript rest) r := by
  induction ops generalizing s with
  | nil =>
    have hs : s.takeScript rest = s := by
      rw [State.takeScript, ← hscript.trans (List.nil_append rest)]
    rw [List.length_nil, Nat.zero_add, State.writeOperands, List.foldl_nil, hs]
  | cons op ops ih =>
    obtain ⟨hoff, hcmd⟩ := hops op List.mem_cons_self
    rw [List.map_cons, List.cons_append] at hscript
    have hstep := step_of_operandWrite hidle hoff hcmd hscript
    have hidle' := (State.writeOperand_busy _ op.1 op.2).trans
      ((s.takeScript_busy (ops.map (fun op => .hostWrite op.1 op.2) ++ rest)).trans hidle)
    rw [List.length_cons, Nat.add_right_comm, runRecorded_succ hstep,
      RunRecord.note_operandWrite hidle hidle' hscript,
      ih (fun op hop => hops op (List.mem_cons_of_mem _ hop)) hidle'
        (State.writeOperand_script _ op.1 op.2),
      State.takeScript_writeOperand, State.writeOperands_takeScript]
    rfl

/-! ### Start, completion and the read of STATUS -/

/-- The state in which the command of `GO i` completes. -/
def State.started (s : State) (i : Instr) (rest : List Transaction) : State :=
  (s.startCommand (encode i)).takeScript rest

/-- Its window is the newest. -/
theorem State.outputs_of_commandStart {s : State} {i : Instr} {rest rest' : List Transaction} :
    ((s.takeScript rest).startCommand (encode i)).windows.head?.toList.flatMap Window.outputs =
      (s.started i rest').outputRegions i := by
  rw [State.startCommand_windows, List.head?_cons, Option.toList_some, List.flatMap_singleton,
    State.windowOf_outputs (decode_encode i)]
  rfl

/-- The read of STATUS that returns DONE = 1 closes every window (log 14). -/
theorem State.hostRead_status_done {s : State} (hdone : s.done = true) :
    (s.hostRead 0x04).windows = [] := by
  rw [State.hostRead_windows, State.acknowledge, if_pos ⟨rfl, hdone⟩]

/-- The three steps of `GO i` and `WAIT` from an idle block. -/
theorem runRecorded_go_wait {s : State} (hidle : s.busy = false) {i : Instr}
    {rest : List Transaction}
    (hscript : s.script = .hostWrite 0x00 (encode i) :: .completion :: .hostRead 0x04 :: rest) :
    ∃ t : State, exec i (s.started i (.hostRead 0x04 :: rest)) = .next t ∧ t.done = true ∧
      ∀ r : RunRecord, runRecorded 3 s r = .next ((t.takeScript rest).hostRead 0x04,
        { endings := r.endings ++ [t.status], breached := r.breached,
          writable := r.writable ++
            (s.started i (.hostRead 0x04 :: rest)).outputRegions i }) := by
  obtain ⟨t, ht, hidle', hdone, -⟩ :=
    everyCommandEndsWithALegalStatus i (s.started i (.hostRead 0x04 :: rest))
  refine ⟨t, ht, hdone, fun r => ?_⟩
  have hrest := commandsNeverModifyTheOperandRegisters i _ t ht
  have hstart := step_of_commandStart hidle hscript
  generalize hs0 : (s.takeScript (.completion :: .hostRead 0x04 :: rest)).startCommand (encode i) =
    s0 at hstart
  have hbusy0 : s0.busy = true := hs0 ▸ State.startCommand_busy _ _
  have hscript0 : s0.script = .completion :: .hostRead 0x04 :: rest := hs0 ▸ rfl
  have hcomplete : step s0 = .next t := by
    have htake : s0.takeScript (.hostRead 0x04 :: rest) = s.started i (.hostRead 0x04 :: rest) :=
      hs0 ▸ rfl
    rw [step_of_completion hbusy0 hscript0, htake]
    exact (State.complete_decoded (s := s.started i (.hostRead 0x04 :: rest)) rfl
      (decode_encode i)).trans ht
  have hread := step_of_hostRead (s := t) (off := 0x04) hrest.script rfl
  have hscript' : t.script = .hostRead 0x04 :: rest := hrest.script
  have houtputs : s0.windows.head?.toList.flatMap Window.outputs =
      (s.started i (.hostRead 0x04 :: rest)).outputRegions i := hs0 ▸ State.outputs_of_commandStart
  rw [runRecorded_succ hstart, runRecorded_succ hcomplete, runRecorded_succ hread, runRecorded_zero]
  simp [RunRecord.note, hidle, hidle', hbusy0, hdone, hscript, hscript0, hscript', State.breaches,
    houtputs]

/-! ### RUN (30_encoding R98) -/

theorem State.writeOperands_mem (s : State) (ops : List (Nat × Word)) :
    (s.writeOperands ops).mem = s.mem := by
  induction ops generalizing s with
  | nil => rfl
  | cons op ops ih => exact (ih _).trans (s.writeOperand_mem op.1 op.2)

theorem State.writeOperands_cfg (s : State) (ops : List (Nat × Word)) :
    (s.writeOperands ops).cfg = s.cfg := by
  induction ops generalizing s with
  | nil => rfl
  | cons op ops ih => exact (ih _).trans (s.writeOperand_cfg op.1 op.2)

/-- Operand writes followed by `GO i` and `WAIT` perform the command on the operands written. -/
theorem performsCommand_of_operandWrites {s : State} (hidle : s.busy = false) {i : Instr}
    {ops : List (Nat × Word)} (hops : ∀ op ∈ ops, registerOffset op.1 = true ∧ op.1 ≠ 0x00)
    {rest : List Transaction}
    (hscript : s.script = ops.map (fun op => .hostWrite op.1 op.2) ++
      .hostWrite 0x00 (encode i) :: .completion :: .hostRead 0x04 :: rest) :
    PerformsCommand s (ops.length + 3) i (s.writeOperands ops).src (s.writeOperands ops).srcLen
      (s.writeOperands ops).dst (s.writeOperands ops).dstCap (s.writeOperands ops).aux
      (s.writeOperands ops).auxCap rest := by
  obtain ⟨t, ht, hdone, hrecord⟩ := runRecorded_go_wait (i := i) (rest := rest)
    (s := (s.writeOperands ops).takeScript
      (.hostWrite 0x00 (encode i) :: .completion :: .hostRead 0x04 :: rest))
    ((s.writeOperands_busy ops).trans hidle) rfl
  have hrun (r : RunRecord) := (runRecorded_operandWrites hops hidle hscript 3 r).trans (hrecord r)
  exact ⟨_, t, (t.takeScript rest).hostRead 0x04, ht, rfl, rfl, rfl, rfl, rfl, rfl,
    s.writeOperands_mem ops, s.writeOperands_cfg ops, rfl, run_of_runRecorded (hrun .empty),
    State.hostRead_mem _ _, State.hostRead_status _ _, State.hostRead_resLen _ _,
    State.hostRead_resAux _ _, State.hostRead_errInfo _ _, rfl,
    State.hostRead_status_done (s := t.takeScript rest) hdone, State.hostRead_script _ _, hrun⟩

/-- The four operand writes of RUN. -/
def runOperands (src len dst cap : Word) : List (Nat × Word) :=
  [(0x08, src), (0x0C, len), (0x10, dst), (0x14, cap)]

/-- The six of its second form. -/
def runAuxOperands (src len dst cap aux auxCap : Word) : List (Nat × Word) :=
  runOperands src len dst cap ++ [(0x18, aux), (0x1C, auxCap)]

/-- Settles O20: the transactions of both forms are operand writes, `GO` and `WAIT`. -/
theorem runStatementPerformsTheCommand : Obligations.RunStatementPerformsTheCommand := by
  intro s i src len dst cap aux auxCap rest hidle
  have hfour := performsCommand_of_operandWrites hidle (i := i) (rest := rest)
    (ops := runOperands src len dst cap) (by simp [runOperands, registerOffset])
  have hsix := performsCommand_of_operandWrites hidle (i := i) (rest := rest)
    (ops := runAuxOperands src len dst cap aux auxCap)
    (by simp [runAuxOperands, runOperands, registerOffset])
  exact ⟨hfour, hsix⟩

end Sys2Proof.Machine
end
